-- ==== Sys2Proof/Word.lean ====
section
/-! DEFINITION. The unsigned integers of the block (`00_scope.md` R11): `u8`, `u16`, `u32`. -/

namespace Sys2Proof

/-- `u8` of R11. -/
abbrev Byte := BitVec 8

/-- `u16` of R11: markers and checksums. -/
abbrev Half := BitVec 16

/-- `u32` of R11: identifiers, lengths, times, codes. -/
abbrev Word := BitVec 32

end Sys2Proof
end

