-- ==== Sys2Proof/Config.lean ====
section
/-! DEFINITION. The parameters of an instance (`00_scope.md` R9, R10), the forms of the answers that the agents outside the
block give at its ports (`00_scope.md` R14), and the free values: opaque constants that nothing in Lean can evaluate. -/

namespace Sys2Proof

/-- A handler reference (R33, D35): opaque, never examined, no null value. Its width is the parameter `HANDLER_W`, so it is a number
below `2 ^ HANDLER_W` (log 3). -/
abbrev Handler := Nat

/-- The reference has `HANDLER_W = width` bits (R33). -/
abbrev Handler.fits (width : Nat) (h : Handler) : Bool := decide (h < 2 ^ width)

/-- `ROLE` (R9, R265): which engine the instance is. -/
inductive Role where
  | master
  | slave
deriving DecidableEq, Repr, Inhabited

/-- The four markers `MAGIC_*` with the values of `30_encoding.md` R101 as defaults (log 19). -/
structure Markers where
  ch : Half := 0x1209
  cd : Half := 0xABD1
  rh : Half := 0x9021
  rd : Half := 0x1DBA
deriving DecidableEq, Repr, Inhabited

/-- `CH_PAYLOAD_LEN`, `RH_PAYLOAD_LEN` and the layouts of the two header payloads (R9, `93_implementation_defined.md` U2), with the
values of `30_encoding.md` R103 and R105 as defaults: how long each payload is and at which byte of it each control value begins.
Bytes of no control value, of which the defaults have none, are sent as 00 (log 32). -/
structure HeaderLayout where
  chLen : Nat := 8
  chIdAt : Nat := 0
  chLenAt : Nat := 4
  rhLen : Nat := 4
  rhLenAt : Nat := 0
deriving DecidableEq, Repr, Inhabited

/-- The parameters the byte forms of instructions depend on: the markers and header layouts of a frame, and the width of a handler
reference in a request. -/
structure Formats where
  markers : Markers := {}
  header : HeaderLayout := {}
  /-- `HANDLER_W`, `OPEN` in R9, with the default it names. -/
  handlerW : Nat := 32
deriving DecidableEq, Repr, Inhabited

/-- `CRC_POLY`, `CRC_INIT`, `CRC_XOROUT`, `CRC_REFLECT` with the values of `40_checksum.md` R140 as defaults (log 18, log 19). -/
structure CrcParams where
  poly : Half := 0x1021
  init : Half := 0xFFFF
  xorOut : Half := 0x0000
  reflect : Bool := false
deriving DecidableEq, Repr, Inhabited

/-- The configuration of one instance (R9). `State` carries it and no operation changes it (log 2). -/
structure Params where
  role : Role
  shortTimeoutMs : Word
  maxCallbacks : Nat
  bufCap : Nat
  /-- Whether the medium is bus-addressed: only then R9 and R72 bound `BUF_CAP`. -/
  busAddressed : Bool
  maxLocalBuffer : Nat
  slaveBusAddr : Nat
  markers : Markers := {}
  crc : CrcParams := {}
  header : HeaderLayout := {}
  /-- `HANDLER_W`, `OPEN` in R9, with the default it names. -/
  handlerW : Nat := 32
deriving DecidableEq, Repr, Inhabited

/-- The byte forms this instance uses. -/
def Params.formats (p : Params) : Formats := ⟨p.markers, p.header, p.handlerW⟩

/-- The transport's answer to a `TWrite` (`20_memory.md` R67, R69): accepted whole, or refused with the first `sent` bytes on
the link. -/
structure WriteAnswer where
  ok : Bool
  sent : Nat
deriving DecidableEq, Repr, Inhabited

/-- What can happen at the receive side of the transport (`20_memory.md` R68, R69, R71, `44_slave.md` R210; log 9). -/
inductive LinkEvent where
  /-- These bytes arrive (none: the transfer of what is buffered is signalled complete, R77). -/
  | arrive (bytes : List Byte)
  /-- The short timeout of the `TRead` in progress ends: it answers `false`, having consumed `eaten` bytes (R69). -/
  | expire (eaten : Nat)
  /-- The transport loses the first `count` bytes it had buffered (R71, R210). -/
  | lose (count : Nat)
deriving DecidableEq, Repr, Inhabited

/-- One run of an invoked handler (`44_slave.md` R222): the requests it issues at the host port, the bytes of `BUF` it stores
(offset and value) and the code it returns; or it never returns (R263 (c)). -/
inductive HandlerRun where
  | returns (requests : List (List Byte)) (stores : List (Nat × Byte)) (code : Word)
  | hangs
deriving DecidableEq, Repr, Inhabited

/-- Free value (log 8): the transport's answer to a `TWrite`, R69 "any prefix". -/
opaque Config.writeAnswer : Nat → WriteAnswer

/-- Free value (log 8): what happens next at the receive side, R71. -/
opaque Config.linkEvent : Nat → LinkEvent

/-- Free value (log 20): what a handler does, given its reference, the event, `BUF`, `n` and `CUR_RPC_ID` (R222). -/
opaque Config.handlerRun : Nat → Handler → Word → List Host.Cell → Word → Word → HandlerRun

/-- Free value (log 11): the milliseconds that pass before a reading of `Now()` (R268). -/
opaque Config.elapsed : Nat → Word

/-- Free value (log 12): what stands for `T0` on a slave, which has no such register (R20). -/
opaque Config.slaveT0 : Nat → Word

/-- Free value (log 1): `SHORT_TIMEOUT_MS` of the instance at reset, `OPEN` in R9. -/
opaque Config.shortTimeoutMs : Word

/-- Free value (log 1): `SLAVE_BUS_ADDR`, `OPEN` in R9; no rule reads it. -/
opaque Config.slaveBusAddr : Nat

/-- The instance that `State.reset` is (R290: reset fixes the parameters; log 1). -/
def Config.instanceParams : Params where
  role := .slave
  shortTimeoutMs := Config.shortTimeoutMs
  maxCallbacks := 16
  bufCap := 256
  busAddressed := false
  maxLocalBuffer := 256
  slaveBusAddr := Config.slaveBusAddr

end Sys2Proof
end

