-- ==== Sys2Proof/Syntax.lean ====
section
/-! DEFINITION. The instructions (`00_scope.md` R17): the host operations of `30_encoding.md` R113 and the packet kinds of
`30_encoding.md` R101, one constructor per row of the operation table. -/

namespace Sys2Proof

/-- A packet kind (R101, R113). -/
inductive Kind where
  | ch
  | cd
  | rh
  | rd
deriving DecidableEq, Repr, Inhabited

/-- A host operation with the operands of R113, or a frame on the wire with the fields of R103 to R106. A frame keeps the
checksum it carries, right or wrong (R111). -/
inductive Instr where
  | crc16 (bytes : List Byte)
  | encode (kind : Kind) (payload : List Byte)
  | decode (frame : List Byte) (kind : Kind)
  | putPacket (kind : Kind) (payload : List Byte) (long : Option Word)
  | getPacket (kind : Kind) (n : Word) (long : Option Word)
  | putCommand (rpcId : Word) (data : List Byte) (timeout : Word)
  | getResult (cap : Word) (timeout : Word)
  | call (rpcId : Word) (request : List Byte) (cap : Word) (sendTimeout : Word) (recvTimeout : Word)
  | getCommand
  | findCallback (rpcId : Word)
  | putResult (data : List Byte)
  | registerCallback (rpcId : Word) (handler : Handler)
  | scheduleCallback (handler : Handler)
  | loop
  | ch (rpcId : Word) (dataLen : Word) (checksum : Half)
  | cd (data : List Byte) (checksum : Half)
  | rh (dataLen : Word) (checksum : Half)
  | rd (data : List Byte) (checksum : Half)
deriving DecidableEq, Repr, Inhabited

end Sys2Proof
end

