-- ==== Sys2Proof/WellFormed.lean ====
section
/-! DEFINITION. Which instructions can be written at a port: a byte sequence of a request has a 32-bit length (the `*_len`
operands of `30_encoding.md` R115, `43_master.md` R191); a frame has no length limit (R100). And which parameters an instance
may have (`00_scope.md` R9, R10). -/

namespace Sys2Proof

/-- The length of a byte-sequence operand is a 32-bit number (R191). -/
abbrev fitsLength (b : List Byte) : Bool := decide (b.length < 2 ^ 32)

/-- The check of an instruction's operands; a handler reference has `HANDLER_W` bits (R113). -/
def Instr.wellFormed (f : Formats) : Instr → Bool
  | .crc16 bytes => fitsLength bytes
  | .encode _ payload => fitsLength payload
  | .decode frame _ => fitsLength frame
  | .putPacket _ payload _ => fitsLength payload
  | .getPacket _ _ _ => true
  | .putCommand _ data _ => fitsLength data
  | .getResult _ _ => true
  | .call _ request _ _ _ => fitsLength request
  | .getCommand => true
  | .findCallback _ => true
  | .putResult data => fitsLength data
  | .registerCallback _ handler => Handler.fits f.handlerW handler
  | .scheduleCallback handler => Handler.fits f.handlerW handler
  | .loop => true
  | .ch _ _ _ => true
  | .cd _ _ => true
  | .rh _ _ => true
  | .rd _ _ => true

/-- Whether an instruction is a request of the host port (R113) and not a frame on the wire. -/
def Instr.isRequest : Instr → Bool
  | .ch _ _ _ => false
  | .cd _ _ => false
  | .rh _ _ => false
  | .rd _ _ => false
  | .crc16 _ => true
  | .encode _ _ => true
  | .decode _ _ => true
  | .putPacket _ _ _ => true
  | .getPacket _ _ _ => true
  | .putCommand _ _ _ => true
  | .getResult _ _ => true
  | .call _ _ _ _ _ => true
  | .getCommand => true
  | .findCallback _ => true
  | .putResult _ => true
  | .registerCallback _ _ => true
  | .scheduleCallback _ => true
  | .loop => true

/-- R10: "The four markers are pairwise distinct". -/
def Markers.distinct (m : Markers) : Bool :=
  [m.ch, m.cd, m.rh, m.rd].Nodup

/-- Each control value lies inside its header payload, the two of a command-header apart from each other, and the frame's length is
a 32-bit number as GET_PACKET's is (`42_timeout_retry.md` R178). -/
def HeaderLayout.wf (h : HeaderLayout) : Bool :=
  decide (h.chIdAt + 4 ≤ h.chLen) && decide (h.chLenAt + 4 ≤ h.chLen)
    && decide (h.chIdAt + 4 ≤ h.chLenAt ∨ h.chLenAt + 4 ≤ h.chIdAt)
    && decide (h.rhLenAt + 4 ≤ h.rhLen)
    && decide (h.chLen ≤ 2 ^ 32 - 5) && decide (h.rhLen ≤ 2 ^ 32 - 5)

/-- R9, R10, D26: the values the parameters of an instance may take. `BUF_LEN` is 32 bits and reaches `BUF_CAP` (R32). -/
def Params.wf (p : Params) : Bool :=
  (p.maxCallbacks == 16 || p.maxCallbacks == 32)
    && (p.maxLocalBuffer == 32 || p.maxLocalBuffer == 256)
    && decide (p.bufCap < 2 ^ 32)
    && (!p.busAddressed || decide (p.bufCap + 4 ≤ p.maxLocalBuffer))
    && p.markers.distinct
    && p.header.wf

end Sys2Proof
end

