-- ==== Sys2Proof/Decode.lean ====
section
/-! DEFINITION. The byte forms of instructions. At the host port a request is its operation number OP (`30_encoding.md` R113)
followed by its operands in the order of R113: a number least significant byte first, a byte sequence as its 32-bit length and
its bytes, `kind` as one byte, `long` as one byte 0 (NONE) or 1 followed by the number, a handler reference in the whole bytes that
`HANDLER_W` bits take (log 13: the spec numbers OP only). On the
wire a frame is marker, payload, checksum (R100 to R106). The decoders are total and reject by name; the encoder follows them. -/

namespace Sys2Proof

/-! ### Byte order (`00_scope.md` R12, `20_memory.md` R62) -/

/-- `le16(v)` of R12. -/
def le16 (v : Half) : List Byte :=
  [BitVec.ofNat 8 v.toNat, BitVec.ofNat 8 (v.toNat / 2 ^ 8)]

/-- `le32(v)` of R12. -/
def le32 (v : Word) : List Byte :=
  [BitVec.ofNat 8 v.toNat, BitVec.ofNat 8 (v.toNat / 2 ^ 8), BitVec.ofNat 8 (v.toNat / 2 ^ 16),
   BitVec.ofNat 8 (v.toNat / 2 ^ 24)]

/-- `u16le(b, i)` of R12. -/
def u16le (b : List Byte) (i : Nat) : Half :=
  BitVec.ofNat 16 ((b.getD i 0).toNat + 2 ^ 8 * (b.getD (i + 1) 0).toNat)

/-- `u32le(b, i)` of R12. -/
def u32le (b : List Byte) (i : Nat) : Word :=
  BitVec.ofNat 32 ((b.getD i 0).toNat + 2 ^ 8 * (b.getD (i + 1) 0).toNat + 2 ^ 16 * (b.getD (i + 2) 0).toNat
    + 2 ^ 24 * (b.getD (i + 3) 0).toNat)

/-- The 32-bit length of a byte sequence (R103, R105: `data_len`). -/
def lengthWord (b : List Byte) : Word := BitVec.ofNat 32 b.length

/-! ### Kinds and markers -/

/-- `kind` is encoded `CH = 0`, `CD = 1`, `RH = 2`, `RD = 3` (R113). -/
def kindCode : Kind → Byte
  | .ch => 0
  | .cd => 1
  | .rh => 2
  | .rd => 3

/-- The kind of a `kind` operand, none outside `0 .. 3` (R114). -/
def kindOfCode (b : Byte) : Option Kind :=
  if b = 0 then some .ch else if b = 1 then some .cd else if b = 2 then some .rh else if b = 3 then some .rd else none

/-- `MAGIC(kind)` of R150. -/
def magic (m : Markers) : Kind → Half
  | .ch => m.ch
  | .cd => m.cd
  | .rh => m.rh
  | .rd => m.rd

/-! ### Why bytes are no instruction -/

/-- The reasons a decoder names. -/
inductive DecodeError where
  /-- OP is no operation number of R113 (R114). -/
  | unknownOp
  /-- A `kind` operand outside `0 .. 3` (R114). -/
  | badKind
  /-- The request stops before its operands end, a `long` flag is neither 0 nor 1, or a handler reference has more than `HANDLER_W`
  bits (log 14). -/
  | malformed
  /-- The first two bytes are none of the four markers (R111). -/
  | unknownMarker
  /-- A frame whose length is not that of its kind (R103 to R106). -/
  | badLength
  /-- A header frame whose bytes of no control value are not 00: no frame the layout writes (log 32). -/
  | badFiller
deriving DecidableEq, Repr, Inhabited

/-! ### Reading operands -/

/-- One byte and the rest. -/
def takeByte : List Byte → Except DecodeError (Byte × List Byte)
  | b :: r => .ok (b, r)
  | [] => .error .malformed

/-- One 32-bit number, least significant byte first, and the rest. -/
def takeWord (b : List Byte) : Except DecodeError (Word × List Byte) :=
  if b.length < 4 then .error .malformed else .ok (u32le b 0, b.drop 4)

/-- One byte sequence and the rest. -/
def takeSeq (b : List Byte) : Except DecodeError (List Byte × List Byte) :=
  match takeWord b with
  | .error e => .error e
  | .ok (n, r) => if r.length < n.toNat then .error .malformed else .ok (r.take n.toNat, r.drop n.toNat)

/-- One `kind` and the rest. -/
def takeKind (b : List Byte) : Except DecodeError (Kind × List Byte) :=
  match takeByte b with
  | .error e => .error e
  | .ok (c, r) =>
    match kindOfCode c with
    | some k => .ok (k, r)
    | none => .error .badKind

/-- One `long` and the rest. -/
def takeLong (b : List Byte) : Except DecodeError (Option Word × List Byte) :=
  match takeByte b with
  | .error e => .error e
  | .ok (c, r) =>
    if c = 0 then .ok (none, r)
    else if c = 1 then
      match takeWord r with
      | .error e => .error e
      | .ok (w, r') => .ok (some w, r')
    else .error .malformed

/-- The bytes of a number, least significant first. -/
def bytesOfNat : Nat → Nat → List Byte
  | 0, _ => []
  | n + 1, w => BitVec.ofNat 8 w :: bytesOfNat n (w / 2 ^ 8)

/-- The number these bytes are, least significant first. -/
def natOfBytes : List Byte → Nat
  | [] => 0
  | b :: r => b.toNat + 2 ^ 8 * natOfBytes r

/-- How many bytes a handler reference of `width` bits takes. -/
def handlerBytes (width : Nat) : Nat := (width + 7) / 8

/-- One handler reference of `width` bits and the rest. -/
def takeHandler (width : Nat) (b : List Byte) : Except DecodeError (Handler × List Byte) :=
  if b.length < handlerBytes width then .error .malformed
  else
    let h := natOfBytes (b.take (handlerBytes width))
    if Handler.fits width h then .ok (h, b.drop (handlerBytes width)) else .error .malformed

/-! ### Requests at the host port -/

/-- The operands of the operation numbered `op` (R113). What stands after the last operand is not read. -/
def decodeOperands (f : Formats) (op : Nat) (b : List Byte) : Except DecodeError Instr :=
  match op with
  | 0x01 => do
    let (bytes, _) ← takeSeq b
    return .crc16 bytes
  | 0x02 => do
    let (kind, b) ← takeKind b
    let (payload, _) ← takeSeq b
    return .encode kind payload
  | 0x03 => do
    let (frame, b) ← takeSeq b
    let (kind, _) ← takeKind b
    return .decode frame kind
  | 0x04 => do
    let (kind, b) ← takeKind b
    let (payload, b) ← takeSeq b
    let (long, _) ← takeLong b
    return .putPacket kind payload long
  | 0x05 => do
    let (kind, b) ← takeKind b
    let (n, b) ← takeWord b
    let (long, _) ← takeLong b
    return .getPacket kind n long
  | 0x10 => do
    let (rpcId, b) ← takeWord b
    let (data, b) ← takeSeq b
    let (timeout, _) ← takeWord b
    return .putCommand rpcId data timeout
  | 0x11 => do
    let (cap, b) ← takeWord b
    let (timeout, _) ← takeWord b
    return .getResult cap timeout
  | 0x12 => do
    let (rpcId, b) ← takeWord b
    let (request, b) ← takeSeq b
    let (cap, b) ← takeWord b
    let (sendTimeout, b) ← takeWord b
    let (recvTimeout, _) ← takeWord b
    return .call rpcId request cap sendTimeout recvTimeout
  | 0x20 => .ok .getCommand
  | 0x21 => do
    let (rpcId, _) ← takeWord b
    return .findCallback rpcId
  | 0x22 => do
    let (data, _) ← takeSeq b
    return .putResult data
  | 0x23 => do
    let (rpcId, b) ← takeWord b
    let (handler, _) ← takeHandler f.handlerW b
    return .registerCallback rpcId handler
  | 0x24 => do
    let (handler, _) ← takeHandler f.handlerW b
    return .scheduleCallback handler
  | 0x25 => .ok .loop
  | _ => .error .unknownOp

/-- The instruction a request stands for (R112, R113). -/
def decodeRequest (f : Formats) : List Byte → Except DecodeError Instr
  | [] => .error .malformed
  | op :: b => decodeOperands f op.toNat b

/-! ### Frames on the wire -/

/-- `b` with the four bytes from offset `i` on replaced by `le32 v`. -/
def putWord (i : Nat) (v : Word) (b : List Byte) : List Byte := b.take i ++ le32 v ++ b.drop (i + 4)

/-- The payload of a command-header (R103, R107): the two control values at their offsets. -/
def chPayload (h : HeaderLayout) (rpcId dataLen : Word) : List Byte :=
  putWord h.chIdAt rpcId (putWord h.chLenAt dataLen (List.replicate h.chLen 0))

/-- The payload of a result-header (R105, R107): the control value at its offset. -/
def rhPayload (h : HeaderLayout) (dataLen : Word) : List Byte :=
  putWord h.rhLenAt dataLen (List.replicate h.rhLen 0)

/-- The frame with these fields (R100): marker, payload, checksum. -/
def frameBytes (m : Markers) (kind : Kind) (payload : List Byte) (checksum : Half) : List Byte :=
  le16 (magic m kind) ++ payload ++ le16 checksum

/-- The command-header with this payload (R103). -/
def decodeCh (h : HeaderLayout) (payload : List Byte) (checksum : Half) : Except DecodeError Instr :=
  if payload.length ≠ h.chLen then .error .badLength
  else if payload ≠ chPayload h (u32le payload h.chIdAt) (u32le payload h.chLenAt) then .error .badFiller
  else .ok (.ch (u32le payload h.chIdAt) (u32le payload h.chLenAt) checksum)

/-- The result-header with this payload (R105). -/
def decodeRh (h : HeaderLayout) (payload : List Byte) (checksum : Half) : Except DecodeError Instr :=
  if payload.length ≠ h.rhLen then .error .badLength
  else if payload ≠ rhPayload h (u32le payload h.rhLenAt) then .error .badFiller
  else .ok (.rh (u32le payload h.rhLenAt) checksum)

/-- The packet-kind instruction that these bytes are (R103 to R106), whatever checksum they carry. -/
def decodeWire (f : Formats) (b : List Byte) : Except DecodeError Instr :=
  if b.length < 4 then .error .badLength
  else
    let payload := (b.drop 2).take (b.length - 4)
    let checksum := u16le b (b.length - 2)
    let marker := u16le b 0
    if marker = f.markers.ch then decodeCh f.header payload checksum
    else if marker = f.markers.cd then .ok (.cd payload checksum)
    else if marker = f.markers.rh then decodeRh f.header payload checksum
    else if marker = f.markers.rd then .ok (.rd payload checksum)
    else .error .unknownMarker

/-! ### The encoder -/

/-- A byte sequence at the host port: its length and its bytes. -/
def seqBytes (b : List Byte) : List Byte := le32 (lengthWord b) ++ b

/-- A `long` operand at the host port. -/
def longBytes : Option Word → List Byte
  | none => [0]
  | some w => 1 :: le32 w

/-- A handler reference of `width` bits at the host port. -/
def handlerOperand (width : Nat) (h : Handler) : List Byte := bytesOfNat (handlerBytes width) h

/-- The bytes of an instruction: a request for the host port, or a frame. -/
def encode (f : Formats) : Instr → List Byte
  | .crc16 bytes => 0x01 :: seqBytes bytes
  | .encode kind payload => 0x02 :: kindCode kind :: seqBytes payload
  | .decode frame kind => 0x03 :: (seqBytes frame ++ [kindCode kind])
  | .putPacket kind payload long => 0x04 :: kindCode kind :: (seqBytes payload ++ longBytes long)
  | .getPacket kind n long => 0x05 :: kindCode kind :: (le32 n ++ longBytes long)
  | .putCommand rpcId data timeout => 0x10 :: (le32 rpcId ++ seqBytes data ++ le32 timeout)
  | .getResult cap timeout => 0x11 :: (le32 cap ++ le32 timeout)
  | .call rpcId request cap sendTimeout recvTimeout =>
    0x12 :: (le32 rpcId ++ seqBytes request ++ le32 cap ++ le32 sendTimeout ++ le32 recvTimeout)
  | .getCommand => [0x20]
  | .findCallback rpcId => 0x21 :: le32 rpcId
  | .putResult data => 0x22 :: seqBytes data
  | .registerCallback rpcId handler => 0x23 :: (le32 rpcId ++ handlerOperand f.handlerW handler)
  | .scheduleCallback handler => 0x24 :: handlerOperand f.handlerW handler
  | .loop => [0x25]
  | .ch rpcId dataLen checksum => frameBytes f.markers .ch (chPayload f.header rpcId dataLen) checksum
  | .cd data checksum => frameBytes f.markers .cd data checksum
  | .rh dataLen checksum => frameBytes f.markers .rh (rhPayload f.header dataLen) checksum
  | .rd data checksum => frameBytes f.markers .rd data checksum

/-! ### The operation table's words -/

/-- More zero bytes than the fixed operands of any request take (those of `CALL` are 20 bytes). -/
def zeroOperands (f : Formats) : List Byte := List.replicate (24 + handlerBytes f.handlerW) 0

/-- How many bytes the shortest frame with this marker has: 12 for `CH`, 8 for `RH`, 4 for the data kinds (R103 to R106). -/
def wireLength (f : Formats) (marker : Half) : Nat :=
  if marker = f.markers.ch then f.header.chLen + 4 else if marker = f.markers.rh then f.header.rhLen + 4 else 4

/-- A row of one byte is a host operation (format HOSTOP), a longer one a packet kind (format FRAME). -/
def tableRowIsRequest (nbits : Nat) : Bool := decide (nbits ≤ 8)

/-- The bytes of the table's word `w` of `nbits` bits, with zeros above them (log 27). -/
def tableBytes (f : Formats) (nbits w : Nat) : List Byte :=
  if tableRowIsRequest nbits then bytesOfNat 1 w ++ zeroOperands f
  else
    let given := bytesOfNat (max 2 (nbits / 8)) w
    given ++ List.replicate (wireLength f (u16le given 0) - given.length) 0

/-- The instruction the decoder reads from the table's word, with the default formats (R101, R103, R105). -/
def decodeTableWord (nbits w : Nat) : Option Instr :=
  let b := tableBytes {} nbits w
  (if tableRowIsRequest nbits then decodeRequest {} b else decodeWire {} b).toOption

end Sys2Proof
end

