-- ==== Sys2Proof/Machine/Memory.lean ====
section
/-! DEFINITION. Byte arrays held in canonical form (`20_memory.md` R60, R61): `BUF` and the host's response buffer. A memory is a
list of (offset, byte) cells with offsets strictly rising and no cell equal to what an unlisted offset reads as. -/

namespace Sys2Proof.Machine

/-- A byte array: cells in canonical form. -/
abbrev Memory := List Host.Cell

/-- What an unlisted offset reads as. The spec leaves `BUF` unspecified at reset (`10_state.md` R39): DESIGN CHOICE 00,
unsafe (log 5). -/
def unlistedByte : Byte := 0

/-- The byte at an offset. -/
def readByte : Memory → Nat → Byte
  | [], _ => unlistedByte
  | c :: m, a => if c.1 = a then c.2 else readByte m a

/-- The cell (a, b), or none where `b` is what an unlisted offset reads as. -/
def cellOf (a : Nat) (b : Byte) : Memory := if b = unlistedByte then [] else [(a, b)]

/-- Store one byte, keeping the canonical form. -/
def writeByte : Memory → Nat → Byte → Memory
  | [], a, b => cellOf a b
  | c :: m, a, b =>
    if c.1 < a then c :: writeByte m a b
    else if c.1 = a then cellOf a b ++ m
    else cellOf a b ++ c :: m

/-- `MemRead(a, n)` of R61 on the bytes themselves. -/
def readBytes (m : Memory) (a : Nat) : Nat → List Byte
  | 0 => []
  | n + 1 => readByte m a :: readBytes m (a + 1) n

/-- `MemWrite(a, n, v)` of R61 on the bytes themselves, in increasing offset order. -/
def writeBytes (m : Memory) (a : Nat) : List Byte → Memory
  | [] => m
  | b :: bs => writeBytes (writeByte m a b) (a + 1) bs

/-- Stores at the listed offsets, in the order of the list. -/
def writeCells (m : Memory) : List (Nat × Byte) → Memory
  | [] => m
  | (a, b) :: rest => writeCells (writeByte m a b) rest

/-- Offsets strictly rising. -/
def rising : Memory → Bool
  | [] => true
  | [_] => true
  | c :: d :: m => decide (c.1 < d.1) && rising (d :: m)

/-- The canonical form. -/
def Memory.wf (m : Memory) : Bool := rising m && m.all fun c => decide (c.2 ≠ unlistedByte)

/-- Every listed offset lies below `cap` (R61: offsets `0 .. BUF_CAP-1`). -/
def Memory.within (m : Memory) (cap : Nat) : Bool := m.all fun c => decide (c.1 < cap)

end Sys2Proof.Machine
end

