-- ==== Sys2Proof/Machine/State.lean ====
section
/-! DEFINITION. Everything the spec gives one instance (`10_state.md`), the operation in progress, and what stands at its ports. -/

namespace Sys2Proof.Machine

/-- The named states of the two engines (`10_state.md` R24, R25), Idle and AwaitingResult of a master, WaitingForCommand and
Dispatching of a slave. -/
inductive SeqState where
  | idle
  | awaitingResult
  | waitingForCommand
  | dispatching
deriving DecidableEq, Repr, Inhabited

/-- The phases of a master (`10_state.md` R26) and of a slave (`10_state.md` R27). -/
inductive Phase where
  | mRest
  | mPutCh
  | mPutCd
  | mGetRh
  | mGetRd
  | sRest
  | sGetCh
  | sGetCd
  | sFind
  | sHandler
  | sPutRh
  | sPutRd
  | sDeferred
deriving DecidableEq, Repr, Inhabited

/-- The outcomes of an operation (`60_exceptions.md` R250): `OK` and the failures. -/
inductive Status where
  | ok
  | timeout
  | checksumMismatch
  | markerMismatch
  | truncated
  | tableFull
  | notFound
  | duplicate
  | lenOverflow
  | badOp
deriving DecidableEq, Repr, Inhabited

/-- One entry of the Callback Table, `CB_ID[i]` and `CB_HANDLER[i]` (`10_state.md` R33). -/
structure CbEntry where
  id : Word
  handler : Handler
deriving DecidableEq, Repr, Inhabited

/-- The results of a completion (`30_encoding.md` R112, R113). -/
inductive Result where
  | nothing
  /-- `code` of CRC16. -/
  | code (c : Half)
  /-- `frame` of ENCODE; `payload` of DECODE and GET_PACKET. -/
  | bytes (b : List Byte)
  /-- `data` and `data_len` of GET_RESULT; `response` and `response_len` of CALL. -/
  | data (b : List Byte) (len : Word)
  /-- `rpc_id` of GET_COMMAND. -/
  | rpcId (id : Word)
  /-- `handler` of FIND_CALLBACK. -/
  | handler (h : Handler)
deriving DecidableEq, Repr, Inhabited

/-- What CALL still has to do after PUT_COMMAND (`43_master.md` R196): GET_RESULT with these operands. -/
structure CallRest where
  cap : Word
  recvTimeout : Word
deriving DecidableEq, Repr, Inhabited

/-- The point an operation in progress has reached, with the operands and locals its pseudocode still needs
(`42_timeout_retry.md`, `43_master.md`, `44_slave.md`). -/
inductive Job where
  /-- No operation is in progress. -/
  | idle
  /-- PUT_PACKET issued by the host. -/
  | putPacket
  /-- GET_PACKET issued by the host. -/
  | getPacket
  /-- PUT_COMMAND (within CALL when `call` is given) has asked for the time that it samples into `T0`. -/
  | commandStart (rpcId : Word) (data : List Byte) (timeout : Word) (call : Option CallRest)
  /-- PUT_COMMAND (within CALL when `call` is given) is sending the command-header. -/
  | commandHeader (data : List Byte) (call : Option CallRest)
  /-- PUT_COMMAND is sending the command-data. -/
  | commandData (call : Option CallRest)
  /-- GET_RESULT has asked for the time that it samples into `T0`. -/
  | resultStart (cap : Word) (timeout : Word)
  /-- GET_RESULT is receiving the result-header. -/
  | resultHeader (cap : Word)
  /-- GET_RESULT is receiving the result-data. -/
  | resultData
  /-- GET_COMMAND (within LOOP when `inLoop`) is receiving the command-header. -/
  | recvHeader (inLoop : Bool)
  /-- GET_COMMAND is receiving the command-data of the command with this identifier. -/
  | recvData (rpcId : Word) (inLoop : Bool)
  /-- LOOP has invoked the command's handler, whose reference is `h`. -/
  | handler (h : Handler)
  /-- PUT_RESULT (within LOOP when `inLoop`) is sending the result-header. -/
  | replyHeader (data : List Byte) (inLoop : Bool)
  /-- PUT_RESULT is sending the result-data. -/
  | replyData (inLoop : Bool)
  /-- LOOP has invoked the deferred handler, whose reference is `h`. -/
  | deferred (h : Handler)
deriving DecidableEq, Repr, Inhabited

/-- The exchange in progress (`00_scope.md` R16, `42_timeout_retry.md` R170). -/
inductive Exchange where
  | idle
  /-- PUT_PACKET at its `TWrite`: the frame stands in FRAME. -/
  | put (long : Option Word)
  /-- GET_PACKET at its `TRead`: the kind and payload length expected, and the failure of the last attempt made (R174). -/
  | get (kind : Kind) (n : Word) (long : Option Word) (last : Status)
  /-- PUT_PACKET at the deadline check before an attempt, which has asked for the time (R171). -/
  | putCheck (long : Word)
  /-- GET_PACKET at the deadline check before an attempt. -/
  | getCheck (kind : Kind) (n : Word) (long : Word) (last : Status)
deriving DecidableEq, Repr, Inhabited

/-- A use of a port primitive (`00_scope.md` R14) with the operands the engine passes. -/
inductive Prim where
  | twrite (bytes : List Byte) (ms : Word)
  | tread (n : Nat) (ms : Word)
  | invoke (handler : Handler) (event : Word) (n : Word)
  | now (reading : Word)
deriving DecidableEq, Repr, Inhabited

/-- A port primitive with the sequencer's registers when it is issued (`10_state.md` R28). -/
structure PortCall where
  state : SeqState
  phase : Phase
  prim : Prim
deriving DecidableEq, Repr, Inhabited

/-- One instance of the engine and what stands at its ports. Fields of the other role are there and unused (R20; log 2). -/
structure State where
  /-- The parameters of R9: no operation writes them. -/
  params : Params
  /-- `RETRY_CNT` (R22, R23). -/
  retryCnt : BitVec 8
  /-- `T0` (R31), master only. -/
  t0 : Word
  /-- `STATUS` (R29). -/
  status : Status
  /-- `STATE` (R24, R25). -/
  state : SeqState
  /-- `PHASE` (R26, R27). -/
  phase : Phase
  /-- `CUR_RPC_ID` (R32), slave only. -/
  curRpcId : Word
  /-- `BUF_LEN` (R32), slave only. -/
  bufLen : Word
  /-- `BUF` (R32, R61), slave only. -/
  buf : Memory
  /-- `CB_COUNT` (R33), slave only. -/
  cbCount : BitVec 8
  /-- `CB_ID[i]`, `CB_HANDLER[i]` for `i` in `0 .. MAX_CALLBACKS-1` (R33), slave only. -/
  cb : List CbEntry
  /-- `DEF_VALID` (R35), slave only. -/
  defValid : Bool
  /-- `DEF_HANDLER` (R35), slave only. -/
  defHandler : Handler
  /-- `FRAME` (R36), empty when its contents are not defined (log 6). -/
  frame : List Byte
  /-- The host's response buffer (R74, R194), an operand of CALL and GET_RESULT. -/
  respBuf : Memory
  /-- The host's in-out response length (R113, R194). -/
  respLen : Word
  /-- The results of the last completion (R112). -/
  result : Result
  /-- The operation in progress. -/
  job : Job
  /-- The exchange in progress. -/
  exch : Exchange
  /-- The receive stream (R60): bytes arrived and not consumed. -/
  rx : List Byte
  /-- The transmit stream (R60), oldest byte first. -/
  tx : List Byte
  /-- The time source (R268). -/
  now : Word
  /-- The model's own: requests the host has issued and the port has not taken (R112). -/
  hostPort : List (List Byte)
  /-- The model's own: the transport's coming answers to `TWrite`. -/
  writes : List WriteAnswer
  /-- The model's own: what comes at the receive side of the transport. -/
  link : List LinkEvent
  /-- The model's own: the coming runs of invoked handlers. -/
  handlers : List HandlerRun
  /-- The model's own: the milliseconds before each of the coming readings of `Now()`. -/
  clock : List Word
  /-- The model's own: the counter of the free values drawn from Config. -/
  draws : Nat
  /-- The model's own: the port primitives issued, oldest first. Nothing reads it. -/
  calls : List PortCall
deriving DecidableEq, Repr, Inhabited

/-- Why the machine stops. -/
inductive Fault where
  /-- A request other than a registration while an operation is in progress. Raised by the host port and by a handler's
  request; `60_exceptions.md` R263 (a): a model faults. Safe. -/
  | requestInProgress
  /-- A registration while the sequencer is inside an exchange or in S_FIND, which only an interrupt context could issue;
  `60_exceptions.md` R263 (b): a model faults. Safe. -/
  | registrationOutOfTurn
  /-- An invoked handler does not return; `60_exceptions.md` R263 (c): a model faults. Safe. -/
  | handlerDoesNotReturn
  /-- An access to `BUF` outside `BUF_CAP`, which `20_memory.md` R61 does not define; only a handler's store can raise it in
  a run. Safe. -/
  | bufOutOfRange
deriving DecidableEq, Repr, Inhabited

/-- Why the model gives no meaning. -/
inductive Refusal where
  /-- An instruction without a meaning in this model. Raised by the dispatch only. Safe. -/
  | notModelled (mnemonic : String)
  /-- Bytes at the host port that are no request in the model's own layout (log 14). Raised by the fetch of a request. Safe. -/
  | malformedRequest
deriving DecidableEq, Repr, Inhabited

/-- The outcome of a step. -/
abbrev Out := Host.Outcome State Fault Refusal

/-- `STATE` at rest: code 0 of R24 and R25. -/
def restState : Role → SeqState
  | .master => .idle
  | .slave => .waitingForCommand

/-- `PHASE` at rest: code 0 of R26 and R27. -/
def restPhase : Role → Phase
  | .master => .mRest
  | .slave => .sRest

/-- An instance with these parameters right after reset (`10_state.md` R39, `70_reset_and_hazards.md` R290). Registers the spec
leaves unspecified are zero (log 4), the streams are empty (log 7), nothing is listed of the other agents' answers (log 8). -/
def State.resetWith (p : Params) : State where
  params := p
  retryCnt := 0
  t0 := 0
  status := .ok
  state := restState p.role
  phase := restPhase p.role
  curRpcId := 0
  bufLen := 0
  buf := []
  cbCount := 0
  cb := List.replicate p.maxCallbacks ⟨0, 0⟩
  defValid := false
  defHandler := 0
  frame := []
  respBuf := []
  respLen := 0
  result := .nothing
  job := .idle
  exch := .idle
  rx := []
  tx := []
  now := 0
  hostPort := []
  writes := []
  link := []
  handlers := []
  clock := []
  draws := 0
  calls := []

/-- The machine right after reset: the instance of log 1. -/
def State.reset : State := State.resetWith Config.instanceParams

end Sys2Proof.Machine
end

