-- ==== Sys2Proof/Machine/Flags.lean ====
section
/-! DEFINITION. The codes of STATUS (`60_exceptions.md` R250), STATE and PHASE (`10_state.md` R24 to R27), `ok` (R29), and the two
classes of failures of `60_exceptions.md` R251. -/

namespace Sys2Proof.Machine

/-- The code of an outcome in STATUS (R250). -/
def statusCode : Status → Byte
  | .ok => 0
  | .timeout => 1
  | .checksumMismatch => 2
  | .markerMismatch => 3
  | .truncated => 4
  | .tableFull => 5
  | .notFound => 6
  | .duplicate => 7
  | .lenOverflow => 8
  | .badOp => 9

/-- The bit of STATE (R24, R25). -/
def stateCode : SeqState → BitVec 1
  | .idle => 0
  | .awaitingResult => 1
  | .waitingForCommand => 0
  | .dispatching => 1

/-- The code of PHASE (R26, R27). -/
def phaseCode : Phase → BitVec 4
  | .mRest => 0
  | .mPutCh => 1
  | .mPutCd => 2
  | .mGetRh => 3
  | .mGetRd => 4
  | .sRest => 0
  | .sGetCh => 1
  | .sGetCd => 2
  | .sFind => 3
  | .sHandler => 4
  | .sPutRh => 5
  | .sPutRd => 6
  | .sDeferred => 7

/-- `ok` of a completion: `STATUS = 0` (R29). -/
def State.ok (s : State) : Bool := decide (statusCode s.status = 0)

/-- `TransportError` is `Timeout` (R251). -/
def isTransportError (f : Status) : Bool := decide (f = .timeout)

/-- `ProtocolError` is any of the three validation failures (R251). -/
def isProtocolError (f : Status) : Bool :=
  decide (f = .checksumMismatch ∨ f = .markerMismatch ∨ f = .truncated)

end Sys2Proof.Machine
end

