-- ==== Sys2Proof/Machine/Operands.lean ====
section
/-! DEFINITION. Operands and constants of the operations: the payload lengths of the two headers, minimum frame lengths, event
codes, attempts per exchange, and which requests the host port does not start. -/

namespace Sys2Proof.Machine

/-- `RETRY_RESET` of R9 and R177: total attempts of one exchange. -/
def retryReset : Role → BitVec 8
  | .master => 3
  | .slave => 2

/-- `FRAME_OVERHEAD` of R9: marker and checksum. -/
def frameOverhead : Nat := 4

/-- `CH_PAYLOAD_LEN` of R9: what GET_COMMAND expects of a command-header (R212). -/
def chPayloadLen (p : Params) : Word := BitVec.ofNat 32 p.header.chLen

/-- `RH_PAYLOAD_LEN` of R9: what GET_RESULT expects of a result-header (R193). -/
def rhPayloadLen (p : Params) : Word := BitVec.ofNat 32 p.header.rhLen

/-- `MIN_LEN(kind)` of `30_encoding.md` R109. -/
def minLen : Kind → Nat
  | .ch => 8
  | .cd => 4
  | .rh => 8
  | .rd => 4

/-- `EV_COMMAND` of `44_slave.md` R224. -/
def evCommand : Word := 0

/-- `EV_DEFERRED` of `44_slave.md` R224. -/
def evDeferred : Word := 1

/-- The bytes a `TRead` asks for when a payload of `n` bytes is expected: `n + 4` in unbounded integers (R174, R178). -/
def frameLength (n : Word) : Nat := n.toNat + frameOverhead

/-- The role column of `30_encoding.md` R113. Frames come from the link, not from the host. -/
def roleAccepts (r : Role) : Instr → Bool
  | .crc16 _ => true
  | .encode _ _ => true
  | .decode _ _ => true
  | .putPacket _ _ _ => true
  | .getPacket _ _ _ => true
  | .putCommand _ _ _ => decide (r = .master)
  | .getResult _ _ => decide (r = .master)
  | .call _ _ _ _ _ => decide (r = .master)
  | .getCommand => decide (r = .slave)
  | .findCallback _ => decide (r = .slave)
  | .putResult _ => decide (r = .slave)
  | .registerCallback _ _ => decide (r = .slave)
  | .scheduleCallback _ => decide (r = .slave)
  | .loop => decide (r = .slave)
  | .ch _ _ _ => true
  | .cd _ _ => true
  | .rh _ _ => true
  | .rd _ _ => true

/-- "a length operand that cannot be represented" (R250, code 9): `n > 2^32 - 5` of GET_PACKET (R178, R262), and a byte
sequence whose length does not fit the 32-bit `data_len` field it goes into (R191; log 30). -/
def lengthRepresentable : Instr → Bool
  | .getPacket _ n _ => decide (n.toNat ≤ 2 ^ 32 - 5)
  | .putCommand _ data _ => fitsLength data
  | .call _ request _ _ _ => fitsLength request
  | .putResult data => fitsLength data
  | .crc16 _ => true
  | .encode _ _ => true
  | .decode _ _ => true
  | .putPacket _ _ _ => true
  | .getResult _ _ => true
  | .getCommand => true
  | .findCallback _ => true
  | .registerCallback _ _ => true
  | .scheduleCallback _ => true
  | .loop => true
  | .ch _ _ _ => true
  | .cd _ _ => true
  | .rh _ _ => true
  | .rd _ _ => true

/-- The request is one the port does not start (`30_encoding.md` R114, `60_exceptions.md` R262). -/
def isBadOp (r : Role) (i : Instr) : Bool := !(roleAccepts r i && lengthRepresentable i)

/-- A registration (R225, R228): the requests a running handler may issue (R261). -/
def isRegistration : Instr → Bool
  | .registerCallback _ _ => true
  | .scheduleCallback _ => true
  | .crc16 _ => false
  | .encode _ _ => false
  | .decode _ _ => false
  | .putPacket _ _ _ => false
  | .getPacket _ _ _ => false
  | .putCommand _ _ _ => false
  | .getResult _ _ => false
  | .call _ _ _ _ _ => false
  | .getCommand => false
  | .findCallback _ => false
  | .putResult _ => false
  | .loop => false
  | .ch _ _ _ => false
  | .cd _ _ => false
  | .rh _ _ => false
  | .rd _ _ => false

end Sys2Proof.Machine
end

