-- ==== Sys2Proof/Machine/Codec.lean ====
section
/-! DEFINITION. The Checksum unit's function (`40_checksum.md` R140, R143) and the Packet Codec's two functions
(`41_packet_codec.md` R150, R152): pure functions of their operands (R156). -/

namespace Sys2Proof.Machine

/-- One inner step of R140: shift left, and exclusive-or the polynomial when bit 15 was set. -/
def crcShift (poly crc : Half) : Half :=
  if crc.getLsbD 15 then (crc <<< 1) ^^^ poly else crc <<< 1

/-- The eight inner steps of R140, which always run (R143). -/
def crcShift8 (poly crc : Half) : Half :=
  crcShift poly (crcShift poly (crcShift poly (crcShift poly
    (crcShift poly (crcShift poly (crcShift poly (crcShift poly crc)))))))

/-- The byte as it enters the register: reflected when `CRC_REFLECT` is set (log 18). -/
def crcInput (c : CrcParams) (b : Byte) : Byte := if c.reflect then b.reverse else b

/-- The register after one more byte (R140, R143). -/
def crcByte (c : CrcParams) (crc : Half) (b : Byte) : Half :=
  crcShift8 c.poly (crc ^^^ ((crcInput c b).setWidth 16 <<< 8))

/-- The register after these bytes, in wire order, from `crc` on. -/
def crcFold (c : CrcParams) (crc : Half) (bytes : List Byte) : Half := bytes.foldl (crcByte c) crc

/-- What is made of the register at the end: reflected when `CRC_REFLECT` is set (log 18), exclusive-or `CRC_XOROUT`. -/
def crcOutput (c : CrcParams) (crc : Half) : Half := (if c.reflect then crc.reverse else crc) ^^^ c.xorOut

/-- `crc16(bytes)` of R140. -/
def crc16 (c : CrcParams) (bytes : List Byte) : Half := crcOutput c (crcFold c c.init bytes)

/-- Marker and payload, what the checksum is computed over (`30_encoding.md` R102). -/
def packetBody (m : Markers) (kind : Kind) (payload : List Byte) : List Byte := le16 (magic m kind) ++ payload

/-- `ENCODE(kind, payload)` of R150. -/
def encodePacket (p : Params) (kind : Kind) (payload : List Byte) : List Byte :=
  packetBody p.markers kind payload ++ le16 (crc16 p.crc (packetBody p.markers kind payload))

/-- `DECODE(frame, kind)` of R152: the three tests in the order of R153. -/
def decodePacket (p : Params) (kind : Kind) (frame : List Byte) : Except Status (List Byte) :=
  if frame.length < minLen kind then .error .truncated
  else if frame.take 2 ≠ le16 (magic p.markers kind) then .error .markerMismatch
  else if frame.drop (frame.length - 2) ≠ le16 (crc16 p.crc (frame.take (frame.length - 2))) then
    .error .checksumMismatch
  else .ok ((frame.take (frame.length - 2)).drop 2)

end Sys2Proof.Machine
end

