-- ==== Sys2Proof/Machine/Ops.lean ====
section
/-! DEFINITION. The named operations over the registers: ending an operation with success or with a failure (the block's only
exception entry, `60_exceptions.md` R258), refusing a request (R262), the host port's gate, the clock, `BUF`, the Callback
Table, the deferred slot, and the record of port calls. There is no return from a failure to model (R260). -/

namespace Sys2Proof.Machine

/-! ### Ending and refusing -/

/-- The end of an operation (R258, `10_state.md` R28, R29): sequencer at rest, `STATUS` written, completion given. A failure
carries no result (R252). `FRAME` has no defined contents any more (R36). -/
def finish (st : Status) (r : Result) (s : State) : State :=
  { s with
    status := st
    result := if st = .ok then r else .nothing
    job := .idle
    exch := .idle
    phase := restPhase s.params.role
    state := restState s.params.role
    frame := [] }

/-- The end of an operation that leaves the sequencer where it is: one of a single step, or a registration nested in a handler
(R261). -/
def completeInPlace (st : Status) (r : Result) (s : State) : State :=
  { s with status := st, result := if st = .ok then r else .nothing }

/-- The refusal of R114 and R262: `STATUS <- BadOp`, `ok = false`, no other effect. -/
def refuse (s : State) : State := completeInPlace .badOp .nothing s

/-! ### The host port's gate -/

/-- An operation is in progress (R263): `PHASE` is not a resting value, or an operation the host issued is not complete. -/
def State.inProgress (s : State) : Bool :=
  !(decide (s.phase = restPhase s.params.role) && decide (s.state = restState s.params.role) && decide (s.job = .idle)
    && decide (s.exch = .idle))

/-- A handler is running, so registrations are accepted from it (R225, R261). -/
def State.handlerRunning (s : State) : Bool := decide (s.phase = .sHandler ∨ s.phase = .sDeferred)

/-- The host port (R112): a request it does not start is refused, tested before anything else (R257); a request with no
meaning is a fault (R263); any other is run. -/
def gate (i : Instr) (s : State) (run : State → Out) : Out :=
  if isBadOp s.params.role i then .next (refuse s)
  else if isRegistration i then
    if s.inProgress && !s.handlerRunning then .fault .registrationOutOfTurn else run s
  else if s.inProgress then .fault .requestInProgress
  else run s

/-! ### Port primitives -/

/-- The record of a port primitive issued now, with STATE and PHASE (R28). -/
def record (p : Prim) (s : State) : State := { s with calls := s.calls ++ [⟨s.state, s.phase, p⟩] }

/-- `Now()` of R268 is read after `elapsed` milliseconds more: the reading is `now` of the state after. -/
def tick (elapsed : Word) (s : State) : State :=
  record (.now (s.now + elapsed)) { s with now := s.now + elapsed, draws := s.draws + 1 }

/-- `T0 <- Now()` (R190, R193). -/
def sampleT0 (elapsed : Word) (s : State) : State := { tick elapsed s with t0 := s.now + elapsed }

/-- The `T0` a deadline check reads. On a master it is the register, also for a PUT_PACKET or GET_PACKET that the host issues outside
PUT_COMMAND and GET_RESULT, where `10_state.md` R31 gives `T0` no meaning: what the last of those left, 0 after reset (DEDUCED,
unsafe, log 31). A slave has none (R20), so there it is a free value (log 12). -/
def deadlineBase (s : State) : Word :=
  match s.params.role with
  | .master => s.t0
  | .slave => Config.slaveT0 s.draws

/-- The deadline check of R171 fails at the last reading of the time source: `(Now() - T0) mod 2^32 >= long`. -/
def deadlinePassed (long : Word) (s : State) : Bool := decide (long ≤ s.now - deadlineBase s)

/-! ### BUF and the response buffer -/

/-- `MemRead(a, n)` of `20_memory.md` R61, defined inside `BUF_CAP` only. -/
def bufRead (s : State) (a n : Nat) : Option (List Byte) :=
  if a + n ≤ s.params.bufCap then some (readBytes s.buf a n) else none

/-- `MemWrite(a, len(v), v)` of R61, defined inside `BUF_CAP` only. -/
def bufWrite (s : State) (a : Nat) (v : List Byte) : Option State :=
  if a + v.length ≤ s.params.bufCap then some { s with buf := writeBytes s.buf a v } else none

/-- A handler's stores to `BUF` (`44_slave.md` R222), all inside `BUF_CAP` or none defined (log 25). -/
def bufStores (s : State) (stores : List (Nat × Byte)) : Option State :=
  if stores.all (fun c => decide (c.1 < s.params.bufCap)) then some { s with buf := writeCells s.buf stores } else none

/-- `response[0:n] <- d; response_len <- n` (`43_master.md` R194). -/
def storeResponse (d : List Byte) (n : Word) (s : State) : State :=
  { s with respBuf := writeBytes s.respBuf 0 d, respLen := n }

/-! ### The Callback Table and the deferred slot -/

/-- The entries in use, in the order they were registered (`10_state.md` R33). -/
def entriesInUse (s : State) : List CbEntry := s.cb.take s.cbCount.toNat

/-- The lookup of R216: ascending index, first match. -/
def lookup (id : Word) (s : State) : Option Handler :=
  ((entriesInUse s).find? fun e => decide (e.id = id)).map CbEntry.handler

/-- The outcome of REGISTER_CALLBACK (R225): `Duplicate` before `TableFull` (R226). -/
def registerStatus (id : Word) (s : State) : Status :=
  if (lookup id s).isSome then .duplicate
  else if s.cbCount.toNat = s.params.maxCallbacks then .tableFull
  else .ok

/-- The table after REGISTER_CALLBACK (R225): one entry at the lowest free index on success, unchanged on failure. -/
def registerEntry (id : Word) (h : Handler) (s : State) : State :=
  match registerStatus id s with
  | .ok => { s with cb := s.cb.set s.cbCount.toNat ⟨id, h⟩, cbCount := s.cbCount + 1 }
  | _ => s

/-- REGISTER_CALLBACK whole (R225), wherever it is accepted. -/
def registerCallback (id : Word) (h : Handler) (s : State) : State :=
  completeInPlace (registerStatus id s) .nothing (registerEntry id h s)

/-- SCHEDULE_CALLBACK whole (R228), wherever it is accepted. -/
def scheduleCallback (h : Handler) (s : State) : State :=
  completeInPlace .ok .nothing { s with defHandler := h, defValid := true }

/-- `DEF_VALID <- 0` (R231, R233). -/
def clearDeferred (s : State) : State := { s with defValid := false }

end Sys2Proof.Machine
end

