-- ==== Sys2Proof/Machine/Sequencer.lean ====
section
/-! DEFINITION. The engine sequencer (`10_state.md` R24 to R28): the attempt loop of `42_timeout_retry.md`, the sequence of the
exchanges of `43_master.md` and `44_slave.md`, and the points where an operation waits for another agent. Between two port
primitives its work is one indivisible step (R28); where the answer of another agent is not at hand, the operation stops there
(log 10). -/

namespace Sys2Proof.Machine

/-- Which port primitive the engine is at (R28): `Now`, `TWrite`, `TRead`, `Invoke`. -/
inductive Wait where
  | nobody
  | clock
  | write
  /-- A `TRead` of this many bytes. -/
  | read (n : Nat)
  | handler
deriving DecidableEq, Repr, Inhabited

/-- What the operation in progress waits for. -/
def State.waiting (s : State) : Wait :=
  match s.exch with
  | .put _ => .write
  | .get _ n _ _ => .read (frameLength n)
  | .putCheck _ => .clock
  | .getCheck _ _ _ _ => .clock
  | .idle =>
    match s.job with
    | .commandStart _ _ _ _ => .clock
    | .resultStart _ _ => .clock
    | .handler _ => .handler
    | .deferred _ => .handler
    | _ => .nobody

/-! ### The attempt loop -/

/-- The exchange in progress ends with failure `f` (R256, R258): the operation ends with it. A LOOP that was replying clears the
deferred slot (R231, R233); one that had no command leaves it (R231). -/
def exchangeFailed (f : Status) (s : State) : State :=
  match s.job with
  | .replyHeader _ true => finish f .nothing (clearDeferred s)
  | .replyData true => finish f .nothing (clearDeferred s)
  | _ => finish f .nothing s

/-- The failure an exchange out of attempts ends with: `Timeout` of R172, `last` of R174. -/
def exhausted (s : State) : Status :=
  match s.exch with
  | .get _ _ _ last => last
  | _ => .timeout

/-- The long deadline of the exchange in progress (R170, R181). -/
def exchangeLong (s : State) : Option Word :=
  match s.exch with
  | .idle => none
  | .put long => long
  | .get _ _ long _ => long
  | .putCheck long => some long
  | .getCheck _ _ long _ => some long

/-- The transport operation of an attempt, handed the short timeout (R172, R174, `20_memory.md` R70). -/
def attemptPrim (s : State) : Prim :=
  match s.exch with
  | .get _ n _ _ => .tread (frameLength n) s.params.shortTimeoutMs
  | _ => .twrite s.frame s.params.shortTimeoutMs

/-- One attempt is spent and its transport operation issued (R172, R174). -/
def issue (s : State) : State := record (attemptPrim s) { s with retryCnt := s.retryCnt - 1 }

/-- The head of the loop of R172 and R174: out of attempts, the exchange fails; with a deadline, the time is asked for; else the
attempt is made. -/
def attempt (s : State) : State :=
  if s.retryCnt = 0 then exchangeFailed (exhausted s) s
  else
    match s.exch with
    | .put (some long) => { s with exch := .putCheck long }
    | .get kind n (some long) last => { s with exch := .getCheck kind n long last }
    | _ => issue s

/-- The deadline check before an attempt, the time being read (R171): past the deadline the exchange fails with `Timeout`, else the
attempt is made. -/
def deadlineCheck (long : Word) (s : State) : State :=
  if deadlinePassed long s then exchangeFailed .timeout s else issue s

/-- PUT_PACKET up to its first attempt (R172): the frame is built once. -/
def putPacket (kind : Kind) (payload : List Byte) (long : Option Word) (s : State) : State :=
  attempt
    { s with
      frame := encodePacket s.params kind payload
      retryCnt := retryReset s.params.role
      exch := .put long }

/-- GET_PACKET up to its first attempt (R174). -/
def getPacket (kind : Kind) (n : Word) (long : Option Word) (s : State) : State :=
  attempt
    { s with
      frame := []
      retryCnt := retryReset s.params.role
      exch := .get kind n long .timeout }

/-! ### The sequences of exchanges -/

/-- PUT_COMMAND asks for the time (`43_master.md` R190), within CALL when `call` is given. -/
def putCommand (rpcId : Word) (data : List Byte) (timeout : Word) (call : Option CallRest) (s : State) : State :=
  { s with job := .commandStart rpcId data timeout call }

/-- PUT_COMMAND with `T0` sampled, up to the first attempt of its command-header (R190). -/
def sendCommand (rpcId : Word) (data : List Byte) (timeout : Word) (call : Option CallRest) (s : State) : State :=
  putPacket .ch (chPayload s.params.header rpcId (lengthWord data)) (some timeout)
    { s with phase := .mPutCh, job := .commandHeader data call }

/-- GET_RESULT asks for the time (R193). -/
def getResult (cap timeout : Word) (s : State) : State :=
  { s with job := .resultStart cap timeout, exch := .idle, frame := [] }

/-- GET_RESULT with `T0` sampled, up to the first attempt of its result-header (R193). -/
def awaitResult (cap timeout : Word) (s : State) : State :=
  getPacket .rh (rhPayloadLen s.params) (some timeout) { s with phase := .mGetRh, job := .resultHeader cap }

/-- GET_COMMAND up to its first attempt (`44_slave.md` R212), within LOOP when `inLoop`. -/
def getCommand (inLoop : Bool) (s : State) : State :=
  getPacket .ch (chPayloadLen s.params) none { s with phase := .sGetCh, job := .recvHeader inLoop }

/-- PUT_RESULT up to its first attempt (R219), within LOOP when `inLoop`. -/
def putResult (data : List Byte) (inLoop : Bool) (s : State) : State :=
  putPacket .rh (rhPayload s.params.header (lengthWord data)) none { s with phase := .sPutRh, job := .replyHeader data inLoop }

/-- `Invoke(h, event, n)` is issued (R222): the engine is blocked until the handler returns. -/
def invoke (h : Handler) (event n : Word) (s : State) : State := record (.invoke h event n) s

/-- LOOP after the reply was sent (R231, R233): the slot is sampled and cleared, and a sampled handler invoked. -/
def afterReply (s : State) : State :=
  if s.defValid then
    invoke s.defHandler evDeferred 0
      { clearDeferred s with phase := .sDeferred, job := .deferred s.defHandler, exch := .idle, frame := [] }
  else finish .ok .nothing (clearDeferred s)

/-- LOOP in S_FIND (R231): the handler found is invoked; with none found the command is dropped and nothing is sent. -/
def dispatchFound (found : Option Handler) (s : State) : State :=
  match found with
  | none => finish .notFound .nothing (clearDeferred s)
  | some h => invoke h evCommand s.bufLen { s with phase := .sHandler, job := .handler h, exch := .idle, frame := [] }

/-- LOOP after a command was received (R231): Dispatching, and the lookup in S_FIND. -/
def dispatch (rpcId : Word) (s : State) : State :=
  dispatchFound (lookup rpcId s) { s with state := .dispatching, phase := .sFind }

/-- The `TWrite` of the exchange in progress was accepted: the next exchange, or the end of the operation. -/
def putSucceeded (s : State) : State :=
  match s.job with
  | .putPacket => finish .ok .nothing s
  | .commandHeader data call =>
    putPacket .cd data (exchangeLong s) { s with phase := .mPutCd, job := .commandData call }
  | .commandData none => finish .ok .nothing s
  | .commandData (some c) => getResult c.cap c.recvTimeout { s with state := .awaitingResult }
  | .replyHeader data inLoop => putPacket .rd data none { s with phase := .sPutRd, job := .replyData inLoop }
  | .replyData false => finish .ok .nothing s
  | .replyData true => afterReply s
  | .idle => s
  | .getPacket => s
  | .commandStart _ _ _ _ => s
  | .resultStart _ _ => s
  | .resultHeader _ => s
  | .resultData => s
  | .recvHeader _ => s
  | .recvData _ _ => s
  | .handler _ => s
  | .deferred _ => s

/-- The command `rpcId` with these request bytes has been received and validated (R212, R213): it is stored, and LOOP goes
on to dispatch it. -/
def commandReceived (rpcId : Word) (inLoop : Bool) (d : List Byte) (s : State) : Out :=
  match bufWrite s 0 d with
  | none => .fault .bufOutOfRange
  | some s1 =>
    let s2 := { s1 with bufLen := lengthWord d, curRpcId := rpcId }
    .next (if inLoop then dispatch rpcId s2 else finish .ok (.rpcId rpcId) s2)

/-- The frame of the exchange in progress validated with this payload: the next exchange, or the end of the operation. -/
def getSucceeded (payload : List Byte) (s : State) : Out :=
  match s.job with
  | .getPacket => .next (finish .ok (.bytes payload) s)
  | .resultHeader cap =>
    .next
      (if cap < u32le payload s.params.header.rhLenAt then finish .lenOverflow .nothing s
       else getPacket .rd (u32le payload s.params.header.rhLenAt) (exchangeLong s) { s with phase := .mGetRd, job := .resultData })
  | .resultData =>
    .next (finish .ok (.data payload (lengthWord payload)) (storeResponse payload (lengthWord payload) s))
  | .recvHeader inLoop =>
    .next
      (if s.params.bufCap < (u32le payload s.params.header.chLenAt).toNat then finish .lenOverflow .nothing s
       else getPacket .cd (u32le payload s.params.header.chLenAt) none
         { s with phase := .sGetCd, job := .recvData (u32le payload s.params.header.chIdAt) inLoop })
  | .recvData rpcId inLoop => commandReceived rpcId inLoop payload s
  | .idle => .next s
  | .putPacket => .next s
  | .commandStart _ _ _ _ => .next s
  | .resultStart _ _ => .next s
  | .commandHeader _ _ => .next s
  | .commandData _ => .next s
  | .handler _ => .next s
  | .replyHeader _ _ => .next s
  | .replyData _ => .next s
  | .deferred _ => .next s

/-! ### The answers of the other agents -/

/-- The time source answers the `Now()` in progress, `elapsed` milliseconds after its last reading (R268): `T0` is sampled (R190,
R193), or the deadline checked (R171). -/
def onClock (elapsed : Word) (s : State) : State :=
  match s.exch with
  | .putCheck long => deadlineCheck long { tick elapsed s with exch := .put (some long) }
  | .getCheck kind n long last => deadlineCheck long { tick elapsed s with exch := .get kind n (some long) last }
  | .put _ => s
  | .get _ _ _ _ => s
  | .idle =>
    match s.job with
    | .commandStart rpcId data timeout call => sendCommand rpcId data timeout call (sampleT0 elapsed s)
    | .resultStart cap timeout => awaitResult cap timeout (sampleT0 elapsed s)
    | _ => s

/-- The bytes of FRAME a `TWrite` with this answer put on the link (`20_memory.md` R67, R69). -/
def sentBytes (a : WriteAnswer) (frame : List Byte) : List Byte := if a.ok then frame else frame.take a.sent

/-- The transport answers the `TWrite` in progress: on `false` the loop of R172 goes round. -/
def onWrite (a : WriteAnswer) (s : State) : State :=
  let s1 := { s with tx := s.tx ++ sentBytes a s.frame }
  if a.ok then putSucceeded s1 else attempt s1

/-- A failure of the attempt in progress of a GET_PACKET is remembered (R174, R176). -/
def setLast (f : Status) (s : State) : State :=
  match s.exch with
  | .get kind n long _ => { s with exch := .get kind n long f }
  | _ => s

/-- The `TRead` in progress answers `true` with these bytes: `DECODE` validates them (R174). FRAME holds them meanwhile (R36). -/
def onFrame (kind : Kind) (frame : List Byte) (s : State) : Out :=
  match decodePacket s.params kind frame with
  | .ok payload => getSucceeded payload { s with frame := frame }
  | .error f => .next (attempt (setLast f s))

/-- Bytes arrive at the receive stream. A `TRead` in progress answers `true` when the bytes it asked for are there (R68, R73);
bytes that arrive at any other time stay in the stream (`44_slave.md` R210). -/
def onArrive (bytes : List Byte) (s : State) : Out :=
  match s.exch with
  | .get kind n _ _ =>
    if frameLength n ≤ (s.rx ++ bytes).length then
      onFrame kind ((s.rx ++ bytes).take (frameLength n)) { s with rx := (s.rx ++ bytes).drop (frameLength n) }
    else .next { s with rx := s.rx ++ bytes }
  | _ => .next { s with rx := s.rx ++ bytes }

/-- The `TRead` in progress answers `false`, having consumed some of the bytes that had arrived (R69): the loop of R174 goes
round. -/
def onExpire (eaten : Nat) (s : State) : State :=
  match s.exch with
  | .get _ _ _ _ => attempt (setLast .timeout { s with rx := s.rx.drop eaten })
  | _ => s

/-- Something happens at the receive side of the transport. -/
def onLink (e : LinkEvent) (s : State) : Out :=
  match e with
  | .arrive bytes => onArrive bytes s
  | .expire eaten => .next (onExpire eaten s)
  | .lose count => .next { s with rx := s.rx.drop count }

/-- One request of a running handler, through the host port (R222, R261): a registration completes and control returns to the
handler; any other is refused or faults (R263). -/
def handlerRequest (r : List Byte) (s : State) : Out :=
  match decodeRequest s.params.formats r with
  | .error .unknownOp => .next (refuse s)
  | .error .badKind => .next (refuse s)
  | .error _ => .refused .malformedRequest
  | .ok i =>
    gate i s fun s =>
      match i with
      | .registerCallback id h => .next (registerCallback id h s)
      | .scheduleCallback h => .next (scheduleCallback h s)
      | _ => .fault .requestInProgress

/-- The requests of a handler's run, in order. -/
def handlerRequests : List (List Byte) → State → Out
  | [], s => .next s
  | r :: rest, s =>
    match handlerRequest r s with
    | .next s1 => handlerRequests rest s1
    | .fault f => .fault f
    | .refused x => .refused x

/-- The handler returned `code` (R231, R232, R233). -/
def handlerReturned (code : Word) (s : State) : Out :=
  match s.job with
  | .handler _ =>
    if s.params.bufCap < code.toNat then .next (finish .lenOverflow .nothing (clearDeferred s))
    else
      match bufRead s 0 code.toNat with
      | none => .fault .bufOutOfRange
      | some data => .next (putResult data true { s with bufLen := code })
  | .deferred _ => .next (finish .ok .nothing s)
  | _ => .next s

/-- The invoked handler runs (R222): its requests, its stores to `BUF`, its return. -/
def onHandler (r : HandlerRun) (s : State) : Out :=
  match r with
  | .hangs => .fault .handlerDoesNotReturn
  | .returns requests stores code =>
    match handlerRequests requests s with
    | .fault f => .fault f
    | .refused x => .refused x
    | .next s1 =>
      match bufStores s1 stores with
      | none => .fault .bufOutOfRange
      | some s2 => handlerReturned code s2

/-! ### Running on -/

/-- Go on while the operation in progress waits for an agent whose answer is at hand, at most `fuel` answers. -/
def runFor : Nat → State → Out
  | 0, s => .next s
  | fuel + 1, s =>
    match s.waiting with
    | .nobody => .next s
    | .clock =>
      match s.clock with
      | [] => .next s
      | d :: rest => runFor fuel (onClock d { s with clock := rest })
    | .write =>
      match s.writes with
      | [] => .next s
      | a :: rest => runFor fuel (onWrite a { s with writes := rest })
    | .read _ =>
      match s.link with
      | [] => .next s
      | e :: rest =>
        match onLink e { s with link := rest } with
        | .next s1 => runFor fuel s1
        | .fault f => .fault f
        | .refused x => .refused x
    | .handler =>
      match s.handlers with
      | [] => .next s
      | r :: rest =>
        match onHandler r { s with handlers := rest } with
        | .next s1 => runFor fuel s1
        | .fault f => .fault f
        | .refused x => .refused x

/-- How many answers are at hand: `runFor` takes one a round. -/
def answersAtHand (s : State) : Nat := s.clock.length + s.writes.length + s.link.length + s.handlers.length

/-- Go on until the operation in progress ends or waits for an agent whose answer is not at hand (log 10). -/
def runOn (s : State) : Out := runFor (answersAtHand s) s

/-- Go on after an answer. -/
def runOnFrom (o : Out) : Out :=
  match o with
  | .next s => runOn s
  | .fault f => .fault f
  | .refused x => .refused x

end Sys2Proof.Machine
end

