-- ==== Sys2Proof/Machine/ChecksumUnit.lean ====
section
/-! DEFINITION. The operation of the Checksum unit (`40_checksum.md`). -/

namespace Sys2Proof.Machine

/-- CRC16 (R140): total, `STATUS <- OK`, no other state read or written. -/
def execCrc16 (bytes : List Byte) (s : State) : Out :=
  gate (.crc16 bytes) s fun s => .next (completeInPlace .ok (.code (crc16 s.params.crc bytes)) s)

end Sys2Proof.Machine
end

