-- ==== Sys2Proof/Machine/MasterEngine.lean ====
section
/-! DEFINITION. The operations of the Master Engine (`43_master.md`). The host's in-out length holds `cap` when GET_RESULT or
CALL starts (R113, R194; log 22). -/

namespace Sys2Proof.Machine

/-- PUT_COMMAND (R190). -/
def execPutCommand (rpcId : Word) (data : List Byte) (timeout : Word) (s : State) : Out :=
  gate (.putCommand rpcId data timeout) s fun s => runOn (putCommand rpcId data timeout none s)

/-- GET_RESULT (R193). -/
def execGetResult (cap timeout : Word) (s : State) : Out :=
  gate (.getResult cap timeout) s fun s => runOn (getResult cap timeout { s with respLen := cap })

/-- CALL (R196): PUT_COMMAND, then GET_RESULT in AwaitingResult. -/
def execCall (rpcId : Word) (request : List Byte) (cap sendTimeout recvTimeout : Word) (s : State) : Out :=
  gate (.call rpcId request cap sendTimeout recvTimeout) s fun s =>
    runOn (putCommand rpcId request sendTimeout (some ⟨cap, recvTimeout⟩) { s with respLen := cap })

end Sys2Proof.Machine
end

