-- ==== Sys2Proof/Machine/PacketCodec.lean ====
section
/-! DEFINITION. The operations of the Packet Codec (`41_packet_codec.md`). -/

namespace Sys2Proof.Machine

/-- ENCODE (R150): no failure, no length limit. FRAME, which it writes, has no defined contents after it (R36; log 6). -/
def execEncode (kind : Kind) (payload : List Byte) (s : State) : Out :=
  gate (.encode kind payload) s fun s => .next (completeInPlace .ok (.bytes (encodePacket s.params kind payload)) s)

/-- The completion of DECODE (R152): the payload, or the failure's code in `STATUS`. -/
def decodeCompletion (r : Except Status (List Byte)) (s : State) : State :=
  match r with
  | .ok payload => completeInPlace .ok (.bytes payload) s
  | .error f => completeInPlace f .nothing s

/-- DECODE (R152, R153). -/
def execDecode (frame : List Byte) (kind : Kind) (s : State) : Out :=
  gate (.decode frame kind) s fun s => .next (decodeCompletion (decodePacket s.params kind frame) s)

end Sys2Proof.Machine
end

