-- ==== Sys2Proof/Machine/SlaveEngine.lean ====
section
/-! DEFINITION. The operations of the Slave Engine and of the Callback Table (`44_slave.md`). -/

namespace Sys2Proof.Machine

/-- GET_COMMAND (R212). -/
def execGetCommand (s : State) : Out :=
  gate .getCommand s fun s => runOn (getCommand false s)

/-- The completion of FIND_CALLBACK (R216). -/
def findCompletion (found : Option Handler) (s : State) : State :=
  match found with
  | some h => completeInPlace .ok (.handler h) s
  | none => completeInPlace .notFound .nothing s

/-- FIND_CALLBACK (R216). -/
def execFindCallback (rpcId : Word) (s : State) : Out :=
  gate (.findCallback rpcId) s fun s => .next (findCompletion (lookup rpcId s) s)

/-- PUT_RESULT (R219). -/
def execPutResult (data : List Byte) (s : State) : Out :=
  gate (.putResult data) s fun s => runOn (putResult data false s)

/-- REGISTER_CALLBACK (R225, R226). -/
def execRegisterCallback (rpcId : Word) (handler : Handler) (s : State) : Out :=
  gate (.registerCallback rpcId handler) s fun s => .next (registerCallback rpcId handler s)

/-- SCHEDULE_CALLBACK (R228). -/
def execScheduleCallback (handler : Handler) (s : State) : Out :=
  gate (.scheduleCallback handler) s fun s => .next (scheduleCallback handler s)

/-- LOOP (R231). -/
def execLoop (s : State) : Out :=
  gate .loop s fun s => runOn (getCommand true s)

end Sys2Proof.Machine
end

