-- ==== Sys2Proof/Machine/TimeoutPolicy.lean ====
section
/-! DEFINITION. The operations of the Timeout Policy (`42_timeout_retry.md`), issued by the host. They leave `PHASE` at rest
(log 17). -/

namespace Sys2Proof.Machine

/-- PUT_PACKET (R172). -/
def execPutPacket (kind : Kind) (payload : List Byte) (long : Option Word) (s : State) : Out :=
  gate (.putPacket kind payload long) s fun s => runOn (putPacket kind payload long { s with job := .putPacket })

/-- GET_PACKET (R174); `n > 2^32 - 5` is refused by the gate (R178, R262). -/
def execGetPacket (kind : Kind) (n : Word) (long : Option Word) (s : State) : Out :=
  gate (.getPacket kind n long) s fun s => runOn (getPacket kind n long { s with job := .getPacket })

end Sys2Proof.Machine
end

