-- ==== Sys2Proof/Machine/Wire.lean ====
section
/-! DEFINITION. The packet kinds (`30_encoding.md` R101, R103 to R106) as instructions: a frame arrives at the receive stream
(log 16). When a `TRead` is in progress and the stream then holds the bytes it asked for, the frame is validated against the
kind expected next and accepted or rejected (R111, `41_packet_codec.md` R152); at any other time its bytes stay in the stream
(`44_slave.md` R210). -/

namespace Sys2Proof.Machine

/-- These bytes arrive, and the operation in progress goes on with them. -/
def deliver (bytes : List Byte) (s : State) : Out := runOnFrom (onArrive bytes s)

/-- A command-header frame (R103) arrives. -/
def execCh (rpcId dataLen : Word) (checksum : Half) (s : State) : Out :=
  deliver (frameBytes s.params.markers .ch (chPayload s.params.header rpcId dataLen) checksum) s

/-- A command-data frame (R104) arrives. -/
def execCd (data : List Byte) (checksum : Half) (s : State) : Out :=
  deliver (frameBytes s.params.markers .cd data checksum) s

/-- A result-header frame (R105) arrives. -/
def execRh (dataLen : Word) (checksum : Half) (s : State) : Out :=
  deliver (frameBytes s.params.markers .rh (rhPayload s.params.header dataLen) checksum) s

/-- A result-data frame (R106) arrives. -/
def execRd (data : List Byte) (checksum : Half) (s : State) : Out :=
  deliver (frameBytes s.params.markers .rd data checksum) s

end Sys2Proof.Machine
end

