-- ==== Sys2Proof/Machine/Dispatch.lean ====
section
/-! DEFINITION. The meaning of each instruction, one arm per row of the operation table. -/

namespace Sys2Proof.Machine

def exec (i : Instr) (s : State) : Host.Outcome State Fault Refusal :=
  match i with
  | .crc16 bytes => Sys2Proof.Machine.execCrc16 bytes s
  | .encode kind payload => Sys2Proof.Machine.execEncode kind payload s
  | .decode frame kind => Sys2Proof.Machine.execDecode frame kind s
  | .putPacket kind payload long => Sys2Proof.Machine.execPutPacket kind payload long s
  | .getPacket kind n long => Sys2Proof.Machine.execGetPacket kind n long s
  | .putCommand rpcId data timeout => Sys2Proof.Machine.execPutCommand rpcId data timeout s
  | .getResult cap timeout => Sys2Proof.Machine.execGetResult cap timeout s
  | .call rpcId request cap sendTimeout recvTimeout => Sys2Proof.Machine.execCall rpcId request cap sendTimeout recvTimeout s
  | .getCommand => Sys2Proof.Machine.execGetCommand s
  | .findCallback rpcId => Sys2Proof.Machine.execFindCallback rpcId s
  | .putResult data => Sys2Proof.Machine.execPutResult data s
  | .registerCallback rpcId handler => Sys2Proof.Machine.execRegisterCallback rpcId handler s
  | .scheduleCallback handler => Sys2Proof.Machine.execScheduleCallback handler s
  | .loop => Sys2Proof.Machine.execLoop s
  | .ch rpcId dataLen checksum => Sys2Proof.Machine.execCh rpcId dataLen checksum s
  | .cd data checksum => Sys2Proof.Machine.execCd data checksum s
  | .rh dataLen checksum => Sys2Proof.Machine.execRh dataLen checksum s
  | .rd data checksum => Sys2Proof.Machine.execRd data checksum s

end Sys2Proof.Machine
end

