-- ==== Sys2Proof/Machine/Fetch.lean ====
section
/-! DEFINITION. Where the next instruction comes from (log 26). At rest, the host port: the oldest request the host has issued;
with none, the receive side of the transport. With an operation in progress, the port primitive it is blocked on: the other
agent's answer, listed or a free value. Bytes of the link that are a frame are a packet-kind instruction. -/

namespace Sys2Proof.Machine

/-- What a step does next. -/
inductive Fetched where
  /-- Run this instruction in this state. -/
  | run (i : Instr) (s : State)
  /-- No instruction is run: what another agent did has this outcome. -/
  | done (o : Out)
deriving Repr

/-- A request taken from the host port: an instruction, a refusal of R114, or bytes that are no request (log 14). -/
def fetchRequest (r : List Byte) (s : State) : Fetched :=
  match decodeRequest s.params.formats r with
  | .ok i => .run i s
  | .error .unknownOp => .done (.next (refuse s))
  | .error .badKind => .done (.next (refuse s))
  | .error _ => .done (.refused .malformedRequest)

/-- Something taken from the receive side of the transport: an arriving frame is an instruction (R17). -/
def fetchLink (e : LinkEvent) (s : State) : Fetched :=
  match e with
  | .arrive bytes =>
    match decodeWire s.params.formats bytes with
    | .ok i => .run i s
    | .error _ => .done (runOnFrom (onLink (.arrive bytes) s))
  | .expire eaten => .done (runOnFrom (onLink (.expire eaten) s))
  | .lose count => .done (runOnFrom (onLink (.lose count) s))

/-- At rest: the oldest request, else what comes at the receive side, else nothing happens (`70_reset_and_hazards.md` R290: "after
reset the instance waits for its first request"). -/
def fetchAtRest (s : State) : Fetched :=
  match s.hostPort with
  | r :: rest => fetchRequest r { s with hostPort := rest }
  | [] =>
    match s.link with
    | e :: rest => fetchLink e { s with link := rest }
    | [] => .done (.next s)

/-- At a `Now()`: the reading of the time source. -/
def fetchClock (s : State) : Fetched :=
  match s.clock with
  | d :: rest => .done (runOn (onClock d { s with clock := rest }))
  | [] => .done (runOn (onClock (Config.elapsed s.draws) { s with draws := s.draws + 1 }))

/-- Blocked on a `TWrite`: the transport's answer. -/
def fetchWrite (s : State) : Fetched :=
  match s.writes with
  | a :: rest => .done (runOn (onWrite a { s with writes := rest }))
  | [] => .done (runOn (onWrite (Config.writeAnswer s.draws) { s with draws := s.draws + 1 }))

/-- Blocked on a `TRead`: what happens at the receive side. -/
def fetchRead (s : State) : Fetched :=
  match s.link with
  | e :: rest => fetchLink e { s with link := rest }
  | [] => fetchLink (Config.linkEvent s.draws) { s with draws := s.draws + 1 }

/-- The operands of the handler invocation in progress (R222, R224): its reference, the event, `n`. -/
def invocation (s : State) : Handler × Word × Word :=
  match s.job with
  | .handler h => (h, evCommand, s.bufLen)
  | .deferred h => (h, evDeferred, 0)
  | _ => (0, 0, 0)

/-- What the invoked handler does when nothing is listed (R222; log 20). -/
def freeHandlerRun (s : State) : HandlerRun :=
  Config.handlerRun s.draws (invocation s).1 (invocation s).2.1 s.buf (invocation s).2.2 s.curRpcId

/-- Blocked on an invoked handler: its run. -/
def fetchHandler (s : State) : Fetched :=
  match s.handlers with
  | r :: rest => .done (runOnFrom (onHandler r { s with handlers := rest }))
  | [] => .done (runOnFrom (onHandler (freeHandlerRun s) { s with draws := s.draws + 1 }))

/-- What the next step does. -/
def fetch (s : State) : Fetched :=
  match s.waiting with
  | .nobody => fetchAtRest s
  | .clock => fetchClock s
  | .write => fetchWrite s
  | .read _ => fetchRead s
  | .handler => fetchHandler s

/-- The instance at rest with no operation in progress, all else as it stands. -/
def atRest (s : State) : State :=
  { s with
    job := .idle
    exch := .idle
    phase := restPhase s.params.role
    state := restState s.params.role }

/-- `s` with the table's word as what the next step fetches (log 27): a request as the oldest one at the host port of the
instance at rest, a frame as what comes next at its receive side. -/
def placeTableWord (s : State) (nbits w : Nat) : State :=
  if tableRowIsRequest nbits then
    { atRest s with hostPort := tableBytes s.params.formats nbits w :: s.hostPort }
  else
    { atRest s with hostPort := [], link := .arrive (tableBytes s.params.formats nbits w) :: s.link }

end Sys2Proof.Machine
end

