-- ==== Sys2Proof/Machine/Pair.lean ====
section
/-! DEFINITION. The two-device system (`60_exceptions.md` R270): a master instance, a slave instance and a link, their sequencers
free to interleave at every port primitive. The link is one of the three that `70_reset_and_hazards.md` R292 (c) names. On the ideal
link of `20_memory.md` R73 its queues `M2S` and `S2M` are the receive streams of the two instances (log 29). -/

namespace Sys2Proof.Machine

/-- What joins the two instances (R292 (c)). -/
inductive LinkKind where
  /-- R73: two first-in first-out queues; no byte is lost, duplicated, reordered or altered. -/
  | ideal
  /-- R73: `TWrite` and `TRead` always answer `false` and move nothing. -/
  | stalled
  /-- R71: the transports' own answers, listed or free values; what one end receives is not bound to what the other has sent. -/
  | unconstrained
deriving DecidableEq, Repr, Inhabited

/-- The two instances. `M2S` is `slave.rx`, `S2M` is `master.rx`. -/
structure Pair where
  master : State
  slave : State
deriving DecidableEq, Repr, Inhabited

/-- Whose turn it is, and whether the short timeout of its `TRead` ends. -/
inductive Turn where
  | master
  | slave
  | masterTimesOut
  | slaveTimesOut
deriving DecidableEq, Repr, Inhabited

/-! ### One turn of an instance: the answer to at most one port primitive -/

/-- The answers of the other agents that stand in a state. -/
structure Answers where
  writes : List WriteAnswer := []
  link : List LinkEvent := []
  handlers : List HandlerRun := []
  clock : List Word := []
deriving DecidableEq, Repr, Inhabited

/-- The answers listed in this state. -/
def State.answers (s : State) : Answers := ⟨s.writes, s.link, s.handlers, s.clock⟩

/-- The state with these answers listed and no others. -/
def State.withAnswers (s : State) (a : Answers) : State :=
  { s with writes := a.writes, link := a.link, handlers := a.handlers, clock := a.clock }

/-- A step with `given` at hand and nothing else, so that it goes past no port primitive but the one `given` answers; `kept` is
listed after it. -/
def stepWith (given kept : Answers) (s : State) : Out :=
  match step (s.withAnswers given) with
  | .next t => .next (t.withAnswers kept)
  | .fault f => .fault f
  | .refused r => .refused r

/-- The link's answer to the `TWrite` in progress; on the unconstrained link the one listed, or a free value. -/
def LinkKind.writes (l : LinkKind) (s : State) : List WriteAnswer :=
  match l with
  | .ideal => [⟨true, 0⟩]
  | .stalled => [⟨false, 0⟩]
  | .unconstrained => s.writes.take 1

/-- What happens on the link at the `TRead` of `n` bytes in progress, none where it is waited for. On the ideal link (R73) it answers
`true` when the queue holds the bytes asked for, and `false`, consuming nothing, only when it does not and the short timeout ends. -/
def LinkKind.reads (l : LinkKind) (timesOut : Bool) (n : Nat) (s : State) : Option (List LinkEvent) :=
  match l with
  | .ideal =>
    if n ≤ s.rx.length then (if timesOut then none else some [.arrive []])
    else if timesOut then some [.expire 0] else none
  | .stalled => some [.expire 0]
  | .unconstrained => some (if timesOut then [.expire 0] else s.link.take 1)

/-- What stays listed of the transport's answers when the instance was at a `TWrite`: only the unconstrained link takes one. -/
def LinkKind.writesKept (l : LinkKind) (s : State) : List WriteAnswer :=
  match l with
  | .ideal => s.writes
  | .stalled => s.writes
  | .unconstrained => s.writes.tail

/-- The same at a `TRead`. -/
def LinkKind.linkKept (l : LinkKind) (timesOut : Bool) (s : State) : List LinkEvent :=
  match l with
  | .ideal => s.link
  | .stalled => s.link
  | .unconstrained => if timesOut then s.link else s.link.tail

/-- One turn of an instance on this link: at rest the host's oldest request is started; at a port primitive that one is answered, and
the sequencer goes on to the next (R270). None where the turn cannot be taken. -/
def instanceTurn (l : LinkKind) (timesOut : Bool) (s : State) : Option Out :=
  match s.waiting with
  | .read n =>
    (l.reads timesOut n s).map fun e =>
      stepWith { link := e } { s.answers with link := l.linkKept timesOut s } s
  | .nobody => if timesOut then none else some (stepWith {} s.answers s)
  | .write =>
    if timesOut then none else some (stepWith { writes := l.writes s } { s.answers with writes := l.writesKept s } s)
  | .handler =>
    if timesOut then none
    else some (stepWith { handlers := s.handlers.take 1 } { s.answers with handlers := s.handlers.tail } s)
  | .clock =>
    if timesOut then none else some (stepWith { clock := s.clock.take 1 } { s.answers with clock := s.clock.tail } s)

/-! ### The system -/

/-- The bytes an instance has put on the link since `before`, where the link carries them to the other end. -/
def LinkKind.carried (l : LinkKind) (before after : State) : List Byte :=
  match l with
  | .ideal => after.tx.drop before.tx.length
  | .stalled => []
  | .unconstrained => []

/-- The master has stepped: what it sent enters `M2S`. -/
def masterMoved (l : LinkKind) (p : Pair) (o : Option Out) : Option Pair :=
  match o with
  | some (.next m) => some ⟨m, { p.slave with rx := p.slave.rx ++ l.carried p.master m }⟩
  | _ => none

/-- The slave has stepped: what it sent enters `S2M`. -/
def slaveMoved (l : LinkKind) (p : Pair) (o : Option Out) : Option Pair :=
  match o with
  | some (.next t) => some ⟨{ p.master with rx := p.master.rx ++ l.carried p.slave t }, t⟩
  | _ => none

/-- One step of the system; none where this turn cannot be taken. -/
def pairStep (l : LinkKind) (t : Turn) (p : Pair) : Option Pair :=
  match t with
  | .master => masterMoved l p (instanceTurn l false p.master)
  | .slave => slaveMoved l p (instanceTurn l false p.slave)
  | .masterTimesOut => masterMoved l p (instanceTurn l true p.master)
  | .slaveTimesOut => slaveMoved l p (instanceTurn l true p.slave)

/-- A run of the system under a schedule. -/
def pairRun (l : LinkKind) : List Turn → Pair → Option Pair
  | [], p => some p
  | t :: ts, p => (pairStep l t p).bind (pairRun l ts)

end Sys2Proof.Machine
end

