-- ==== Sys2Proof/Safety.lean ====
section
/-! DEFINITION. What every state a run reaches looks like: the invariants the spec states of the registers, and the agreement of
STATE, PHASE and the exchange with the operation in progress. -/

namespace Sys2Proof.Machine

/-- STATE and PHASE have these values. -/
def sequencerAt (s : State) (st : SeqState) (ph : Phase) : Bool := decide (s.state = st ∧ s.phase = ph)

/-- STATE and PHASE are at rest. -/
def sequencerResting (s : State) : Bool := sequencerAt s (restState s.params.role) (restPhase s.params.role)

/-- A sending exchange is in progress. -/
def sending (s : State) : Bool :=
  match s.exch with
  | .put _ => true
  | .putCheck _ => true
  | .get _ _ _ _ => false
  | .getCheck _ _ _ _ => false
  | .idle => false

/-- The failures a receiving exchange of an engine can report: `Truncated` cannot arise (R174). -/
def engineFailure (f : Status) : Bool := decide (f = .timeout ∨ f = .markerMismatch ∨ f = .checksumMismatch)

/-- A receiving exchange of an engine is in progress, for this kind and a length that satisfies `ok`. -/
def receiving (s : State) (kind : Kind) (ok : Word → Bool) : Bool :=
  match s.exch with
  | .get k n _ last => decide (k = kind) && ok n && engineFailure last
  | .getCheck k n _ last => decide (k = kind) && ok n && engineFailure last
  | .put _ => false
  | .putCheck _ => false
  | .idle => false

/-- A receiving exchange the host issued is in progress. -/
def receivingForHost (s : State) : Bool :=
  match s.exch with
  | .get _ _ _ last => decide (last ≠ .ok)
  | .getCheck _ _ _ last => decide (last ≠ .ok)
  | .put _ => false
  | .putCheck _ => false
  | .idle => false

/-- The operation is at the deadline check before an attempt. -/
def checking (s : State) : Bool :=
  match s.exch with
  | .putCheck _ => true
  | .getCheck _ _ _ _ => true
  | .put _ => false
  | .get _ _ _ _ => false
  | .idle => false

/-- STATE while PUT_RESULT runs: Dispatching inside LOOP (R25). -/
def replyState (inLoop : Bool) : SeqState := if inLoop then .dispatching else .waitingForCommand

/-- STATE, PHASE and the exchange agree with the operation in progress (`10_state.md` R24 to R28). The pairs that the tables of R26
and R27 do not have, of GET_RESULT and PUT_RESULT issued alone and of CALL while it samples its second `T0`, are log 17's (DESIGN
CHOICE). -/
def sequencerLegal (s : State) : Bool :=
  match s.job with
  | .idle => sequencerResting s && decide (s.exch = .idle)
  | .putPacket => sequencerResting s && sending s
  | .getPacket => sequencerResting s && receivingForHost s
  | .commandStart _ _ _ _ =>
    decide (s.params.role = .master) && sequencerAt s .idle .mRest && decide (s.exch = .idle)
  | .commandHeader _ _ => decide (s.params.role = .master) && sequencerAt s .idle .mPutCh && sending s
  | .commandData _ => decide (s.params.role = .master) && sequencerAt s .idle .mPutCd && sending s
  | .resultStart _ _ =>
    decide (s.params.role = .master) && (sequencerAt s .idle .mRest || sequencerAt s .awaitingResult .mPutCd)
      && decide (s.exch = .idle)
  | .resultHeader _ =>
    decide (s.params.role = .master) && (sequencerAt s .idle .mGetRh || sequencerAt s .awaitingResult .mGetRh)
      && receiving s .rh (fun n => decide (n = rhPayloadLen s.params))
  | .resultData =>
    decide (s.params.role = .master) && (sequencerAt s .idle .mGetRd || sequencerAt s .awaitingResult .mGetRd)
      && receiving s .rd (fun _ => true)
  | .recvHeader _ =>
    decide (s.params.role = .slave) && sequencerAt s .waitingForCommand .sGetCh
      && receiving s .ch (fun n => decide (n = chPayloadLen s.params))
  | .recvData _ _ =>
    decide (s.params.role = .slave) && sequencerAt s .waitingForCommand .sGetCd
      && receiving s .cd (fun n => decide (n.toNat ≤ s.params.bufCap))
  | .handler _ =>
    decide (s.params.role = .slave) && sequencerAt s .dispatching .sHandler && decide (s.exch = .idle)
  | .replyHeader _ inLoop =>
    decide (s.params.role = .slave) && sequencerAt s (replyState inLoop) .sPutRh && sending s
  | .replyData inLoop =>
    decide (s.params.role = .slave) && sequencerAt s (replyState inLoop) .sPutRd && sending s
  | .deferred _ =>
    decide (s.params.role = .slave) && sequencerAt s .dispatching .sDeferred && decide (s.exch = .idle)

/-- The invariant of the registers, the table, the memories and the sequencer. -/
structure State.Inv (s : State) : Prop where
  /-- R9, R10. -/
  params : s.params.wf = true
  /-- The canonical form of `BUF`. -/
  bufWf : s.buf.wf = true
  /-- R61: nothing outside `BUF_CAP`. -/
  bufWithin : s.buf.within s.params.bufCap = true
  /-- The canonical form of the response buffer. -/
  respWf : s.respBuf.wf = true
  /-- R32: `0 <= BUF_LEN <= BUF_CAP`. -/
  bufLen : s.bufLen.toNat ≤ s.params.bufCap
  /-- R33: one entry for each index below `MAX_CALLBACKS`. -/
  tableSize : s.cb.length = s.params.maxCallbacks
  /-- R33: `0 <= CB_COUNT <= MAX_CALLBACKS`. -/
  tableCount : s.cbCount.toNat ≤ s.params.maxCallbacks
  /-- R34 (a): "no two entries share a Call Identifier". -/
  tableDistinct : ((entriesInUse s).map CbEntry.id).Nodup
  /-- R33, R35: a handler reference has `HANDLER_W` bits. -/
  handlersFit : Handler.fits s.params.handlerW s.defHandler = true ∧
    ∀ e ∈ s.cb, Handler.fits s.params.handlerW e.handler = true
  /-- R23, R178: `RETRY_CNT` takes the values `RETRY_RESET` down to 0. -/
  retry : s.retryCnt.toNat ≤ (retryReset s.params.role).toNat
  /-- R171, R172, R174: the deadline is checked where an attempt is left. -/
  attemptLeft : checking s = true → s.retryCnt ≠ 0
  /-- R24 to R28, with the pairs of log 17. -/
  sequencer : sequencerLegal s = true

/-- What no step changes or takes back: the parameters (R9), the entries in use (R34 (b), (c)), the bytes sent (R65). -/
structure Extends (s t : State) : Prop where
  params : t.params = s.params
  entries : entriesInUse s <+: entriesInUse t
  sent : s.tx <+: t.tx
  issued : s.calls <+: t.calls

end Sys2Proof.Machine
end

