-- ==== Sys2Proof/Certificates/Slice0/Obligations.lean ====
section
/-! DEFINITION. The statements about the model, for the provers. Each docstring names the rule of the spec it formalises, or says
that it is the model's own and names the log entry. -/

namespace Sys2Proof.Claims

open Sys2Proof Sys2Proof.Machine

/-- An instance of this role with no operation in progress, its header layouts legal (R9). -/
def Ready (r : Role) (s : State) : Prop := s.params.role = r ∧ s.inProgress = false ∧ s.params.header.wf = true

/-- A registration is accepted (R225): the instance is at rest, or a handler is running. -/
def RegistrationAccepted (s : State) : Prop :=
  s.params.role = .slave ∧ (s.inProgress = false ∨ s.phase = .sHandler ∨ s.phase = .sDeferred)

/-- The frame of this kind with this payload and its right checksum (R100, R150). -/
def frameOf (s : State) (kind : Kind) (payload : List Byte) : List Byte := encodePacket s.params kind payload

/-- The command-header for this identifier and length, with its right checksum (R103). A byte of its payload that belongs to no
control value, which the default layout has not, is 00 (log 32, DESIGN CHOICE). -/
def chFrame (s : State) (id n : Word) : List Byte := frameOf s .ch (chPayload s.params.header id n)

/-- The result-header for this length, with its right checksum (R105); bytes of no control value as in `chFrame` (log 32). -/
def rhFrame (s : State) (n : Word) : List Byte := frameOf s .rh (rhPayload s.params.header n)

/-- The right checksum of a frame of this kind with this payload (R102). -/
def checksumOf (s : State) (kind : Kind) (payload : List Byte) : Half :=
  crc16 s.params.crc (packetBody s.params.markers kind payload)

/-- Bit `k` of byte `i` flipped. -/
def flipBit (b : List Byte) (i k : Nat) : List Byte := b.set i (b.getD i 0 ^^^ (1 <<< k))

/-- A port primitive of the transport. -/
def isTransport (c : PortCall) : Bool :=
  match c.prim with
  | .twrite _ _ => true
  | .tread _ _ => true
  | .invoke _ _ _ => false
  | .now _ => false

/-- A `TWrite`. -/
def isWrite (c : PortCall) : Bool :=
  match c.prim with
  | .twrite _ _ => true
  | .tread _ _ => false
  | .invoke _ _ _ => false
  | .now _ => false

/-- A `TRead`. -/
def isRead (c : PortCall) : Bool := isTransport c && !isWrite c

/-- The duration a transport operation was handed is this one; other primitives are handed none. -/
def handedDuration (ms : Word) (c : PortCall) : Bool :=
  match c.prim with
  | .twrite _ t => decide (t = ms)
  | .tread _ t => decide (t = ms)
  | .invoke _ _ _ => true
  | .now _ => true

/-- The transport operations issued so far. -/
def transportCalls (s : State) : List PortCall := s.calls.filter isTransport

/-- One attempt of a GET_PACKET for a payload of `n` bytes that fails with `f` while the stream holds nothing: the `TRead` times
out, or delivers exactly the bytes asked for and they do not validate (R174). -/
def FailedAttempt (p : Params) (kind : Kind) (n : Word) (e : LinkEvent) (f : Status) : Prop :=
  (∃ k, e = .expire k ∧ f = .timeout) ∨
  (∃ b, e = .arrive b ∧ b.length = frameLength n ∧ decodePacket p kind b = .error f)

/-- What `Now()` has come to after these attempts, each with the time that passed before its deadline check. -/
def timeAfter (now : Word) : List (Word × WriteAnswer) → Word
  | [] => now
  | r :: rest => timeAfter (now + r.1) rest

/-- Each of these attempts passed its deadline check (R171). -/
def withinDeadline (t0 ms now : Word) : List (Word × WriteAnswer) → Prop
  | [] => True
  | r :: rest => now + r.1 - t0 < ms ∧ withinDeadline t0 ms (now + r.1) rest

/-- The port primitives of these attempts to send `frame`: the deadline check and the `TWrite` of each. -/
def checkedWrites (s : State) (frame : List Byte) (now : Word) : List (Word × WriteAnswer) → List PortCall
  | [] => []
  | r :: rest =>
    ⟨s.state, s.phase, .now (now + r.1)⟩ :: ⟨s.state, s.phase, .twrite frame s.params.shortTimeoutMs⟩ ::
      checkedWrites s frame (now + r.1) rest

/-- The kind of an arriving frame. -/
def frameKind : Instr → Option Kind
  | .ch _ _ _ => some .ch
  | .cd _ _ => some .cd
  | .rh _ _ => some .rh
  | .rd _ _ => some .rd
  | .crc16 _ => none
  | .encode _ _ => none
  | .decode _ _ => none
  | .putPacket _ _ _ => none
  | .getPacket _ _ _ => none
  | .putCommand _ _ _ => none
  | .getResult _ _ => none
  | .call _ _ _ _ _ => none
  | .getCommand => none
  | .findCallback _ => none
  | .putResult _ => none
  | .registerCallback _ _ => none
  | .scheduleCallback _ => none
  | .loop => none

/-- Registrations issued one after the other, each of which must complete with `ok`. -/
def registerAll : List (Word × Handler) → State → Option State
  | [], s => some s
  | (id, h) :: rest, s =>
    match exec (.registerCallback id h) s with
    | .next t => if t.ok then registerAll rest t else none
    | .fault _ => none
    | .refused _ => none

/-- At most this many transport operations, by `70_reset_and_hazards.md` R312; an exchange has `RETRY_RESET` attempts. -/
def transportBound (r : Role) : Instr → Nat
  | .putPacket _ _ _ => (retryReset r).toNat
  | .getPacket _ _ _ => (retryReset r).toNat
  | .putCommand _ _ _ => 6
  | .getResult _ _ => 6
  | .call _ _ _ _ _ => 12
  | .getCommand => 4
  | .putResult _ => 4
  | .loop => 8
  | .crc16 _ => 0
  | .encode _ _ => 0
  | .decode _ _ => 0
  | .findCallback _ => 0
  | .registerCallback _ _ => 0
  | .scheduleCallback _ => 0
  | .ch _ _ _ => 0
  | .cd _ _ => 0
  | .rh _ _ => 0
  | .rd _ _ => 0

end Sys2Proof.Claims

open Sys2Proof Sys2Proof.Machine Sys2Proof.Claims

/-! ### The Checksum unit -/

/-- R140: CRC16 completes with the code of its operand, `STATUS <- OK`, nothing else changes. -/
def Obligations.Crc16CompletesWithCode : Prop :=
  ∀ (bytes : List Byte) (s : State), s.inProgress = false →
    exec (.crc16 bytes) s = .next { s with status := .ok, result := .code (crc16 s.params.crc bytes) }

/-- R144 and the corner cases of R140: the values of the default algorithm. -/
def Obligations.Crc16ReferenceValues : Prop :=
  crc16 {} [0x31, 0x32, 0x33, 0x34, 0x35, 0x36, 0x37, 0x38, 0x39] = 0x29B1 ∧ crc16 {} [] = 0xFFFF ∧
  crc16 {} [0xFF, 0xFF] = 0x0000 ∧ 0xFFFF ^^^ (BitVec.setWidth 16 (0x31 : Byte) <<< 8) = (0xCEFF : Half) ∧
  (List.range 8).map (fun k => Nat.repeat (crcShift 0x1021) (k + 1) 0xCEFF) =
    [0x8DDF, 0x0B9F, 0x173E, 0x2E7C, 0x5CF8, 0xB9F0, 0x63C1, 0xC782] ∧
  crc16 {} [0x31] = 0xC782 ∧ crc16 {} [0x00] = 0xE1F0 ∧ crc16 {} [0xFF] = 0xFF00 ∧ crc16 {} [0x41] = 0xB915 ∧
  crc16 {} [0x00, 0x00] = 0x1D0F

/-- R142: with the default algorithm, two byte sequences that differ in exactly one bit have different codes; and flipping any
single bit of an accepted frame makes DECODE fail, with ChecksumMismatch in payload or checksum and MarkerMismatch in the marker. -/
def Obligations.SingleBitFlipsAreDetected : Prop :=
  (∀ (b : List Byte) (i k : Nat), i < b.length → k < 8 → crc16 {} (flipBit b i k) ≠ crc16 {} b) ∧
  (∀ (p : Params) (kind : Kind) (frame payload : List Byte) (i k : Nat), p.crc = {} →
    decodePacket p kind frame = .ok payload → i < frame.length → k < 8 →
    decodePacket p kind (flipBit frame i k) = .error (if i < 2 then .markerMismatch else .checksumMismatch))

/-! ### The Packet Codec -/

/-- R150, R151: ENCODE completes with marker, payload, checksum over both. -/
def Obligations.EncodeLaysOutTheFrame : Prop :=
  ∀ (kind : Kind) (payload : List Byte) (s : State), s.inProgress = false →
    ∃ f : List Byte,
      exec (.encode kind payload) s = .next { s with status := .ok, result := .bytes f } ∧
      f.length = payload.length + 4 ∧
      f.take 2 = le16 (magic s.params.markers kind) ∧
      (f.drop 2).take payload.length = payload ∧
      f.drop (2 + payload.length) = le16 (crc16 s.params.crc (f.take (2 + payload.length)))

/-- R152, R153: DECODE tests length, marker, checksum in that order, and answers the bytes between marker and checksum. -/
def Obligations.DecodeReportsTheFirstFailure : Prop :=
  ∀ (frame : List Byte) (kind : Kind) (s : State), s.inProgress = false →
    (frame.length < minLen kind →
      exec (.decode frame kind) s = .next { s with status := .truncated, result := .nothing }) ∧
    (minLen kind ≤ frame.length → frame.take 2 ≠ le16 (magic s.params.markers kind) →
      exec (.decode frame kind) s = .next { s with status := .markerMismatch, result := .nothing }) ∧
    (minLen kind ≤ frame.length → frame.take 2 = le16 (magic s.params.markers kind) →
      frame.drop (frame.length - 2) ≠ le16 (crc16 s.params.crc (frame.take (frame.length - 2))) →
      exec (.decode frame kind) s = .next { s with status := .checksumMismatch, result := .nothing }) ∧
    (minLen kind ≤ frame.length → frame.take 2 = le16 (magic s.params.markers kind) →
      frame.drop (frame.length - 2) = le16 (crc16 s.params.crc (frame.take (frame.length - 2))) →
      exec (.decode frame kind) s =
        .next { s with status := .ok, result := .bytes ((frame.drop 2).take (frame.length - 4)) })

/-- R154: the round-trip law, with the header kinds' minimum length, and the rejection of a frame of another kind. -/
def Obligations.EncodeThenDecodeReturnsThePayload : Prop :=
  ∀ (p : Params) (payload : List Byte),
    (∀ kind : Kind, kind = .cd ∨ kind = .rd → decodePacket p kind (encodePacket p kind payload) = .ok payload) ∧
    (∀ kind : Kind, kind = .ch ∨ kind = .rh → 4 ≤ payload.length →
      decodePacket p kind (encodePacket p kind payload) = .ok payload) ∧
    (∀ kind : Kind, kind = .ch ∨ kind = .rh → payload.length < 4 →
      decodePacket p kind (encodePacket p kind payload) = .error .truncated) ∧
    (∀ kind other : Kind, p.markers.distinct = true → kind ≠ other →
      minLen other ≤ (encodePacket p kind payload).length →
      decodePacket p other (encodePacket p kind payload) = .error .markerMismatch)

/-! ### Encodings -/

/-- The model's request layout (log 13) loses nothing: every well-formed request decodes back from its bytes, whatever stands
behind them. -/
def Obligations.RequestsDecodeBack : Prop :=
  ∀ (f : Formats) (i : Instr) (rest : List Byte), i.isRequest = true → i.wellFormed f = true →
    decodeRequest f (encode f i ++ rest) = .ok i

/-- R103 to R107: every frame decodes back from its bytes, with any legal markers and header layouts. That the bytes of no control
value, which the default layouts have not, are 00 in those bytes is the model's choice (log 32, DESIGN CHOICE). -/
def Obligations.FramesDecodeBack : Prop :=
  ∀ (f : Formats) (i : Instr), f.markers.distinct = true → f.header.wf = true → i.isRequest = false →
    decodeWire f (encode f i) = .ok i

/-- R103 to R107, the other direction: bytes that are a frame are the bytes of that frame, so no bit of them is dropped. With
the default layouts this is the spec's. With a header layout that has bytes of no control value it rests on the model's choice that
such bytes are 00 and that a header with others there is no packet-kind instruction (log 32, DESIGN CHOICE). -/
def Obligations.WireBytesAreTheFramesBytes : Prop :=
  ∀ (f : Formats) (b : List Byte) (i : Instr), decodeWire f b = .ok i → i.isRequest = false ∧ encode f i = b

/-- R101, R103 to R106, R113: three requests and one frame of each packet kind, written out, decode to what they stand for. The OP
numbers and the frames are the spec's; how a request's operands are laid out behind its OP is the model's own (log 13, DESIGN
CHOICE). -/
def Obligations.WrittenOutWordsDecode : Prop :=
  decodeRequest {} [0x12, 0x01, 0, 0, 0, 2, 0, 0, 0, 0xDE, 0xAD, 16, 0, 0, 0, 0xE8, 0x03, 0, 0, 0xE8, 0x03, 0, 0] =
    .ok (.call 1 [0xDE, 0xAD] 16 1000 1000) ∧
  decodeRequest {} [0x25] = .ok .loop ∧
  decodeRequest {} [0x23, 0x78, 0x56, 0x34, 0x12, 7, 0, 0, 0] = .ok (.registerCallback 0x12345678 7) ∧
  decodeWire {} [0x09, 0x12, 1, 0, 0, 0, 2, 0, 0, 0, 0x15, 0xFB] = .ok (.ch 1 2 0xFB15) ∧
  decodeWire {} [0xD1, 0xAB, 0xDE, 0xAD, 0x75, 0x45] = .ok (.cd [0xDE, 0xAD] 0x4575) ∧
  decodeWire {} [0x21, 0x90, 2, 0, 0, 0, 0x5A, 0xB5] = .ok (.rh 2 0xB55A) ∧
  decodeWire {} [0xBA, 0x1D, 0xAD, 0xDE, 0x19, 0x5D] = .ok (.rd [0xAD, 0xDE] 0x5D19)

/-! ### A step runs what it fetches -/

/-- R112, the model's fetch (log 26): with no port primitive pending, a step runs the oldest request of the host port. -/
def Obligations.StepRunsTheHostsRequest : Prop :=
  ∀ (s : State) (r : List Byte) (more : List (List Byte)) (i : Instr), s.waiting = .nobody →
    s.hostPort = r :: more → decodeRequest s.params.formats r = .ok i → step s = exec i { s with hostPort := more }

/-- R17, the model's fetch (log 16, log 26): blocked on a `TRead`, or at rest with no request, a step runs the frame that arrives. -/
def Obligations.StepRunsTheArrivingFrame : Prop :=
  ∀ (s : State) (b : List Byte) (more : List LinkEvent) (i : Instr),
    ((∃ n, s.waiting = .read n) ∨ (s.waiting = .nobody ∧ s.hostPort = [])) →
    s.link = .arrive b :: more → decodeWire s.params.formats b = .ok i → step s = exec i { s with link := more }

/-! ### Refusals and requests with no meaning -/

/-- R114, R257, R262: a request of the other role, or GET_PACKET with `n > 2^32 - 5`, changes nothing but `STATUS <- BadOp`; so does,
at the host port, an unknown OP or a `kind` outside `0 .. 3`. The model's own: that the test comes first also while an operation is in
progress (log 23, DEDUCED from R257), where a `kind` stands in a request (log 13, DESIGN CHOICE), and that a step takes the oldest
request (log 26, DEDUCED). -/
def Obligations.IllegalRequestsAreRefused : Prop :=
  (∀ s : State, s.params.role = .slave →
    (∀ id data t, exec (.putCommand id data t) s = .next { s with status := .badOp, result := .nothing }) ∧
    (∀ cap t, exec (.getResult cap t) s = .next { s with status := .badOp, result := .nothing }) ∧
    (∀ id req cap ts tr, exec (.call id req cap ts tr) s = .next { s with status := .badOp, result := .nothing })) ∧
  (∀ s : State, s.params.role = .master →
    exec .getCommand s = .next { s with status := .badOp, result := .nothing } ∧
    (∀ id, exec (.findCallback id) s = .next { s with status := .badOp, result := .nothing }) ∧
    (∀ data, exec (.putResult data) s = .next { s with status := .badOp, result := .nothing }) ∧
    (∀ id h, exec (.registerCallback id h) s = .next { s with status := .badOp, result := .nothing }) ∧
    (∀ h, exec (.scheduleCallback h) s = .next { s with status := .badOp, result := .nothing }) ∧
    exec .loop s = .next { s with status := .badOp, result := .nothing }) ∧
  (∀ (s : State) (kind : Kind) (n : Word) (long : Option Word), 2 ^ 32 - 5 < n.toNat →
    exec (.getPacket kind n long) s = .next { s with status := .badOp, result := .nothing }) ∧
  (∀ (s : State) (op : Byte) (operands : List Byte) (more : List (List Byte)), s.waiting = .nobody →
    s.hostPort = (op :: operands) :: more →
    op.toNat ∉ [0x01, 0x02, 0x03, 0x04, 0x05, 0x10, 0x11, 0x12, 0x20, 0x21, 0x22, 0x23, 0x24, 0x25] →
    step s = .next { s with hostPort := more, status := .badOp, result := .nothing }) ∧
  (∀ (s : State) (op kind : Byte) (operands : List Byte) (more : List (List Byte)), s.waiting = .nobody →
    s.hostPort = (op :: kind :: operands) :: more → op = 0x02 ∨ op = 0x04 ∨ op = 0x05 → 3 < kind.toNat →
    step s = .next { s with hostPort := more, status := .badOp, result := .nothing }) ∧
  (∀ (s : State) (frame : List Byte) (kind : Byte) (rest : List Byte) (more : List (List Byte)), s.waiting = .nobody →
    fitsLength frame = true → s.hostPort = (0x03 :: (seqBytes frame ++ kind :: rest)) :: more → 3 < kind.toNat →
    step s = .next { s with hostPort := more, status := .badOp, result := .nothing })

/-- R263 (a): a request other than a registration while an operation is in progress is a fault, from the host or from a running
handler; (b): so is a registration on a slave that is neither at rest nor running a handler; (c): so is a handler that does not
return. What "in progress" and "out of turn" are is log 24 (DEDUCED), with a host's PUT_PACKET or GET_PACKET, which leaves `PHASE` at
rest, in progress too; that a request the port does not start is not meant is log 23 (DEDUCED from R257). -/
def Obligations.RequestsWithoutMeaningFault : Prop :=
  (∀ (i : Instr) (s : State), i.isRequest = true → isRegistration i = false → isBadOp s.params.role i = false →
    s.inProgress = true → exec i s = .fault .requestInProgress) ∧
  (∀ (i : Instr) (s : State) (r : List Byte) (rs : List (List Byte)) (stores : List (Nat × Byte)) (code : Word)
    (more : List HandlerRun), s.waiting = .handler → s.handlers = .returns (r :: rs) stores code :: more →
    decodeRequest s.params.formats r = .ok i → isRegistration i = false → isBadOp s.params.role i = false →
    step s = .fault .requestInProgress) ∧
  (∀ (i : Instr) (s : State), isRegistration i = true → s.params.role = .slave → s.inProgress = true →
    s.phase ≠ .sHandler → s.phase ≠ .sDeferred → exec i s = .fault .registrationOutOfTurn) ∧
  (∀ (s : State) (more : List HandlerRun), s.waiting = .handler → s.handlers = .hangs :: more →
    step s = .fault .handlerDoesNotReturn)

/-! ### The Timeout Policy -/

/-- R172, R173 (with no long deadline), R177: PUT_PACKET offers the same frame at every attempt and spends one attempt for each; it
ends with the first that the transport accepts, or fails with Timeout when `RETRY_RESET` in a row are refused, and issues no more.
A refused write may have put any prefix on the link (R69). -/
def Obligations.PutPacketRetriesUntilAccepted : Prop :=
  ∀ (kind : Kind) (payload : List Byte) (s : State) (refused rest : List WriteAnswer),
    s.inProgress = false → (∀ r ∈ refused, r.ok = false) →
    (∀ a : WriteAnswer, refused.length < (retryReset s.params.role).toNat → a.ok = true → s.writes = refused ++ a :: rest →
      exec (.putPacket kind payload none) s =
        .next { s with
          writes := rest
          retryCnt := retryReset s.params.role - BitVec.ofNat 8 (refused.length + 1)
          tx := s.tx ++ refused.flatMap (fun r => (frameOf s kind payload).take r.sent) ++ frameOf s kind payload
          frame := []
          status := .ok
          result := .nothing
          calls := s.calls ++ List.replicate (refused.length + 1)
            ⟨s.state, s.phase, .twrite (frameOf s kind payload) s.params.shortTimeoutMs⟩ }) ∧
    (refused.length = (retryReset s.params.role).toNat → s.writes = refused ++ rest →
      exec (.putPacket kind payload none) s =
        .next { s with
          writes := rest
          retryCnt := 0
          tx := s.tx ++ refused.flatMap (fun r => (frameOf s kind payload).take r.sent)
          frame := []
          status := .timeout
          result := .nothing
          calls := s.calls ++ List.replicate refused.length
            ⟨s.state, s.phase, .twrite (frameOf s kind payload) s.params.shortTimeoutMs⟩ })

/-- R171: "With long = 0 the check fails at once and the exchange makes no attempt and performs no transport operation", for
either exchange and either role; the time source is read once. -/
def Obligations.ZeroDeadlineMakesNoAttempt : Prop :=
  ∀ (kind : Kind) (s : State) (d : Word) (later : List Word), s.inProgress = false → s.clock = d :: later →
    (∀ payload : List Byte, exec (.putPacket kind payload (some 0)) s =
      .next { s with
        now := s.now + d, clock := later, draws := s.draws + 1
        retryCnt := retryReset s.params.role, frame := [], status := .timeout, result := .nothing
        calls := s.calls ++ [⟨s.state, s.phase, .now (s.now + d)⟩] }) ∧
    (∀ n : Word, n.toNat ≤ 2 ^ 32 - 5 → exec (.getPacket kind n (some 0)) s =
      .next { s with
        now := s.now + d, clock := later, draws := s.draws + 1
        retryCnt := retryReset s.params.role, frame := [], status := .timeout, result := .nothing
        calls := s.calls ++ [⟨s.state, s.phase, .now (s.now + d)⟩] })

/-- R171, R172: on a master the check is made before every attempt. After any number of attempts that were within the deadline and
refused, a next check that fails ends PUT_PACKET with Timeout, the first and the third included; one that passes lets the next write
be made, which completes it when accepted; and after three refusals there is no further check. The deadline counts from the `T0` that
stands in the register: for a PUT_PACKET the host issues, what the last PUT_COMMAND or GET_RESULT left there (log 31, DEDUCED). -/
def Obligations.DeadlineIsCheckedBeforeEveryAttempt : Prop :=
  ∀ (kind : Kind) (payload : List Byte) (ms : Word) (s : State) (tried : List (Word × WriteAnswer)), Ready .master s →
    (∀ r ∈ tried, r.2.ok = false) → withinDeadline s.t0 ms s.now tried →
    (∀ (d : Word) (later : List Word) (rest : List WriteAnswer), tried.length < 3 →
      s.clock = tried.map Prod.fst ++ d :: later → s.writes = tried.map Prod.snd ++ rest →
      ms ≤ timeAfter s.now tried + d - s.t0 →
      exec (.putPacket kind payload (some ms)) s =
        .next { s with
          now := timeAfter s.now tried + d, clock := later, draws := s.draws + (tried.length + 1), writes := rest
          retryCnt := 3 - BitVec.ofNat 8 tried.length, frame := [], status := .timeout, result := .nothing
          tx := s.tx ++ tried.flatMap (fun r => (frameOf s kind payload).take r.2.sent)
          calls := s.calls ++ checkedWrites s (frameOf s kind payload) s.now tried ++
            [⟨s.state, s.phase, .now (timeAfter s.now tried + d)⟩] }) ∧
    (∀ (d : Word) (later : List Word) (a : WriteAnswer) (rest : List WriteAnswer), tried.length < 3 →
      s.clock = tried.map Prod.fst ++ d :: later → s.writes = tried.map Prod.snd ++ a :: rest → a.ok = true →
      timeAfter s.now tried + d - s.t0 < ms →
      exec (.putPacket kind payload (some ms)) s =
        .next { s with
          now := timeAfter s.now tried + d, clock := later, draws := s.draws + (tried.length + 1), writes := rest
          retryCnt := 2 - BitVec.ofNat 8 tried.length, frame := [], status := .ok, result := .nothing
          tx := s.tx ++ tried.flatMap (fun r => (frameOf s kind payload).take r.2.sent) ++ frameOf s kind payload
          calls := s.calls ++ checkedWrites s (frameOf s kind payload) s.now (tried ++ [(d, a)]) }) ∧
    (∀ (later : List Word) (rest : List WriteAnswer), tried.length = 3 →
      s.clock = tried.map Prod.fst ++ later → s.writes = tried.map Prod.snd ++ rest →
      exec (.putPacket kind payload (some ms)) s =
        .next { s with
          now := timeAfter s.now tried, clock := later, draws := s.draws + 3, writes := rest
          retryCnt := 0, frame := [], status := .timeout, result := .nothing
          tx := s.tx ++ tried.flatMap (fun r => (frameOf s kind payload).take r.2.sent)
          calls := s.calls ++ checkedWrites s (frameOf s kind payload) s.now tried })

/-- R174: GET_PACKET spends one attempt on each `TRead` of `n + 4` bytes that fails or does not validate, and ends with the payload
of the first frame that validates. -/
def Obligations.GetPacketRetriesUntilValid : Prop :=
  ∀ (kind : Kind) (n : Word) (s : State) (failed : List LinkEvent) (frame payload : List Byte) (rest : List LinkEvent),
    s.inProgress = false → n.toNat ≤ 2 ^ 32 - 5 → s.rx = [] →
    (∀ e ∈ failed, ∃ f, FailedAttempt s.params kind n e f) → failed.length < (retryReset s.params.role).toNat →
    frame.length = frameLength n → decodePacket s.params kind frame = .ok payload →
    s.link = failed ++ .arrive frame :: rest →
    exec (.getPacket kind n none) s =
      .next { s with
        link := rest
        retryCnt := retryReset s.params.role - BitVec.ofNat 8 (failed.length + 1)
        frame := []
        status := .ok
        result := .bytes payload
        calls := s.calls ++ List.replicate (failed.length + 1)
          ⟨s.state, s.phase, .tread (n.toNat + 4) s.params.shortTimeoutMs⟩ }

/-- R176: an exhausted GET_PACKET reports the failure of the last attempt made, and "Timeout whenever the long deadline ends the
loop, whatever happened before", here a first attempt that failed. For a GET_PACKET the host issues the deadline counts from the `T0`
that stands in the register (log 31, DEDUCED). -/
def Obligations.GetPacketReportsTheLastFailure : Prop :=
  (∀ (kind : Kind) (n : Word) (s : State) (failed : List LinkEvent) (last : LinkEvent) (f : Status) (rest : List LinkEvent),
    s.inProgress = false → n.toNat ≤ 2 ^ 32 - 5 → s.rx = [] →
    (∀ e ∈ failed, ∃ g, FailedAttempt s.params kind n e g) → FailedAttempt s.params kind n last f →
    failed.length + 1 = (retryReset s.params.role).toNat → s.link = failed ++ last :: rest →
    exec (.getPacket kind n none) s =
      .next { s with
        link := rest
        retryCnt := 0
        frame := []
        status := f
        result := .nothing
        calls := s.calls ++ List.replicate (failed.length + 1)
          ⟨s.state, s.phase, .tread (n.toNat + 4) s.params.shortTimeoutMs⟩ }) ∧
  (∀ (kind : Kind) (n ms : Word) (s : State) (e : LinkEvent) (f : Status) (rest : List LinkEvent) (d d' : Word)
    (later : List Word), Ready .master s → n.toNat ≤ 2 ^ 32 - 5 → s.rx = [] → FailedAttempt s.params kind n e f →
    s.link = e :: rest → s.clock = d :: d' :: later → s.now + d - s.t0 < ms → ms ≤ s.now + d + d' - s.t0 →
    exec (.getPacket kind n (some ms)) s =
      .next { s with
        link := rest, now := s.now + d + d', clock := later, draws := s.draws + 2, retryCnt := 2, frame := []
        status := .timeout, result := .nothing
        calls := s.calls ++
          [⟨s.state, s.phase, .now (s.now + d)⟩, ⟨s.state, s.phase, .tread (n.toNat + 4) s.params.shortTimeoutMs⟩,
           ⟨s.state, s.phase, .now (s.now + d + d')⟩] })

/-- R64, R174, R175: a `TRead` takes exactly the `n + 4` bytes at the front of the stream, wherever frames begin in it; what stands
behind them stays, and with attempts left a front that does not validate is gone. -/
def Obligations.ReadsTakeTheFrontOfTheStream : Prop :=
  ∀ (kind : Kind) (n : Word) (s : State) (b : List Byte), s.inProgress = false → n.toNat ≤ 2 ^ 32 - 5 →
    n.toNat + 4 ≤ (s.rx ++ b).length → s.link = [.arrive b] →
    (∀ payload, decodePacket s.params kind ((s.rx ++ b).take (n.toNat + 4)) = .ok payload →
      exec (.getPacket kind n none) s =
        .next { s with
          link := [], rx := (s.rx ++ b).drop (n.toNat + 4), retryCnt := retryReset s.params.role - 1, frame := []
          status := .ok, result := .bytes payload
          calls := s.calls ++ [⟨s.state, s.phase, .tread (n.toNat + 4) s.params.shortTimeoutMs⟩] }) ∧
    (∀ f, decodePacket s.params kind ((s.rx ++ b).take (n.toNat + 4)) = .error f →
      exec (.getPacket kind n none) s =
        .next { s with
          link := [], rx := (s.rx ++ b).drop (n.toNat + 4), retryCnt := retryReset s.params.role - 2, frame := []
          job := .getPacket, exch := .get kind n none f
          calls := s.calls ++ List.replicate 2 ⟨s.state, s.phase, .tread (n.toNat + 4) s.params.shortTimeoutMs⟩ })

/-! ### The Master Engine -/

/-- R190: PUT_COMMAND samples `T0`, sends the command-header and then the command-data, both measured from that `T0`. -/
def Obligations.PutCommandSendsHeaderThenData : Prop :=
  ∀ (id : Word) (data : List Byte) (timeout : Word) (s : State) (a a' : WriteAnswer) (rest : List WriteAnswer)
    (d0 d1 d2 : Word) (later : List Word), Ready .master s → fitsLength data = true →
    s.writes = a :: a' :: rest → a.ok = true → a'.ok = true → s.clock = d0 :: d1 :: d2 :: later →
    d1 < timeout → d1 + d2 < timeout →
    exec (.putCommand id data timeout) s =
      .next { s with
        t0 := s.now + d0, now := s.now + d0 + d1 + d2, clock := later, draws := s.draws + 3, writes := rest
        retryCnt := 2, frame := [], status := .ok, result := .nothing
        tx := s.tx ++ chFrame s id (lengthWord data) ++ frameOf s .cd data
        calls := s.calls ++
          [⟨.idle, .mRest, .now (s.now + d0)⟩,
           ⟨.idle, .mPutCh, .now (s.now + d0 + d1)⟩,
           ⟨.idle, .mPutCh, .twrite (chFrame s id (lengthWord data)) s.params.shortTimeoutMs⟩,
           ⟨.idle, .mPutCd, .now (s.now + d0 + d1 + d2)⟩,
           ⟨.idle, .mPutCd, .twrite (frameOf s .cd data) s.params.shortTimeoutMs⟩] }

/-- R190: a failed command-header ends PUT_COMMAND with its failure, and the second packet is not attempted. -/
def Obligations.PutCommandStopsAfterAFailedHeader : Prop :=
  ∀ (id : Word) (data : List Byte) (timeout : Word) (s : State) (a a' a'' : WriteAnswer) (rest : List WriteAnswer)
    (d0 d1 d2 d3 : Word) (later : List Word), Ready .master s → fitsLength data = true →
    s.writes = a :: a' :: a'' :: rest → a.ok = false → a'.ok = false → a''.ok = false →
    s.clock = d0 :: d1 :: d2 :: d3 :: later → d1 < timeout → d1 + d2 < timeout → d1 + d2 + d3 < timeout →
    ∃ t, exec (.putCommand id data timeout) s = .next t ∧ t.status = .timeout ∧ t.retryCnt = 0 ∧ t.inProgress = false ∧
      t.writes = rest ∧ t.rx = s.rx ∧ t.t0 = s.now + d0 ∧
      t.tx = s.tx ++ [a, a', a''].flatMap (fun r => (chFrame s id (lengthWord data)).take r.sent) ∧
      transportCalls t = transportCalls s ++ List.replicate 3
        ⟨.idle, .mPutCh, .twrite (chFrame s id (lengthWord data)) s.params.shortTimeoutMs⟩

/-- R193, R194: GET_RESULT receives the result-header and the result-data of the length it announces, and only then writes the
response buffer and its length. That `STATE` is Idle in M_GET_RH and M_GET_RD when GET_RESULT is issued alone is the model's choice
(log 17, DESIGN CHOICE). -/
def Obligations.GetResultDeliversTheResponse : Prop :=
  ∀ (cap timeout : Word) (data : List Byte) (s : State) (rest : List LinkEvent) (d0 d1 d2 : Word) (later : List Word),
    Ready .master s → data.length ≤ cap.toNat → s.rx = [] →
    s.link = .arrive (rhFrame s (lengthWord data)) :: .arrive (frameOf s .rd data) :: rest →
    s.clock = d0 :: d1 :: d2 :: later → d1 < timeout → d1 + d2 < timeout →
    exec (.getResult cap timeout) s =
      .next { s with
        t0 := s.now + d0, now := s.now + d0 + d1 + d2, clock := later, draws := s.draws + 3, link := rest
        retryCnt := 2, frame := [], status := .ok, result := .data data (lengthWord data)
        respBuf := writeBytes s.respBuf 0 data, respLen := lengthWord data
        calls := s.calls ++
          [⟨.idle, .mRest, .now (s.now + d0)⟩,
           ⟨.idle, .mGetRh, .now (s.now + d0 + d1)⟩,
           ⟨.idle, .mGetRh, .tread (s.params.header.rhLen + 4) s.params.shortTimeoutMs⟩,
           ⟨.idle, .mGetRd, .now (s.now + d0 + d1 + d2)⟩,
           ⟨.idle, .mGetRd, .tread (data.length + 4) s.params.shortTimeoutMs⟩] }

/-- R193, R194, R256: a result-header that announces more than `cap` bytes ends GET_RESULT with LenOverflow after the one read;
the bytes behind the header stay, the response buffer and the capacity passed stay. That `STATE` is Idle in M_GET_RH when GET_RESULT
is issued alone is the model's choice (log 17, DESIGN CHOICE). -/
def Obligations.GetResultRejectsAnOversizeResult : Prop :=
  ∀ (cap timeout n : Word) (after : List Byte) (s : State) (rest : List LinkEvent) (d0 d1 : Word) (later : List Word),
    Ready .master s → cap < n → s.rx = [] → s.link = .arrive (rhFrame s n ++ after) :: rest →
    s.clock = d0 :: d1 :: later → d1 < timeout →
    exec (.getResult cap timeout) s =
      .next { s with
        t0 := s.now + d0, now := s.now + d0 + d1, clock := later, draws := s.draws + 2, link := rest, rx := after
        retryCnt := 2, frame := [], status := .lenOverflow, result := .nothing, respLen := cap
        calls := s.calls ++
          [⟨.idle, .mRest, .now (s.now + d0)⟩,
           ⟨.idle, .mGetRh, .now (s.now + d0 + d1)⟩,
           ⟨.idle, .mGetRh, .tread (s.params.header.rhLen + 4) s.params.shortTimeoutMs⟩] }

/-- R196: CALL is PUT_COMMAND and then, in AwaitingResult, GET_RESULT with a `T0` of its own (R181); it ends at rest with the
response. That the second `T0` is sampled in M_PUT_CD with `STATE` AwaitingResult, a pair the table of R26 does not have, is the
model's choice: PHASE is the one before while `T0` is sampled (log 17, DESIGN CHOICE). -/
def Obligations.CallReturnsTheResponse : Prop :=
  ∀ (id cap ts tr : Word) (req resp : List Byte) (s : State) (a a' : WriteAnswer) (rest : List WriteAnswer)
    (more : List LinkEvent) (d0 d1 d2 d3 d4 d5 : Word) (later : List Word), Ready .master s →
    fitsLength req = true → resp.length ≤ cap.toNat → s.rx = [] →
    s.writes = a :: a' :: rest → a.ok = true → a'.ok = true →
    s.link = .arrive (rhFrame s (lengthWord resp)) :: .arrive (frameOf s .rd resp) :: more →
    s.clock = d0 :: d1 :: d2 :: d3 :: d4 :: d5 :: later →
    d1 < ts → d1 + d2 < ts → d4 < tr → d4 + d5 < tr →
    exec (.call id req cap ts tr) s =
      .next { s with
        t0 := s.now + d0 + d1 + d2 + d3, now := s.now + d0 + d1 + d2 + d3 + d4 + d5, clock := later
        draws := s.draws + 6, writes := rest, link := more
        retryCnt := 2, frame := [], status := .ok, result := .data resp (lengthWord resp)
        respBuf := writeBytes s.respBuf 0 resp, respLen := lengthWord resp
        tx := s.tx ++ chFrame s id (lengthWord req) ++ frameOf s .cd req
        calls := s.calls ++
          [⟨.idle, .mRest, .now (s.now + d0)⟩,
           ⟨.idle, .mPutCh, .now (s.now + d0 + d1)⟩,
           ⟨.idle, .mPutCh, .twrite (chFrame s id (lengthWord req)) s.params.shortTimeoutMs⟩,
           ⟨.idle, .mPutCd, .now (s.now + d0 + d1 + d2)⟩,
           ⟨.idle, .mPutCd, .twrite (frameOf s .cd req) s.params.shortTimeoutMs⟩,
           ⟨.awaitingResult, .mPutCd, .now (s.now + d0 + d1 + d2 + d3)⟩,
           ⟨.awaitingResult, .mGetRh, .now (s.now + d0 + d1 + d2 + d3 + d4)⟩,
           ⟨.awaitingResult, .mGetRh, .tread (s.params.header.rhLen + 4) s.params.shortTimeoutMs⟩,
           ⟨.awaitingResult, .mGetRd, .now (s.now + d0 + d1 + d2 + d3 + d4 + d5)⟩,
           ⟨.awaitingResult, .mGetRd, .tread (resp.length + 4) s.params.shortTimeoutMs⟩] }

/-- R200 (b): with `send_timeout = 0` CALL fails with Timeout on any transport, makes no transport operation, and leaves
`RETRY_CNT` at 3; the response buffer is untouched and the length operand keeps the capacity passed (R194). -/
def Obligations.CallWithZeroSendTimeoutFails : Prop :=
  ∀ (id cap tr : Word) (req : List Byte) (s : State) (d0 d1 : Word) (later : List Word), Ready .master s →
    fitsLength req = true → s.clock = d0 :: d1 :: later →
    ∃ t, exec (.call id req cap 0 tr) s = .next t ∧ t.status = .timeout ∧ t.retryCnt = 3 ∧ t.inProgress = false ∧
      t.tx = s.tx ∧ t.rx = s.rx ∧ t.writes = s.writes ∧ t.link = s.link ∧ transportCalls t = transportCalls s ∧
      t.respBuf = s.respBuf ∧ t.respLen = cap ∧ t.t0 = s.now + d0 ∧ t.clock = later

/-- R197: when the command has been sent and no result has come, CALL is in AwaitingResult, blocked on the `TRead` of the
result-header; with `recv_timeout = 0` it is back in Idle with Timeout, having read nothing. -/
def Obligations.CallAwaitsTheResult : Prop :=
  ∀ (id cap ts tr : Word) (req : List Byte) (s : State) (a a' : WriteAnswer) (d0 d1 d2 d3 d4 : Word) (later : List Word),
    Ready .master s → fitsLength req = true → s.writes = [a, a'] → a.ok = true → a'.ok = true → s.link = [] →
    s.clock = d0 :: d1 :: d2 :: d3 :: d4 :: later → d1 < ts → d1 + d2 < ts →
    ∃ t, exec (.call id req cap ts tr) s = .next t ∧
      t.tx = s.tx ++ chFrame s id (lengthWord req) ++ frameOf s .cd req ∧ t.rx = s.rx ∧
      (d4 < tr → t.state = .awaitingResult ∧ t.phase = .mGetRh ∧ t.waiting = .read (s.params.header.rhLen + 4) ∧
        t.retryCnt = 2 ∧ t.status = s.status) ∧
      (tr = 0 → t.state = .idle ∧ t.phase = .mRest ∧ t.waiting = .nobody ∧ t.retryCnt = 3 ∧ t.status = .timeout)

/-! ### The Slave Engine -/

/-- R212: GET_COMMAND receives the command-header and the command-data of the length it announces, and stores the request. -/
def Obligations.GetCommandStoresTheRequest : Prop :=
  ∀ (id : Word) (data : List Byte) (s : State) (rest : List LinkEvent), Ready .slave s →
    data.length ≤ s.params.bufCap → fitsLength data = true → s.rx = [] →
    s.link = .arrive (chFrame s id (lengthWord data)) :: .arrive (frameOf s .cd data) :: rest →
    exec .getCommand s =
      .next { s with
        link := rest, buf := writeBytes s.buf 0 data, bufLen := lengthWord data, curRpcId := id
        retryCnt := 1, frame := [], status := .ok, result := .rpcId id
        calls := s.calls ++
          [⟨.waitingForCommand, .sGetCh, .tread (s.params.header.chLen + 4) s.params.shortTimeoutMs⟩,
           ⟨.waitingForCommand, .sGetCd, .tread (data.length + 4) s.params.shortTimeoutMs⟩] }

/-- R213, R214: whatever comes over the link, a GET_COMMAND that has not succeeded leaves `BUF`, `BUF_LEN` and `CUR_RPC_ID` as
they were, and GET_COMMAND sends nothing. -/
def Obligations.FailedGetCommandLeavesTheBuffer : Prop :=
  ∀ s t : State, Ready .slave s → exec .getCommand s = .next t →
    (t.inProgress = true ∨ t.status ≠ .ok → t.buf = s.buf ∧ t.bufLen = s.bufLen ∧ t.curRpcId = s.curRpcId) ∧
    t.tx = s.tx ∧ t.calls.filter isWrite = s.calls.filter isWrite

/-- R212, R256: a command-header that announces more than `BUF_CAP` bytes ends GET_COMMAND with LenOverflow after the one read. -/
def Obligations.GetCommandRejectsAnOversizeCommand : Prop :=
  ∀ (id n : Word) (after : List Byte) (s : State) (rest : List LinkEvent), Ready .slave s →
    s.params.bufCap < n.toNat → s.rx = [] → s.link = .arrive (chFrame s id n ++ after) :: rest →
    exec .getCommand s =
      .next { s with
        link := rest, rx := after, retryCnt := 1, frame := [], status := .lenOverflow, result := .nothing
        calls := s.calls ++ [⟨.waitingForCommand, .sGetCh, .tread (s.params.header.chLen + 4) s.params.shortTimeoutMs⟩] }

/-- R216, R217: FIND_CALLBACK answers the handler of the first entry in use with the identifier, and NotFound when there is
none; entries at or above `CB_COUNT` are not examined. -/
def Obligations.FindCallbackScansTheTable : Prop :=
  ∀ (id : Word) (s : State), Ready .slave s →
    (∀ (i : Nat) (e : CbEntry), i < s.cbCount.toNat → s.cb[i]? = some e → e.id = id →
      (∀ j d, j < i → s.cb[j]? = some d → d.id ≠ id) →
      exec (.findCallback id) s = .next { s with status := .ok, result := .handler e.handler }) ∧
    ((∀ j d, j < s.cbCount.toNat → s.cb[j]? = some d → d.id ≠ id) →
      exec (.findCallback id) s = .next { s with status := .notFound, result := .nothing })

/-- R219: PUT_RESULT sends the result-header and then the result-data, reads nothing, and stops after a failed header. That
`STATE` is WaitingForCommand in S_PUT_RH and S_PUT_RD when PUT_RESULT is issued alone is the model's choice (log 17, DESIGN
CHOICE). -/
def Obligations.PutResultSendsHeaderThenData : Prop :=
  ∀ (data : List Byte) (s : State) (a a' : WriteAnswer) (rest : List WriteAnswer), Ready .slave s →
    fitsLength data = true → s.writes = a :: a' :: rest →
    (a.ok = true → a'.ok = true → exec (.putResult data) s =
      .next { s with
        writes := rest, retryCnt := 1, frame := [], status := .ok, result := .nothing
        tx := s.tx ++ rhFrame s (lengthWord data) ++ frameOf s .rd data
        calls := s.calls ++
          [⟨.waitingForCommand, .sPutRh, .twrite (rhFrame s (lengthWord data)) s.params.shortTimeoutMs⟩,
           ⟨.waitingForCommand, .sPutRd, .twrite (frameOf s .rd data) s.params.shortTimeoutMs⟩] }) ∧
    (a.ok = false → a'.ok = false → exec (.putResult data) s =
      .next { s with
        writes := rest, retryCnt := 0, frame := [], status := .timeout, result := .nothing
        tx := s.tx ++ (rhFrame s (lengthWord data)).take a.sent
          ++ (rhFrame s (lengthWord data)).take a'.sent
        calls := s.calls ++ List.replicate 2
          ⟨.waitingForCommand, .sPutRh, .twrite (rhFrame s (lengthWord data)) s.params.shortTimeoutMs⟩ })

/-- R225, R226: REGISTER_CALLBACK reports Duplicate before TableFull and changes the table on success only, by one entry at index
`CB_COUNT`; it is accepted at rest and from a running handler. -/
def Obligations.RegisterCallbackOutcomes : Prop :=
  ∀ (id : Word) (h : Handler) (s : State), RegistrationAccepted s →
    ((∃ e ∈ entriesInUse s, e.id = id) →
      exec (.registerCallback id h) s = .next { s with status := .duplicate, result := .nothing }) ∧
    ((∀ e ∈ entriesInUse s, e.id ≠ id) → s.cbCount.toNat = s.params.maxCallbacks →
      exec (.registerCallback id h) s = .next { s with status := .tableFull, result := .nothing }) ∧
    ((∀ e ∈ entriesInUse s, e.id ≠ id) → s.cbCount.toNat ≠ s.params.maxCallbacks →
      exec (.registerCallback id h) s =
        .next { s with
          cb := s.cb.set s.cbCount.toNat ⟨id, h⟩, cbCount := s.cbCount + 1, status := .ok, result := .nothing })

/-- R227: from reset, registrations of pairwise distinct identifiers up to `MAX_CALLBACKS` all succeed and stand in their order;
in the full table a new identifier gives TableFull and a present one Duplicate, and nothing changes. -/
def Obligations.TheTableTakesExactlyMaxCallbacks : Prop :=
  ∀ (p : Params) (regs : List (Word × Handler)), p.wf = true → p.role = .slave → (regs.map Prod.fst).Nodup →
    regs.length ≤ p.maxCallbacks →
    ∃ t, registerAll regs (State.resetWith p) = some t ∧ t.cbCount.toNat = regs.length ∧
      entriesInUse t = regs.map (fun r => ⟨r.1, r.2⟩) ∧
      (regs.length = p.maxCallbacks → ∀ (id : Word) (h : Handler),
        exec (.registerCallback id h) t =
          .next { t with
            status := if id ∈ regs.map Prod.fst then .duplicate else .tableFull, result := .nothing })

/-- R228: SCHEDULE_CALLBACK loads the slot, replacing what it held, and touches nothing of the table; it is accepted at rest and
from a running handler. -/
def Obligations.ScheduleCallbackReplacesTheSlot : Prop :=
  ∀ (h h' : Handler) (s : State), RegistrationAccepted s →
    ∃ t, exec (.scheduleCallback h) s = .next t ∧
      t = { s with defHandler := h, defValid := true, status := .ok, result := .nothing } ∧
      exec (.scheduleCallback h') t =
        .next { s with defHandler := h', defValid := true, status := .ok, result := .nothing }

/-- R231: LOOP receives a command, invokes the handler registered for it with `EV_COMMAND` and `n = BUF_LEN` (R224), and sends
the bytes the handler left in `BUF`, as many as the code it returned (R223). -/
def Obligations.LoopAnswersACommand : Prop :=
  ∀ (id code : Word) (data : List Byte) (h : Handler) (stores : List (Nat × Byte)) (s : State) (more : List LinkEvent)
    (runs : List HandlerRun) (a a' : WriteAnswer) (rest : List WriteAnswer), Ready .slave s →
    data.length ≤ s.params.bufCap → fitsLength data = true → s.rx = [] →
    s.link = .arrive (chFrame s id (lengthWord data)) :: .arrive (frameOf s .cd data) :: more →
    lookup id s = some h → s.handlers = .returns [] stores code :: runs → (∀ c ∈ stores, c.1 < s.params.bufCap) →
    code.toNat ≤ s.params.bufCap → s.defValid = false → s.writes = a :: a' :: rest → a.ok = true → a'.ok = true →
    exec .loop s =
      .next { s with
        link := more, handlers := runs, writes := rest
        buf := writeCells (writeBytes s.buf 0 data) stores, bufLen := code, curRpcId := id
        retryCnt := 1, frame := [], status := .ok, result := .nothing
        tx := s.tx ++ rhFrame s code
          ++ frameOf s .rd (readBytes (writeCells (writeBytes s.buf 0 data) stores) 0 code.toNat)
        calls := s.calls ++
          [⟨.waitingForCommand, .sGetCh, .tread (s.params.header.chLen + 4) s.params.shortTimeoutMs⟩,
           ⟨.waitingForCommand, .sGetCd, .tread (data.length + 4) s.params.shortTimeoutMs⟩,
           ⟨.dispatching, .sHandler, .invoke h 0 (lengthWord data)⟩,
           ⟨.dispatching, .sPutRh, .twrite (rhFrame s code) s.params.shortTimeoutMs⟩,
           ⟨.dispatching, .sPutRd,
             .twrite (frameOf s .rd (readBytes (writeCells (writeBytes s.buf 0 data) stores) 0 code.toNat))
               s.params.shortTimeoutMs⟩] }

/-- R233: a deferred handler that the command's handler schedules runs in the same LOOP, once, after the reply, with `EV_DEFERRED`
and `n = 0`; it replaces one that was set before, and its code is ignored. -/
def Obligations.LoopRunsWorkItsHandlerScheduled : Prop :=
  ∀ (id code code' : Word) (data : List Byte) (h work : Handler) (stores stores' : List (Nat × Byte)) (s : State)
    (more : List LinkEvent) (runs : List HandlerRun) (a a' : WriteAnswer) (rest : List WriteAnswer), Ready .slave s →
    data.length ≤ s.params.bufCap → fitsLength data = true → s.rx = [] →
    s.link = .arrive (chFrame s id (lengthWord data)) :: .arrive (frameOf s .cd data) :: more →
    lookup id s = some h →
    Handler.fits s.params.handlerW work = true →
    s.handlers = .returns [encode s.params.formats (.scheduleCallback work)] stores code :: .returns [] stores' code' :: runs →
    (∀ c ∈ stores, c.1 < s.params.bufCap) → (∀ c ∈ stores', c.1 < s.params.bufCap) →
    code.toNat ≤ s.params.bufCap → s.writes = a :: a' :: rest → a.ok = true → a'.ok = true →
    exec .loop s =
      .next { s with
        link := more, handlers := runs, writes := rest
        buf := writeCells (writeCells (writeBytes s.buf 0 data) stores) stores', bufLen := code, curRpcId := id
        defHandler := work, defValid := false, retryCnt := 1, frame := [], status := .ok, result := .nothing
        tx := s.tx ++ rhFrame s code
          ++ frameOf s .rd (readBytes (writeCells (writeBytes s.buf 0 data) stores) 0 code.toNat)
        calls := s.calls ++
          [⟨.waitingForCommand, .sGetCh, .tread (s.params.header.chLen + 4) s.params.shortTimeoutMs⟩,
           ⟨.waitingForCommand, .sGetCd, .tread (data.length + 4) s.params.shortTimeoutMs⟩,
           ⟨.dispatching, .sHandler, .invoke h 0 (lengthWord data)⟩,
           ⟨.dispatching, .sPutRh, .twrite (rhFrame s code) s.params.shortTimeoutMs⟩,
           ⟨.dispatching, .sPutRd,
             .twrite (frameOf s .rd (readBytes (writeCells (writeBytes s.buf 0 data) stores) 0 code.toNat))
               s.params.shortTimeoutMs⟩,
           ⟨.dispatching, .sDeferred, .invoke work 1 0⟩] }

/-- R233: a deferred handler set before LOOP runs once, after the reply is sent; a `SCHEDULE_CALLBACK` it issues itself survives. -/
def Obligations.LoopRunsTheDeferredHandlerOnce : Prop :=
  ∀ (id code code' : Word) (data : List Byte) (h again : Handler) (stores : List (Nat × Byte)) (s : State)
    (more : List LinkEvent) (runs : List HandlerRun) (a a' : WriteAnswer) (rest : List WriteAnswer), Ready .slave s →
    data.length ≤ s.params.bufCap → fitsLength data = true → s.rx = [] →
    s.link = .arrive (chFrame s id (lengthWord data)) :: .arrive (frameOf s .cd data) :: more →
    lookup id s = some h → s.defValid = true →
    Handler.fits s.params.handlerW again = true →
    s.handlers = .returns [] stores code :: .returns [encode s.params.formats (.scheduleCallback again)] [] code' :: runs →
    (∀ c ∈ stores, c.1 < s.params.bufCap) →
    code.toNat ≤ s.params.bufCap → s.writes = a :: a' :: rest → a.ok = true → a'.ok = true →
    exec .loop s =
      .next { s with
        link := more, handlers := runs, writes := rest
        buf := writeCells (writeBytes s.buf 0 data) stores, bufLen := code, curRpcId := id
        defHandler := again, defValid := true, retryCnt := 1, frame := [], status := .ok, result := .nothing
        tx := s.tx ++ rhFrame s code
          ++ frameOf s .rd (readBytes (writeCells (writeBytes s.buf 0 data) stores) 0 code.toNat)
        calls := s.calls ++
          [⟨.waitingForCommand, .sGetCh, .tread (s.params.header.chLen + 4) s.params.shortTimeoutMs⟩,
           ⟨.waitingForCommand, .sGetCd, .tread (data.length + 4) s.params.shortTimeoutMs⟩,
           ⟨.dispatching, .sHandler, .invoke h 0 (lengthWord data)⟩,
           ⟨.dispatching, .sPutRh, .twrite (rhFrame s code) s.params.shortTimeoutMs⟩,
           ⟨.dispatching, .sPutRd,
             .twrite (frameOf s .rd (readBytes (writeCells (writeBytes s.buf 0 data) stores) 0 code.toNat))
               s.params.shortTimeoutMs⟩,
           ⟨.dispatching, .sDeferred, .invoke s.defHandler 1 0⟩] }

/-- R231, R255, R235: a command for an identifier that is not registered is dropped: nothing is sent, no handler is invoked, the
request is kept, the deferred slot is discarded, `STATUS` is NotFound. -/
def Obligations.LoopDropsAnUnregisteredCommand : Prop :=
  ∀ (id : Word) (data : List Byte) (s : State) (more : List LinkEvent), Ready .slave s →
    data.length ≤ s.params.bufCap → fitsLength data = true → s.rx = [] →
    s.link = .arrive (chFrame s id (lengthWord data)) :: .arrive (frameOf s .cd data) :: more →
    (∀ e ∈ entriesInUse s, e.id ≠ id) →
    exec .loop s =
      .next { s with
        link := more, buf := writeBytes s.buf 0 data, bufLen := lengthWord data, curRpcId := id, defValid := false
        retryCnt := 1, frame := [], status := .notFound, result := .nothing
        calls := s.calls ++
          [⟨.waitingForCommand, .sGetCh, .tread (s.params.header.chLen + 4) s.params.shortTimeoutMs⟩,
           ⟨.waitingForCommand, .sGetCd, .tread (data.length + 4) s.params.shortTimeoutMs⟩] }

/-- R231, R235: a LOOP that receives no command ends with Timeout after its two reads; the deferred slot is untouched. -/
def Obligations.LoopWithoutACommandKeepsTheSlot : Prop :=
  ∀ (s : State) (k k' : Nat) (more : List LinkEvent), Ready .slave s → s.link = .expire k :: .expire k' :: more →
    exec .loop s =
      .next { s with
        link := more, rx := (s.rx.drop k).drop k', retryCnt := 0, frame := [], status := .timeout, result := .nothing
        calls := s.calls ++ List.replicate 2
          ⟨.waitingForCommand, .sGetCh, .tread (s.params.header.chLen + 4) s.params.shortTimeoutMs⟩ }

/-- R232, R235: a handler that returns more than `BUF_CAP` sends nothing: LenOverflow, `BUF_LEN` as GET_COMMAND set it, `BUF` as the
handler left it, the deferred slot discarded. -/
def Obligations.LoopRejectsAnOversizeCode : Prop :=
  ∀ (id code : Word) (data : List Byte) (h : Handler) (stores : List (Nat × Byte)) (s : State) (more : List LinkEvent)
    (runs : List HandlerRun), Ready .slave s →
    data.length ≤ s.params.bufCap → fitsLength data = true → s.rx = [] →
    s.link = .arrive (chFrame s id (lengthWord data)) :: .arrive (frameOf s .cd data) :: more →
    lookup id s = some h → s.handlers = .returns [] stores code :: runs → (∀ c ∈ stores, c.1 < s.params.bufCap) →
    s.params.bufCap < code.toNat →
    exec .loop s =
      .next { s with
        link := more, handlers := runs
        buf := writeCells (writeBytes s.buf 0 data) stores, bufLen := lengthWord data, curRpcId := id, defValid := false
        retryCnt := 1, frame := [], status := .lenOverflow, result := .nothing
        calls := s.calls ++
          [⟨.waitingForCommand, .sGetCh, .tread (s.params.header.chLen + 4) s.params.shortTimeoutMs⟩,
           ⟨.waitingForCommand, .sGetCd, .tread (data.length + 4) s.params.shortTimeoutMs⟩,
           ⟨.dispatching, .sHandler, .invoke h 0 (lengthWord data)⟩] }

/-- R233, R235: a reply that fails, at its result-header or at its result-data, ends LOOP with Timeout; the deferred handler is
discarded without being invoked; `BUF_LEN` is the code. -/
def Obligations.LoopDiscardsTheSlotWhenTheReplyFails : Prop :=
  ∀ (id code : Word) (data : List Byte) (h : Handler) (s : State) (more : List LinkEvent) (runs : List HandlerRun)
    (a a' : WriteAnswer) (rest : List WriteAnswer), Ready .slave s →
    data.length ≤ s.params.bufCap → fitsLength data = true → s.rx = [] →
    s.link = .arrive (chFrame s id (lengthWord data)) :: .arrive (frameOf s .cd data) :: more →
    lookup id s = some h → s.handlers = .returns [] [] code :: runs → code.toNat ≤ s.params.bufCap →
    a.ok = false → a'.ok = false →
    (s.writes = a :: a' :: rest →
      exec .loop s =
        .next { s with
          link := more, handlers := runs, writes := rest
          buf := writeBytes s.buf 0 data, bufLen := code, curRpcId := id, defValid := false
          retryCnt := 0, frame := [], status := .timeout, result := .nothing
          tx := s.tx ++ (rhFrame s code).take a.sent ++ (rhFrame s code).take a'.sent
          calls := s.calls ++
            [⟨.waitingForCommand, .sGetCh, .tread (s.params.header.chLen + 4) s.params.shortTimeoutMs⟩,
             ⟨.waitingForCommand, .sGetCd, .tread (data.length + 4) s.params.shortTimeoutMs⟩,
             ⟨.dispatching, .sHandler, .invoke h 0 (lengthWord data)⟩,
             ⟨.dispatching, .sPutRh, .twrite (rhFrame s code) s.params.shortTimeoutMs⟩,
             ⟨.dispatching, .sPutRh, .twrite (rhFrame s code) s.params.shortTimeoutMs⟩] }) ∧
    (∀ (first : WriteAnswer) (reply : List Byte), first.ok = true → s.writes = first :: a :: a' :: rest →
      reply = frameOf s .rd (readBytes (writeBytes s.buf 0 data) 0 code.toNat) →
      exec .loop s =
        .next { s with
          link := more, handlers := runs, writes := rest
          buf := writeBytes s.buf 0 data, bufLen := code, curRpcId := id, defValid := false
          retryCnt := 0, frame := [], status := .timeout, result := .nothing
          tx := s.tx ++ rhFrame s code ++ reply.take a.sent ++ reply.take a'.sent
          calls := s.calls ++
            [⟨.waitingForCommand, .sGetCh, .tread (s.params.header.chLen + 4) s.params.shortTimeoutMs⟩,
             ⟨.waitingForCommand, .sGetCd, .tread (data.length + 4) s.params.shortTimeoutMs⟩,
             ⟨.dispatching, .sHandler, .invoke h 0 (lengthWord data)⟩,
             ⟨.dispatching, .sPutRh, .twrite (rhFrame s code) s.params.shortTimeoutMs⟩,
             ⟨.dispatching, .sPutRd, .twrite reply s.params.shortTimeoutMs⟩,
             ⟨.dispatching, .sPutRd, .twrite reply s.params.shortTimeoutMs⟩] })

/-! ### Arriving frames -/

/-- The model's reading of R210 and R291 (log 16): a frame that arrives while no operation is in progress stays in the receive
stream and changes nothing else. -/
def Obligations.FramesBetweenOperationsStayInTheStream : Prop :=
  ∀ (i : Instr) (s : State), i.isRequest = false → s.inProgress = false →
    exec i s = .next { s with rx := s.rx ++ encode s.params.formats i }

/-- R103, R107, R212: a command-header with the right checksum that fits is accepted by a GET_COMMAND waiting for it: the identifier
and the length are taken, and the command-data of that length is asked for. -/
def Obligations.CommandHeaderIsAccepted : Prop :=
  ∀ (id n : Word) (inLoop : Bool) (last : Status) (s : State), s.params.role = .slave →
    s.params.header.wf = true → s.job = .recvHeader inLoop → s.exch = .get .ch (chPayloadLen s.params) none last →
    s.rx = [] → s.link = [] → n.toNat ≤ s.params.bufCap →
    exec (.ch id n (checksumOf s .ch (chPayload s.params.header id n))) s =
      .next { s with
        phase := .sGetCd, job := .recvData id inLoop, exch := .get .cd n none .timeout, retryCnt := 1, frame := []
        calls := s.calls ++ [⟨s.state, .sGetCd, .tread (n.toNat + 4) s.params.shortTimeoutMs⟩] }

/-- R104, R212, R231: a command-data frame with the right checksum is accepted by a GET_COMMAND waiting for it: the request is
stored; alone, GET_COMMAND completes with the identifier; within LOOP, the handler registered for it is invoked. -/
def Obligations.CommandDataIsAccepted : Prop :=
  ∀ (id : Word) (data : List Byte) (last : Status) (s : State), s.params.role = .slave →
    s.exch = .get .cd (lengthWord data) none last → s.rx = [] → s.link = [] → fitsLength data = true →
    data.length ≤ s.params.bufCap →
    (s.job = .recvData id false →
      exec (.cd data (checksumOf s .cd data)) s =
        .next { s with
          state := .waitingForCommand, phase := .sRest, job := .idle, exch := .idle, frame := []
          buf := writeBytes s.buf 0 data, bufLen := lengthWord data, curRpcId := id
          status := .ok, result := .rpcId id }) ∧
    (∀ h, s.job = .recvData id true → lookup id s = some h → s.handlers = [] →
      exec (.cd data (checksumOf s .cd data)) s =
        .next { s with
          state := .dispatching, phase := .sHandler, job := .handler h, exch := .idle, frame := []
          buf := writeBytes s.buf 0 data, bufLen := lengthWord data, curRpcId := id
          calls := s.calls ++ [⟨.dispatching, .sHandler, .invoke h 0 (lengthWord data)⟩] })

/-- R105, R193: a result-header with the right checksum that fits is accepted by a GET_RESULT waiting for it, within its deadline
(R171): the result-data of the length it announces is asked for. -/
def Obligations.ResultHeaderIsAccepted : Prop :=
  ∀ (n cap ms d : Word) (later : List Word) (last : Status) (s : State), s.params.role = .master →
    s.params.header.wf = true → s.job = .resultHeader cap → s.exch = .get .rh (rhPayloadLen s.params) (some ms) last →
    s.rx = [] → s.link = [] → n ≤ cap →
    s.clock = d :: later → s.now + d - s.t0 < ms →
    exec (.rh n (checksumOf s .rh (rhPayload s.params.header n))) s =
      .next { s with
        phase := .mGetRd, job := .resultData, exch := .get .rd n (some ms) .timeout, retryCnt := 2, frame := []
        now := s.now + d, clock := later, draws := s.draws + 1
        calls := s.calls ++
          [⟨s.state, .mGetRd, .now (s.now + d)⟩, ⟨s.state, .mGetRd, .tread (n.toNat + 4) s.params.shortTimeoutMs⟩] }

/-- R106, R193, R194, R197: a result-data frame with the right checksum is accepted by a GET_RESULT waiting for it: the response is
stored, the operation completes, the master is Idle. -/
def Obligations.ResultDataIsAccepted : Prop :=
  ∀ (data : List Byte) (long : Option Word) (last : Status) (s : State), s.params.role = .master →
    s.job = .resultData → s.exch = .get .rd (lengthWord data) long last → s.rx = [] → fitsLength data = true →
    exec (.rd data (checksumOf s .rd data)) s =
      .next { s with
        state := .idle, phase := .mRest, job := .idle, exch := .idle, frame := []
        respBuf := writeBytes s.respBuf 0 data, respLen := lengthWord data
        status := .ok, result := .data data (lengthWord data) }

/-- R111, R256, R171: a frame that does not validate against the kind expected next costs one attempt: it is gone, its failure is
remembered, and the next `TRead` is issued; with a deadline the time is read first, and Timeout ends the operation when the check
fails; with no attempt left it ends with that failure. A frame of another kind is MarkerMismatch whatever its checksum. -/
def Obligations.ARejectedFrameCostsOneAttempt : Prop :=
  ∀ (i : Instr) (kind : Kind) (n : Word) (long : Option Word) (last f : Status) (s : State), sequencerLegal s = true →
    i.isRequest = false → s.exch = .get kind n long last → s.rx = [] → s.link = [] →
    (encode s.params.formats i).length = n.toNat + 4 →
    decodePacket s.params kind (encode s.params.formats i) = .error f →
    (s.retryCnt ≠ 0 → long = none →
      exec i s =
        .next { s with
          retryCnt := s.retryCnt - 1, exch := .get kind n none f
          calls := s.calls ++ [⟨s.state, s.phase, .tread (n.toNat + 4) s.params.shortTimeoutMs⟩] }) ∧
    (∀ (ms d : Word) (later : List Word), s.retryCnt ≠ 0 → long = some ms → s.clock = d :: later →
      (deadlinePassed ms (tick d s) = false →
        exec i s =
          .next { s with
            now := s.now + d, clock := later, draws := s.draws + 1
            retryCnt := s.retryCnt - 1, exch := .get kind n (some ms) f
            calls := s.calls ++
              [⟨s.state, s.phase, .now (s.now + d)⟩,
               ⟨s.state, s.phase, .tread (n.toNat + 4) s.params.shortTimeoutMs⟩] }) ∧
      (deadlinePassed ms (tick d s) = true →
        exec i s =
          .next { s with
            now := s.now + d, clock := later, draws := s.draws + 1
            state := restState s.params.role, phase := restPhase s.params.role, job := .idle, exch := .idle, frame := []
            status := .timeout, result := .nothing
            calls := s.calls ++ [⟨s.state, s.phase, .now (s.now + d)⟩] })) ∧
    (s.retryCnt = 0 →
      exec i s =
        .next { s with
          state := restState s.params.role, phase := restPhase s.params.role, job := .idle, exch := .idle, frame := []
          status := f, result := .nothing }) ∧
    (∀ k, frameKind i = some k → k ≠ kind → s.params.markers.distinct = true → minLen kind ≤ n.toNat + 4 →
      f = .markerMismatch)

/-! ### Memory -/

/-- R61: reading after `MemWrite` gives the bytes written at their offsets and leaves every other byte as it was; and two memories
in the model's canonical form that read the same at every offset are the same memory. -/
def Obligations.MemoryReadsBackWhatWasWritten : Prop :=
  (∀ (m : Memory) (a : Nat) (v : List Byte), m.wf = true →
    readBytes (writeBytes m a v) a v.length = v ∧
    ∀ x, x < a ∨ a + v.length ≤ x → readByte (writeBytes m a v) x = readByte m x) ∧
  (∀ m m' : Memory, m.wf = true → m'.wf = true → (∀ x, readByte m x = readByte m' x) → m = m')

/-! ### Reset and invariants -/

/-- R290: reset puts the sequencer at rest, `STATUS = OK`, the table and the deferred slot empty, `BUF_LEN = 0`, for an instance of
any parameters. -/
def Obligations.ResetLeavesTheListedValues : Prop :=
  ∀ p : Params,
    stateCode (State.resetWith p).state = 0 ∧ phaseCode (State.resetWith p).phase = 0 ∧
    statusCode (State.resetWith p).status = 0 ∧ (State.resetWith p).ok = true ∧ (State.resetWith p).cbCount = 0 ∧
    (State.resetWith p).defValid = false ∧ (State.resetWith p).bufLen = 0 ∧ (State.resetWith p).params = p

/-- The invariant holds after reset of any instance with legal parameters, and of the one `State.reset` is (log 1, DESIGN CHOICE).
R39 leaves `RETRY_CNT` and `BUF` unspecified at reset: that `RETRY_CNT` is at most `RETRY_RESET` there holds by the zero of log 4, and
the clauses about the form of the memories by log 5 (`BUF`) and log 22 (the host's response buffer), all DESIGN CHOICE. -/
def Obligations.ResetEstablishesTheInvariant : Prop :=
  (∀ p : Params, p.wf = true → (State.resetWith p).Inv) ∧ State.reset.Inv

/-- R23, R25, R28, R32, R33, R34 (a), R35, R61: every step from a state with the invariant keeps it. The model's own clauses in it: the
canonical form of the memories (log 5, DESIGN CHOICE), and the pairs of `STATE` and `PHASE` that the tables of R26 and R27 do not have
(log 17, DESIGN CHOICE): Idle in M_GET_RH and M_GET_RD, WaitingForCommand in S_PUT_RH and S_PUT_RD, AwaitingResult in M_PUT_CD. -/
def Obligations.EveryStepKeepsTheInvariant : Prop :=
  ∀ s t : State, s.Inv → step s = .next t → t.Inv

/-- R9, R34 (b) and (c), R65: no step changes the parameters, drops or changes an entry in use, or recalls a byte sent. -/
def Obligations.NoStepTakesBack : Prop :=
  ∀ s t : State, s.Inv → step s = .next t → Extends s t

/-- R263, and the model's `bufOutOfRange` (log 25, DESIGN CHOICE): from a state with the invariant a master never faults, and a slave
faults only by what an invoked handler does, never by a registration out of turn. A refusal is only the model's `malformedRequest`
(log 14, DESIGN CHOICE), of a request at the host port of an instance at rest or of a request of a slave's handler. -/
def Obligations.OnlyHandlersRaiseFaults : Prop :=
  (∀ (s : State) (f : Fault), s.Inv → step s = .fault f →
    s.params.role = .slave ∧ (f = .handlerDoesNotReturn ∨ f = .bufOutOfRange ∨ f = .requestInProgress) ∧
    (s.waiting = .handler ∨ s.handlers ≠ [])) ∧
  (∀ (s : State) (r : Refusal), s.Inv → step s = .refused r →
    r = .malformedRequest ∧
    ((s.inProgress = false ∧ ∃ req more, s.hostPort = req :: more ∧ decodeRequest s.params.formats req = .error .malformed) ∨
     (s.params.role = .slave ∧ (s.waiting = .handler ∨ s.handlers ≠ []))))

/-- R20, R265: no step of a master touches the registers of a slave, and no step of a slave those of a master or the host's
response buffer. -/
def Obligations.RolesKeepApart : Prop :=
  ∀ s t : State, s.Inv → step s = .next t →
    (s.params.role = .master →
      t.curRpcId = s.curRpcId ∧ t.bufLen = s.bufLen ∧ t.buf = s.buf ∧ t.cbCount = s.cbCount ∧ t.cb = s.cb ∧
      t.defValid = s.defValid ∧ t.defHandler = s.defHandler) ∧
    (s.params.role = .slave → t.t0 = s.t0 ∧ t.respBuf = s.respBuf ∧ t.respLen = s.respLen)

/-- R70: "The value handed to the transport as t_ms is always SHORT_TIMEOUT_MS": kept by every step. -/
def Obligations.TransportIsHandedTheShortTimeout : Prop :=
  ∀ s t : State, s.Inv → step s = .next t →
    s.calls.all (handedDuration s.params.shortTimeoutMs) = true →
    t.calls.all (handedDuration t.params.shortTimeoutMs) = true

/-- R179, R312 (the counts of transport operations): one run of an operation, whatever the other agents do, issues at most the
listed number of transport operations. -/
def Obligations.TransportOperationsAreBounded : Prop :=
  ∀ (i : Instr) (s t : State), s.Inv → s.inProgress = false → i.isRequest = true → exec i s = .next t →
    (transportCalls t).length ≤ (transportCalls s).length + transportBound s.params.role i

/-- R75 (c): whatever the other agents do, CALL issues no `TRead` before the last `TWrite` of the command; and (R197) its writes
are made in Idle, its reads in AwaitingResult. -/
def Obligations.CallWritesBeforeItReads : Prop :=
  ∀ (id cap ts tr : Word) (req : List Byte) (s t : State), Ready .master s → fitsLength req = true →
    exec (.call id req cap ts tr) s = .next t →
    ∃ writes reads : List PortCall, transportCalls t = transportCalls s ++ writes ++ reads ∧
      (∀ c ∈ writes, isWrite c = true ∧ c.state = .idle) ∧
      (∀ c ∈ reads, isRead c = true ∧ c.state = .awaitingResult)

/-- R192, R220: PUT_COMMAND and PUT_RESULT read nothing from the transport, whatever the other agents do. -/
def Obligations.SendersReadNothing : Prop :=
  ∀ (s t : State) (i : Instr), s.inProgress = false → isBadOp s.params.role i = false →
    (∃ id data ms, i = .putCommand id data ms) ∨ (∃ data, i = .putResult data) → exec i s = .next t →
    t.rx = s.rx ∧ t.link = s.link ∧ t.calls.filter isRead = s.calls.filter isRead

/-! ### The two-device system -/

/-- R270 over the ideal link of R73: a CALL on the master, with the slave in LOOP, returns the bytes that the handler registered for
the identifier left in `BUF`; both instances end at rest, both queues empty. The two interleave at every port primitive, one a
turn, and the link does what R73 says whatever other answers are listed. Time passes as `d` says, within the timeouts. -/
def Obligations.CallOverTheIdealLinkReturnsTheHandlersBytes : Prop :=
  ∀ (m s : State) (id cap ts tr : Word) (req resp : List Byte) (h : Handler) (d0 d1 d2 d3 d4 d5 : Word),
    Ready .master m → Ready .slave s → m.params.markers = s.params.markers →
    m.params.header = s.params.header → m.params.crc = s.params.crc →
    s.buf.wf = true → fitsLength req = true → req.length ≤ s.params.bufCap → fitsLength resp = true →
    resp.length ≤ s.params.bufCap → resp.length ≤ cap.toNat →
    m.hostPort = [encode m.params.formats (.call id req cap ts tr)] → m.rx = [] →
    m.clock = [d0, d1, d2, d3, d4, d5] → d1 < ts → d1 + d2 < ts → d4 < tr → d4 + d5 < tr →
    s.hostPort = [[0x25]] → s.rx = [] → s.defValid = false → lookup id s = some h →
    s.handlers = [.returns [] ((List.range resp.length).zip resp) (lengthWord resp)] →
    ∃ p : Pair,
      pairRun .ideal
        [.master, .slave, .master, .master, .master, .slave, .master, .master, .master, .slave, .master, .slave, .slave,
         .master, .slave, .master, .master] ⟨m, s⟩ = some p ∧
      p.master.status = .ok ∧ p.master.result = .data resp (lengthWord resp) ∧ p.master.inProgress = false ∧
      p.slave.status = .ok ∧ p.slave.inProgress = false ∧ p.slave.curRpcId = id ∧ p.slave.bufLen = lengthWord resp ∧
      readBytes p.slave.buf 0 resp.length = resp ∧ p.master.rx = [] ∧ p.slave.rx = []
end

