-- ==== Sys2Proof/Laws/Bytes.lean ====
section
/-! SUPPORT. Laws of the byte order (`00_scope.md` R12) and of the readers of operands: reading what was written gives it back. -/

namespace Sys2Proof

@[simp] theorem le16_length (v : Half) : (le16 v).length = 2 := rfl

@[simp] theorem le32_length (v : Word) : (le32 v).length = 4 := rfl

theorem u16le_le16 (v : Half) (rest : List Byte) : u16le (le16 v ++ rest) 0 = v := by
  apply BitVec.eq_of_toNat_eq
  have := v.isLt
  simp [u16le, le16]
  omega

theorem u32le_le32 (v : Word) (rest : List Byte) : u32le (le32 v ++ rest) 0 = v := by
  apply BitVec.eq_of_toNat_eq
  have := v.isLt
  simp [u32le, le32]
  omega

theorem u32le_le32_only (v : Word) : u32le (le32 v) 0 = v := by
  have := u32le_le32 v []
  rwa [List.append_nil] at this

theorem u32le_second (v w : Word) (rest : List Byte) : u32le (le32 v ++ le32 w ++ rest) 4 = w := by
  have : u32le (le32 v ++ le32 w ++ rest) 4 = u32le (le32 w ++ rest) 0 := by
    simp [u32le, le32]
  rw [this, u32le_le32]

/-- `le16` is the inverse of `u16le` on two bytes. -/
theorem le16_u16le (a b : Byte) (rest : List Byte) : le16 (u16le (a :: b :: rest) 0) = [a, b] := by
  have ha := a.isLt
  have hb := b.isLt
  simp only [le16, u16le, List.getD_cons_zero, List.getD_cons_succ, Nat.zero_add, List.cons.injEq, and_true]
  constructor <;> apply BitVec.eq_of_toNat_eq <;> simp <;> omega

/-- `le32` is the inverse of `u32le` on four bytes. -/
theorem le32_u32le (a b c d : Byte) (rest : List Byte) :
    le32 (u32le (a :: b :: c :: d :: rest) 0) = [a, b, c, d] := by
  have ha := a.isLt
  have hb := b.isLt
  have hc := c.isLt
  have hd := d.isLt
  simp only [le32, u32le, List.getD_cons_zero, List.getD_cons_succ, Nat.zero_add, List.cons.injEq, and_true]
  refine ⟨?_, ?_, ?_, ?_⟩ <;> apply BitVec.eq_of_toNat_eq <;> simp <;> omega

theorem le16_injective {v w : Half} (h : le16 v = le16 w) : v = w := by
  have hv := u16le_le16 v []
  rw [h, u16le_le16] at hv
  exact hv.symm

theorem lengthWord_toNat {b : List Byte} (h : fitsLength b = true) : (lengthWord b).toNat = b.length := by
  have : b.length < 2 ^ 32 := of_decide_eq_true h
  simp [lengthWord]
  omega

/-! ### Readers of operands -/

@[simp] theorem takeByte_cons (b : Byte) (rest : List Byte) : takeByte (b :: rest) = .ok (b, rest) := rfl

@[simp] theorem takeWord_le32 (v : Word) (rest : List Byte) : takeWord (le32 v ++ rest) = .ok (v, rest) := by
  simp only [takeWord, u32le_le32, List.length_append, le32_length]
  rw [if_neg (by omega), List.drop_left' (le32_length v)]

@[simp] theorem takeWord_le32_only (v : Word) : takeWord (le32 v) = .ok (v, []) := by
  have := takeWord_le32 v []
  rwa [List.append_nil] at this

theorem takeSeq_seqBytes {b : List Byte} (h : fitsLength b = true) (rest : List Byte) :
    takeSeq (seqBytes b ++ rest) = .ok (b, rest) := by
  have hl := lengthWord_toNat h
  simp only [seqBytes, List.append_assoc, takeSeq, takeWord_le32, hl, List.length_append]
  rw [if_neg (by omega), List.take_left, List.drop_left]

theorem bytesOfNat_length (n w : Nat) : (bytesOfNat n w).length = n := by
  induction n generalizing w with
  | zero => rfl
  | succ n ih => simp [bytesOfNat, ih]

/-- `bytesOfNat` loses nothing of a number that fits. -/
theorem natOfBytes_bytesOfNat (n w : Nat) (h : w < 2 ^ (8 * n)) : natOfBytes (bytesOfNat n w) = w := by
  induction n generalizing w with
  | zero => simp at h; subst h; rfl
  | succ n ih =>
    have hd : w / 2 ^ 8 < 2 ^ (8 * n) := by
      rw [Nat.div_lt_iff_lt_mul (by norm_num), ← pow_add]
      exact h
    simp only [bytesOfNat, natOfBytes, ih _ hd, BitVec.toNat_ofNat]
    omega

theorem takeHandler_operand {width : Nat} {h : Handler} (hf : Handler.fits width h = true) (rest : List Byte) :
    takeHandler width (handlerOperand width h ++ rest) = .ok (h, rest) := by
  have hl : (handlerOperand width h).length = handlerBytes width := bytesOfNat_length _ _
  have hlt : h < 2 ^ (8 * handlerBytes width) :=
    Nat.lt_of_lt_of_le (of_decide_eq_true hf) (Nat.pow_le_pow_right (by norm_num) (by unfold handlerBytes; omega))
  unfold takeHandler
  rw [if_neg (by simp [hl]), List.take_left' hl, List.drop_left' hl]
  simp only [handlerOperand, natOfBytes_bytesOfNat _ _ hlt, hf, if_true]

/-- A handler reference read from a request has `HANDLER_W` bits. -/
theorem takeHandler_fits {width : Nat} {b rest : List Byte} {h : Handler} (ht : takeHandler width b = .ok (h, rest)) :
    Handler.fits width h = true := by
  unfold takeHandler at ht
  split at ht
  · cases ht
  · by_cases hf : Handler.fits width (natOfBytes (b.take (handlerBytes width))) = true
    · simp only [hf, if_true] at ht; cases ht; exact hf
    · simp only [hf] at ht; cases ht

/-! ### Header payloads -/

theorem putWord_length {i : Nat} {v : Word} {b : List Byte} (h : i + 4 ≤ b.length) : (putWord i v b).length = b.length := by
  simp [putWord]
  omega

/-- The word just put reads back. -/
theorem u32le_putWord {i : Nat} {v : Word} {b : List Byte} (h : i + 4 ≤ b.length) : u32le (putWord i v b) i = v := by
  have hl : (b.take i).length = i := by simp; omega
  have e : ∀ k, (putWord i v b).getD (i + k) 0 = (le32 v ++ b.drop (i + 4)).getD k 0 := by
    intro k
    rw [putWord, List.append_assoc, List.getD_append_right _ _ _ _ (by omega), hl, Nat.add_sub_cancel_left]
  have e0 := e 0
  rw [Nat.add_zero] at e0
  have := u32le_le32 v (b.drop (i + 4))
  simp only [u32le, Nat.zero_add] at this ⊢
  rw [e0, e 1, e 2, e 3]
  exact this

theorem getD_putWord_other {i j : Nat} {v : Word} {b : List Byte} (h : i + 4 ≤ b.length) (hj : j < i ∨ i + 4 ≤ j) :
    (putWord i v b).getD j 0 = b.getD j 0 := by
  have hl : (b.take i).length = i := by simp; omega
  rcases hj with hj | hj
  · rw [putWord, List.append_assoc, List.getD_append _ _ _ _ (by omega)]
    simp [List.getD, hj]
  · have hl' : (b.take i ++ le32 v).length = i + 4 := by rw [List.length_append, hl, le32_length]
    rw [putWord, List.getD_append_right _ _ _ _ (by omega), hl']
    simp only [List.getD, List.getElem?_drop]
    rw [show i + 4 + (j - (i + 4)) = j by omega]

/-- A word apart from the one just put reads as before. -/
theorem u32le_putWord_other {i j : Nat} {v : Word} {b : List Byte} (h : i + 4 ≤ b.length) (hj : j + 4 ≤ i ∨ i + 4 ≤ j) :
    u32le (putWord i v b) j = u32le b j := by
  simp only [u32le]
  rw [getD_putWord_other h (by omega), getD_putWord_other h (by omega), getD_putWord_other h (by omega),
    getD_putWord_other h (by omega)]

/-- A legal layout, said in one place. -/
theorem HeaderLayout.wf_iff {h : HeaderLayout} :
    h.wf = true ↔ h.chIdAt + 4 ≤ h.chLen ∧ h.chLenAt + 4 ≤ h.chLen ∧
      (h.chIdAt + 4 ≤ h.chLenAt ∨ h.chLenAt + 4 ≤ h.chIdAt) ∧ h.rhLenAt + 4 ≤ h.rhLen ∧
      h.chLen ≤ 2 ^ 32 - 5 ∧ h.rhLen ≤ 2 ^ 32 - 5 := by
  simp [HeaderLayout.wf, and_assoc]

theorem chPayload_length {h : HeaderLayout} (w : h.wf = true) (id n : Word) : (chPayload h id n).length = h.chLen := by
  obtain ⟨h1, h2, -⟩ := HeaderLayout.wf_iff.mp w
  rw [chPayload, putWord_length, putWord_length] <;> simp [putWord] <;> omega

theorem rhPayload_length {h : HeaderLayout} (w : h.wf = true) (n : Word) : (rhPayload h n).length = h.rhLen := by
  obtain ⟨-, -, -, h1, -⟩ := HeaderLayout.wf_iff.mp w
  rw [rhPayload, putWord_length] <;> simp
  omega

/-- R107: the identifier reads back from the command-header's payload. -/
theorem chPayload_id {h : HeaderLayout} (w : h.wf = true) (id n : Word) : u32le (chPayload h id n) h.chIdAt = id := by
  obtain ⟨h1, h2, -⟩ := HeaderLayout.wf_iff.mp w
  exact u32le_putWord (by rw [putWord_length] <;> simp <;> omega)

/-- R107: so does the length. -/
theorem chPayload_len {h : HeaderLayout} (w : h.wf = true) (id n : Word) : u32le (chPayload h id n) h.chLenAt = n := by
  obtain ⟨h1, h2, h3, -⟩ := HeaderLayout.wf_iff.mp w
  rw [chPayload, u32le_putWord_other (by rw [putWord_length] <;> simp <;> omega) (by omega)]
  exact u32le_putWord (by simp; omega)

/-- R107: and the length of a result-header. -/
theorem rhPayload_len {h : HeaderLayout} (w : h.wf = true) (n : Word) : u32le (rhPayload h n) h.rhLenAt = n := by
  obtain ⟨-, -, -, h1, -⟩ := HeaderLayout.wf_iff.mp w
  exact u32le_putWord (by simp; omega)

/-- The default layouts are those of R103 and R105. -/
theorem chPayload_default (id n : Word) : chPayload {} id n = le32 id ++ le32 n := rfl

theorem rhPayload_default (n : Word) : rhPayload {} n = le32 n := rfl

/-! ### Kinds -/

@[simp] theorem kindOfCode_kindCode (k : Kind) : kindOfCode (kindCode k) = some k := by
  cases k <;> rfl

@[simp] theorem takeKind_kindCode (k : Kind) (rest : List Byte) : takeKind (kindCode k :: rest) = .ok (k, rest) := by
  simp [takeKind]

@[simp] theorem takeLong_longBytes (l : Option Word) (rest : List Byte) :
    takeLong (longBytes l ++ rest) = .ok (l, rest) := by
  cases l <;> simp [takeLong, longBytes]

/-! ### What is read is well-formed -/

/-- A computation that answers went through its first part. -/
theorem except_bind_ok {α β : Type} {x : Except DecodeError α} {f : α → Except DecodeError β} {r : β}
    (h : (x >>= f) = .ok r) : ∃ a, x = .ok a ∧ f a = .ok r := by
  cases x with
  | ok a => exact ⟨a, rfl, h⟩
  | error e => cases h

theorem takeSeq_fits {b d rest : List Byte} (h : takeSeq b = .ok (d, rest)) : fitsLength d = true := by
  unfold takeSeq at h
  split at h
  · cases h
  · next n r _ =>
    split at h
    · cases h
    · cases h
      have := n.isLt
      simp only [fitsLength, List.length_take, decide_eq_true_eq]
      omega

/-- A request that decodes is well-formed: its byte sequences have 32-bit lengths, its handler references `HANDLER_W` bits. -/
theorem decodeRequest_wellFormed {f : Formats} {r : List Byte} {i : Instr} (h : decodeRequest f r = .ok i) :
    i.wellFormed f = true := by
  cases r with
  | nil => cases h
  | cons op b =>
    simp only [decodeRequest, decodeOperands] at h
    split at h
    all_goals try (cases h; rfl)
    all_goals try cases h
    · obtain ⟨⟨d, _⟩, hd, h⟩ := except_bind_ok h
      cases h; exact takeSeq_fits hd
    · obtain ⟨⟨k, b⟩, -, h⟩ := except_bind_ok h
      obtain ⟨⟨d, _⟩, hd, h⟩ := except_bind_ok h
      cases h; exact takeSeq_fits hd
    · obtain ⟨⟨d, b⟩, hd, h⟩ := except_bind_ok h
      obtain ⟨⟨k, _⟩, -, h⟩ := except_bind_ok h
      cases h; exact takeSeq_fits hd
    · obtain ⟨⟨k, b⟩, -, h⟩ := except_bind_ok h
      obtain ⟨⟨d, b⟩, hd, h⟩ := except_bind_ok h
      obtain ⟨⟨l, _⟩, -, h⟩ := except_bind_ok h
      cases h; exact takeSeq_fits hd
    · obtain ⟨⟨k, b⟩, -, h⟩ := except_bind_ok h
      obtain ⟨⟨n, b⟩, -, h⟩ := except_bind_ok h
      obtain ⟨⟨l, _⟩, -, h⟩ := except_bind_ok h
      cases h; rfl
    · obtain ⟨⟨id, b⟩, -, h⟩ := except_bind_ok h
      obtain ⟨⟨d, b⟩, hd, h⟩ := except_bind_ok h
      obtain ⟨⟨t, _⟩, -, h⟩ := except_bind_ok h
      cases h; exact takeSeq_fits hd
    · obtain ⟨⟨cap, b⟩, -, h⟩ := except_bind_ok h
      obtain ⟨⟨t, _⟩, -, h⟩ := except_bind_ok h
      cases h; rfl
    · obtain ⟨⟨id, b⟩, -, h⟩ := except_bind_ok h
      obtain ⟨⟨d, b⟩, hd, h⟩ := except_bind_ok h
      obtain ⟨⟨cap, b⟩, -, h⟩ := except_bind_ok h
      obtain ⟨⟨ts, b⟩, -, h⟩ := except_bind_ok h
      obtain ⟨⟨tr, _⟩, -, h⟩ := except_bind_ok h
      cases h; exact takeSeq_fits hd
    · obtain ⟨⟨id, _⟩, -, h⟩ := except_bind_ok h
      cases h; rfl
    · obtain ⟨⟨d, _⟩, hd, h⟩ := except_bind_ok h
      cases h; exact takeSeq_fits hd
    · obtain ⟨⟨id, b⟩, -, h⟩ := except_bind_ok h
      obtain ⟨⟨hd, _⟩, hh, h⟩ := except_bind_ok h
      cases h; exact takeHandler_fits hh
    · obtain ⟨⟨hd, _⟩, hh, h⟩ := except_bind_ok h
      cases h; exact takeHandler_fits hh

end Sys2Proof
end

