-- ==== Sys2Proof/Laws/Memory.lean ====
section
/-! SUPPORT. Laws of byte arrays (`20_memory.md` R61): a read after a write, the bytes a write leaves alone, the canonical form. -/

namespace Sys2Proof.Machine

@[simp] theorem readByte_nil (a : Nat) : readByte [] a = unlistedByte := rfl

/-- The offsets of a rising memory are all above its head's. -/
theorem rising_head_lt {c : Host.Cell} {m : Memory} (h : rising (c :: m) = true) : ∀ d ∈ m, c.1 < d.1 := by
  induction m generalizing c with
  | nil => simp
  | cons d m ih =>
    simp only [rising, Bool.and_eq_true, decide_eq_true_eq] at h
    intro e he
    rcases List.mem_cons.mp he with rfl | he
    · exact h.1
    · exact lt_trans h.1 (ih h.2 e he)

theorem rising_tail {c : Host.Cell} {m : Memory} (h : rising (c :: m) = true) : rising m = true := by
  cases m with
  | nil => rfl
  | cons d m => simp only [rising, Bool.and_eq_true] at h; exact h.2

theorem rising_cons {c : Host.Cell} {m : Memory} (hm : rising m = true) (h : ∀ d ∈ m, c.1 < d.1) :
    rising (c :: m) = true := by
  cases m with
  | nil => rfl
  | cons d m => simp [rising, h d (by simp), hm]

/-- An offset below every listed one reads as unlisted. -/
theorem readByte_below {m : Memory} {a : Nat} (h : ∀ d ∈ m, a < d.1) : readByte m a = unlistedByte := by
  induction m with
  | nil => rfl
  | cons c m ih =>
    have hc := h c (by simp)
    simp only [readByte, if_neg (Nat.ne_of_gt hc)]
    exact ih fun d hd => h d (List.mem_cons_of_mem _ hd)

theorem cellOf_mem {a : Nat} {b : Byte} {c : Host.Cell} (h : c ∈ cellOf a b) :
    c = (a, b) ∧ b ≠ unlistedByte := by
  unfold cellOf at h
  split at h
  · simp at h
  · next hb => exact ⟨by simpa using h, hb⟩

theorem readByte_cellOf (a : Nat) (b : Byte) (m : Memory) (x : Nat) (h : ∀ d ∈ m, a < d.1) :
    readByte (cellOf a b ++ m) x = if x = a then b else readByte m x := by
  unfold cellOf
  split
  · next hb =>
    split
    · next hx => subst hx; rw [List.nil_append, readByte_below h, hb]
    · rfl
  · simp only [List.cons_append, List.nil_append, readByte]
    by_cases hx : a = x
    · simp [hx]
    · simp [hx, Ne.symm hx]

/-- What `writeByte` can list: the cells there were, and the one written. -/
theorem writeByte_mem {m : Memory} {a : Nat} {b : Byte} {c : Host.Cell} (h : c ∈ writeByte m a b) :
    c ∈ m ∨ (c = (a, b) ∧ b ≠ unlistedByte) := by
  induction m with
  | nil => exact Or.inr (cellOf_mem h)
  | cons d m ih =>
    unfold writeByte at h
    split at h
    · rcases List.mem_cons.mp h with rfl | h
      · exact Or.inl (by simp)
      · exact (ih h).imp (List.mem_cons_of_mem _) id
    · split at h
      · rcases List.mem_append.mp h with h | h
        · exact Or.inr (cellOf_mem h)
        · exact Or.inl (List.mem_cons_of_mem _ h)
      · rcases List.mem_append.mp h with h | h
        · exact Or.inr (cellOf_mem h)
        · exact Or.inl h

theorem rising_cellOf_append {a : Nat} {b : Byte} {m : Memory} (hm : rising m = true) (h : ∀ d ∈ m, a < d.1) :
    rising (cellOf a b ++ m) = true := by
  unfold cellOf
  split
  · exact hm
  · exact rising_cons hm h

theorem writeByte_rising {m : Memory} (a : Nat) (b : Byte) (h : rising m = true) :
    rising (writeByte m a b) = true := by
  induction m with
  | nil => simpa [writeByte] using rising_cellOf_append (a := a) (b := b) (m := []) rfl (by simp)
  | cons c m ih =>
    unfold writeByte
    split
    · next hlt =>
      refine rising_cons (ih (rising_tail h)) fun d hd => ?_
      rcases writeByte_mem hd with hd | ⟨rfl, -⟩
      · exact rising_head_lt h d hd
      · exact hlt
    · next hle =>
      split
      · next heq => exact rising_cellOf_append (rising_tail h) fun d hd => heq ▸ rising_head_lt h d hd
      · next hne =>
        refine rising_cellOf_append h fun d hd => ?_
        rcases List.mem_cons.mp hd with rfl | hd
        · omega
        · have := rising_head_lt h d hd; omega

/-- Reading after one store (R61). -/
theorem readByte_writeByte {m : Memory} (h : rising m = true) (a : Nat) (b : Byte) (x : Nat) :
    readByte (writeByte m a b) x = if x = a then b else readByte m x := by
  induction m with
  | nil => simpa [writeByte] using readByte_cellOf a b [] x (by simp)
  | cons c m ih =>
    unfold writeByte
    split
    · next hlt =>
      simp only [readByte, ih (rising_tail h)]
      by_cases hc : c.1 = x
      · have : x ≠ a := by omega
        simp [hc, this]
      · simp [hc]
    · next hle =>
      split
      · next heq =>
        rw [readByte_cellOf a b m x fun d hd => heq ▸ rising_head_lt h d hd]
        by_cases hx : x = a
        · simp [hx]
        · have : c.1 ≠ x := by omega
          simp [hx, readByte, this]
      · next hne =>
        refine readByte_cellOf a b (c :: m) x fun d hd => ?_
        rcases List.mem_cons.mp hd with rfl | hd
        · omega
        · have := rising_head_lt h d hd; omega

theorem Memory.wf_rising {m : Memory} (h : Memory.wf m = true) : rising m = true := by
  simp only [Memory.wf, Bool.and_eq_true] at h
  exact h.1

theorem Memory.wf_nil : Memory.wf [] = true := rfl

/-- `writeByte` keeps the canonical form. -/
theorem writeByte_wf {m : Memory} (a : Nat) (b : Byte) (h : Memory.wf m = true) : Memory.wf (writeByte m a b) = true := by
  simp only [Memory.wf, Bool.and_eq_true, List.all_eq_true, decide_eq_true_eq] at h ⊢
  refine ⟨writeByte_rising a b h.1, fun c hc => ?_⟩
  rcases writeByte_mem hc with hc | ⟨rfl, hb⟩
  · exact h.2 c hc
  · exact hb

/-- `writeBytes` keeps the canonical form. -/
theorem writeBytes_wf {m : Memory} (a : Nat) (v : List Byte) (h : Memory.wf m = true) :
    Memory.wf (writeBytes m a v) = true := by
  induction v generalizing m a with
  | nil => exact h
  | cons b v ih => exact ih (a + 1) (writeByte_wf a b h)

/-- `writeCells` keeps the canonical form. -/
theorem writeCells_wf {m : Memory} (v : List (Nat × Byte)) (h : Memory.wf m = true) :
    Memory.wf (writeCells m v) = true := by
  induction v generalizing m with
  | nil => exact h
  | cons c v ih => exact ih (writeByte_wf c.1 c.2 h)

theorem Memory.within_mem {m : Memory} {cap : Nat} : Memory.within m cap = true ↔ ∀ c ∈ m, c.1 < cap := by
  simp [Memory.within]

theorem writeByte_within {m : Memory} {cap a : Nat} (b : Byte) (h : Memory.within m cap = true) (ha : a < cap) :
    Memory.within (writeByte m a b) cap = true := by
  rw [Memory.within_mem] at h ⊢
  intro c hc
  rcases writeByte_mem hc with hc | ⟨rfl, -⟩
  · exact h c hc
  · exact ha

theorem writeBytes_within {m : Memory} {cap a : Nat} {v : List Byte} (h : Memory.within m cap = true)
    (ha : a + v.length ≤ cap) : Memory.within (writeBytes m a v) cap = true := by
  induction v generalizing m a with
  | nil => exact h
  | cons b v ih =>
    simp only [List.length_cons] at ha
    exact ih (writeByte_within b h (by omega)) (by omega)

theorem writeCells_within {m : Memory} {cap : Nat} {v : List (Nat × Byte)} (h : Memory.within m cap = true)
    (ha : ∀ c ∈ v, c.1 < cap) : Memory.within (writeCells m v) cap = true := by
  induction v generalizing m with
  | nil => exact h
  | cons c v ih =>
    exact ih (writeByte_within c.2 h (ha c (by simp))) fun d hd => ha d (List.mem_cons_of_mem _ hd)

theorem writeBytes_rising {m : Memory} (a : Nat) (v : List Byte) (h : rising m = true) :
    rising (writeBytes m a v) = true := by
  induction v generalizing m a with
  | nil => exact h
  | cons b v ih => exact ih (a + 1) (writeByte_rising a b h)

@[simp] theorem readBytes_length (m : Memory) (a n : Nat) : (readBytes m a n).length = n := by
  induction n generalizing a with
  | zero => rfl
  | succ n ih => simp [readBytes, ih]

end Sys2Proof.Machine
end

