-- ==== Sys2Proof/Laws/State.lean ====
section
/-! SUPPORT. One lemma per field per named update of the state, each true by unfolding, so that no later proof unfolds a record
update. -/

namespace Sys2Proof.Machine

/-! ### `finish` -/

@[simp] theorem finish_params (st : Status) (r : Result) (s : State) : (finish st r s).params = s.params := rfl
@[simp] theorem finish_retryCnt (st : Status) (r : Result) (s : State) : (finish st r s).retryCnt = s.retryCnt := rfl
@[simp] theorem finish_t0 (st : Status) (r : Result) (s : State) : (finish st r s).t0 = s.t0 := rfl
@[simp] theorem finish_status (st : Status) (r : Result) (s : State) : (finish st r s).status = st := rfl
@[simp] theorem finish_state (st : Status) (r : Result) (s : State) : (finish st r s).state = restState s.params.role := rfl
@[simp] theorem finish_phase (st : Status) (r : Result) (s : State) : (finish st r s).phase = restPhase s.params.role := rfl
@[simp] theorem finish_curRpcId (st : Status) (r : Result) (s : State) : (finish st r s).curRpcId = s.curRpcId := rfl
@[simp] theorem finish_bufLen (st : Status) (r : Result) (s : State) : (finish st r s).bufLen = s.bufLen := rfl
@[simp] theorem finish_buf (st : Status) (r : Result) (s : State) : (finish st r s).buf = s.buf := rfl
@[simp] theorem finish_cbCount (st : Status) (r : Result) (s : State) : (finish st r s).cbCount = s.cbCount := rfl
@[simp] theorem finish_cb (st : Status) (r : Result) (s : State) : (finish st r s).cb = s.cb := rfl
@[simp] theorem finish_defValid (st : Status) (r : Result) (s : State) : (finish st r s).defValid = s.defValid := rfl
@[simp] theorem finish_defHandler (st : Status) (r : Result) (s : State) : (finish st r s).defHandler = s.defHandler := rfl
@[simp] theorem finish_frame (st : Status) (r : Result) (s : State) : (finish st r s).frame = [] := rfl
@[simp] theorem finish_respBuf (st : Status) (r : Result) (s : State) : (finish st r s).respBuf = s.respBuf := rfl
@[simp] theorem finish_respLen (st : Status) (r : Result) (s : State) : (finish st r s).respLen = s.respLen := rfl
@[simp] theorem finish_result (st : Status) (r : Result) (s : State) : (finish st r s).result = if st = .ok then r else .nothing := rfl
@[simp] theorem finish_job (st : Status) (r : Result) (s : State) : (finish st r s).job = .idle := rfl
@[simp] theorem finish_exch (st : Status) (r : Result) (s : State) : (finish st r s).exch = .idle := rfl
@[simp] theorem finish_rx (st : Status) (r : Result) (s : State) : (finish st r s).rx = s.rx := rfl
@[simp] theorem finish_tx (st : Status) (r : Result) (s : State) : (finish st r s).tx = s.tx := rfl
@[simp] theorem finish_now (st : Status) (r : Result) (s : State) : (finish st r s).now = s.now := rfl
@[simp] theorem finish_hostPort (st : Status) (r : Result) (s : State) : (finish st r s).hostPort = s.hostPort := rfl
@[simp] theorem finish_writes (st : Status) (r : Result) (s : State) : (finish st r s).writes = s.writes := rfl
@[simp] theorem finish_link (st : Status) (r : Result) (s : State) : (finish st r s).link = s.link := rfl
@[simp] theorem finish_handlers (st : Status) (r : Result) (s : State) : (finish st r s).handlers = s.handlers := rfl
@[simp] theorem finish_clock (st : Status) (r : Result) (s : State) : (finish st r s).clock = s.clock := rfl
@[simp] theorem finish_draws (st : Status) (r : Result) (s : State) : (finish st r s).draws = s.draws := rfl
@[simp] theorem finish_calls (st : Status) (r : Result) (s : State) : (finish st r s).calls = s.calls := rfl

/-! ### `completeInPlace` -/

@[simp] theorem completeInPlace_params (st : Status) (r : Result) (s : State) : (completeInPlace st r s).params = s.params := rfl
@[simp] theorem completeInPlace_retryCnt (st : Status) (r : Result) (s : State) : (completeInPlace st r s).retryCnt = s.retryCnt := rfl
@[simp] theorem completeInPlace_t0 (st : Status) (r : Result) (s : State) : (completeInPlace st r s).t0 = s.t0 := rfl
@[simp] theorem completeInPlace_status (st : Status) (r : Result) (s : State) : (completeInPlace st r s).status = st := rfl
@[simp] theorem completeInPlace_state (st : Status) (r : Result) (s : State) : (completeInPlace st r s).state = s.state := rfl
@[simp] theorem completeInPlace_phase (st : Status) (r : Result) (s : State) : (completeInPlace st r s).phase = s.phase := rfl
@[simp] theorem completeInPlace_curRpcId (st : Status) (r : Result) (s : State) : (completeInPlace st r s).curRpcId = s.curRpcId := rfl
@[simp] theorem completeInPlace_bufLen (st : Status) (r : Result) (s : State) : (completeInPlace st r s).bufLen = s.bufLen := rfl
@[simp] theorem completeInPlace_buf (st : Status) (r : Result) (s : State) : (completeInPlace st r s).buf = s.buf := rfl
@[simp] theorem completeInPlace_cbCount (st : Status) (r : Result) (s : State) : (completeInPlace st r s).cbCount = s.cbCount := rfl
@[simp] theorem completeInPlace_cb (st : Status) (r : Result) (s : State) : (completeInPlace st r s).cb = s.cb := rfl
@[simp] theorem completeInPlace_defValid (st : Status) (r : Result) (s : State) : (completeInPlace st r s).defValid = s.defValid := rfl
@[simp] theorem completeInPlace_defHandler (st : Status) (r : Result) (s : State) : (completeInPlace st r s).defHandler = s.defHandler := rfl
@[simp] theorem completeInPlace_frame (st : Status) (r : Result) (s : State) : (completeInPlace st r s).frame = s.frame := rfl
@[simp] theorem completeInPlace_respBuf (st : Status) (r : Result) (s : State) : (completeInPlace st r s).respBuf = s.respBuf := rfl
@[simp] theorem completeInPlace_respLen (st : Status) (r : Result) (s : State) : (completeInPlace st r s).respLen = s.respLen := rfl
@[simp] theorem completeInPlace_result (st : Status) (r : Result) (s : State) : (completeInPlace st r s).result = if st = .ok then r else .nothing := rfl
@[simp] theorem completeInPlace_job (st : Status) (r : Result) (s : State) : (completeInPlace st r s).job = s.job := rfl
@[simp] theorem completeInPlace_exch (st : Status) (r : Result) (s : State) : (completeInPlace st r s).exch = s.exch := rfl
@[simp] theorem completeInPlace_rx (st : Status) (r : Result) (s : State) : (completeInPlace st r s).rx = s.rx := rfl
@[simp] theorem completeInPlace_tx (st : Status) (r : Result) (s : State) : (completeInPlace st r s).tx = s.tx := rfl
@[simp] theorem completeInPlace_now (st : Status) (r : Result) (s : State) : (completeInPlace st r s).now = s.now := rfl
@[simp] theorem completeInPlace_hostPort (st : Status) (r : Result) (s : State) : (completeInPlace st r s).hostPort = s.hostPort := rfl
@[simp] theorem completeInPlace_writes (st : Status) (r : Result) (s : State) : (completeInPlace st r s).writes = s.writes := rfl
@[simp] theorem completeInPlace_link (st : Status) (r : Result) (s : State) : (completeInPlace st r s).link = s.link := rfl
@[simp] theorem completeInPlace_handlers (st : Status) (r : Result) (s : State) : (completeInPlace st r s).handlers = s.handlers := rfl
@[simp] theorem completeInPlace_clock (st : Status) (r : Result) (s : State) : (completeInPlace st r s).clock = s.clock := rfl
@[simp] theorem completeInPlace_draws (st : Status) (r : Result) (s : State) : (completeInPlace st r s).draws = s.draws := rfl
@[simp] theorem completeInPlace_calls (st : Status) (r : Result) (s : State) : (completeInPlace st r s).calls = s.calls := rfl

/-! ### `refuse` -/

@[simp] theorem refuse_params (s : State) : (refuse s).params = s.params := rfl
@[simp] theorem refuse_retryCnt (s : State) : (refuse s).retryCnt = s.retryCnt := rfl
@[simp] theorem refuse_t0 (s : State) : (refuse s).t0 = s.t0 := rfl
@[simp] theorem refuse_status (s : State) : (refuse s).status = .badOp := rfl
@[simp] theorem refuse_state (s : State) : (refuse s).state = s.state := rfl
@[simp] theorem refuse_phase (s : State) : (refuse s).phase = s.phase := rfl
@[simp] theorem refuse_curRpcId (s : State) : (refuse s).curRpcId = s.curRpcId := rfl
@[simp] theorem refuse_bufLen (s : State) : (refuse s).bufLen = s.bufLen := rfl
@[simp] theorem refuse_buf (s : State) : (refuse s).buf = s.buf := rfl
@[simp] theorem refuse_cbCount (s : State) : (refuse s).cbCount = s.cbCount := rfl
@[simp] theorem refuse_cb (s : State) : (refuse s).cb = s.cb := rfl
@[simp] theorem refuse_defValid (s : State) : (refuse s).defValid = s.defValid := rfl
@[simp] theorem refuse_defHandler (s : State) : (refuse s).defHandler = s.defHandler := rfl
@[simp] theorem refuse_frame (s : State) : (refuse s).frame = s.frame := rfl
@[simp] theorem refuse_respBuf (s : State) : (refuse s).respBuf = s.respBuf := rfl
@[simp] theorem refuse_respLen (s : State) : (refuse s).respLen = s.respLen := rfl
@[simp] theorem refuse_result (s : State) : (refuse s).result = .nothing := rfl
@[simp] theorem refuse_job (s : State) : (refuse s).job = s.job := rfl
@[simp] theorem refuse_exch (s : State) : (refuse s).exch = s.exch := rfl
@[simp] theorem refuse_rx (s : State) : (refuse s).rx = s.rx := rfl
@[simp] theorem refuse_tx (s : State) : (refuse s).tx = s.tx := rfl
@[simp] theorem refuse_now (s : State) : (refuse s).now = s.now := rfl
@[simp] theorem refuse_hostPort (s : State) : (refuse s).hostPort = s.hostPort := rfl
@[simp] theorem refuse_writes (s : State) : (refuse s).writes = s.writes := rfl
@[simp] theorem refuse_link (s : State) : (refuse s).link = s.link := rfl
@[simp] theorem refuse_handlers (s : State) : (refuse s).handlers = s.handlers := rfl
@[simp] theorem refuse_clock (s : State) : (refuse s).clock = s.clock := rfl
@[simp] theorem refuse_draws (s : State) : (refuse s).draws = s.draws := rfl
@[simp] theorem refuse_calls (s : State) : (refuse s).calls = s.calls := rfl

/-! ### `record` -/

@[simp] theorem record_params (p : Prim) (s : State) : (record p s).params = s.params := rfl
@[simp] theorem record_retryCnt (p : Prim) (s : State) : (record p s).retryCnt = s.retryCnt := rfl
@[simp] theorem record_t0 (p : Prim) (s : State) : (record p s).t0 = s.t0 := rfl
@[simp] theorem record_status (p : Prim) (s : State) : (record p s).status = s.status := rfl
@[simp] theorem record_state (p : Prim) (s : State) : (record p s).state = s.state := rfl
@[simp] theorem record_phase (p : Prim) (s : State) : (record p s).phase = s.phase := rfl
@[simp] theorem record_curRpcId (p : Prim) (s : State) : (record p s).curRpcId = s.curRpcId := rfl
@[simp] theorem record_bufLen (p : Prim) (s : State) : (record p s).bufLen = s.bufLen := rfl
@[simp] theorem record_buf (p : Prim) (s : State) : (record p s).buf = s.buf := rfl
@[simp] theorem record_cbCount (p : Prim) (s : State) : (record p s).cbCount = s.cbCount := rfl
@[simp] theorem record_cb (p : Prim) (s : State) : (record p s).cb = s.cb := rfl
@[simp] theorem record_defValid (p : Prim) (s : State) : (record p s).defValid = s.defValid := rfl
@[simp] theorem record_defHandler (p : Prim) (s : State) : (record p s).defHandler = s.defHandler := rfl
@[simp] theorem record_frame (p : Prim) (s : State) : (record p s).frame = s.frame := rfl
@[simp] theorem record_respBuf (p : Prim) (s : State) : (record p s).respBuf = s.respBuf := rfl
@[simp] theorem record_respLen (p : Prim) (s : State) : (record p s).respLen = s.respLen := rfl
@[simp] theorem record_result (p : Prim) (s : State) : (record p s).result = s.result := rfl
@[simp] theorem record_job (p : Prim) (s : State) : (record p s).job = s.job := rfl
@[simp] theorem record_exch (p : Prim) (s : State) : (record p s).exch = s.exch := rfl
@[simp] theorem record_rx (p : Prim) (s : State) : (record p s).rx = s.rx := rfl
@[simp] theorem record_tx (p : Prim) (s : State) : (record p s).tx = s.tx := rfl
@[simp] theorem record_now (p : Prim) (s : State) : (record p s).now = s.now := rfl
@[simp] theorem record_hostPort (p : Prim) (s : State) : (record p s).hostPort = s.hostPort := rfl
@[simp] theorem record_writes (p : Prim) (s : State) : (record p s).writes = s.writes := rfl
@[simp] theorem record_link (p : Prim) (s : State) : (record p s).link = s.link := rfl
@[simp] theorem record_handlers (p : Prim) (s : State) : (record p s).handlers = s.handlers := rfl
@[simp] theorem record_clock (p : Prim) (s : State) : (record p s).clock = s.clock := rfl
@[simp] theorem record_draws (p : Prim) (s : State) : (record p s).draws = s.draws := rfl
@[simp] theorem record_calls (p : Prim) (s : State) : (record p s).calls = s.calls ++ [⟨s.state, s.phase, p⟩] := rfl

/-! ### `tick` -/

@[simp] theorem tick_params (d : Word) (s : State) : (tick d s).params = s.params := rfl
@[simp] theorem tick_retryCnt (d : Word) (s : State) : (tick d s).retryCnt = s.retryCnt := rfl
@[simp] theorem tick_t0 (d : Word) (s : State) : (tick d s).t0 = s.t0 := rfl
@[simp] theorem tick_status (d : Word) (s : State) : (tick d s).status = s.status := rfl
@[simp] theorem tick_state (d : Word) (s : State) : (tick d s).state = s.state := rfl
@[simp] theorem tick_phase (d : Word) (s : State) : (tick d s).phase = s.phase := rfl
@[simp] theorem tick_curRpcId (d : Word) (s : State) : (tick d s).curRpcId = s.curRpcId := rfl
@[simp] theorem tick_bufLen (d : Word) (s : State) : (tick d s).bufLen = s.bufLen := rfl
@[simp] theorem tick_buf (d : Word) (s : State) : (tick d s).buf = s.buf := rfl
@[simp] theorem tick_cbCount (d : Word) (s : State) : (tick d s).cbCount = s.cbCount := rfl
@[simp] theorem tick_cb (d : Word) (s : State) : (tick d s).cb = s.cb := rfl
@[simp] theorem tick_defValid (d : Word) (s : State) : (tick d s).defValid = s.defValid := rfl
@[simp] theorem tick_defHandler (d : Word) (s : State) : (tick d s).defHandler = s.defHandler := rfl
@[simp] theorem tick_frame (d : Word) (s : State) : (tick d s).frame = s.frame := rfl
@[simp] theorem tick_respBuf (d : Word) (s : State) : (tick d s).respBuf = s.respBuf := rfl
@[simp] theorem tick_respLen (d : Word) (s : State) : (tick d s).respLen = s.respLen := rfl
@[simp] theorem tick_result (d : Word) (s : State) : (tick d s).result = s.result := rfl
@[simp] theorem tick_job (d : Word) (s : State) : (tick d s).job = s.job := rfl
@[simp] theorem tick_exch (d : Word) (s : State) : (tick d s).exch = s.exch := rfl
@[simp] theorem tick_rx (d : Word) (s : State) : (tick d s).rx = s.rx := rfl
@[simp] theorem tick_tx (d : Word) (s : State) : (tick d s).tx = s.tx := rfl
@[simp] theorem tick_now (d : Word) (s : State) : (tick d s).now = s.now + d := rfl
@[simp] theorem tick_hostPort (d : Word) (s : State) : (tick d s).hostPort = s.hostPort := rfl
@[simp] theorem tick_writes (d : Word) (s : State) : (tick d s).writes = s.writes := rfl
@[simp] theorem tick_link (d : Word) (s : State) : (tick d s).link = s.link := rfl
@[simp] theorem tick_handlers (d : Word) (s : State) : (tick d s).handlers = s.handlers := rfl
@[simp] theorem tick_clock (d : Word) (s : State) : (tick d s).clock = s.clock := rfl
@[simp] theorem tick_draws (d : Word) (s : State) : (tick d s).draws = s.draws + 1 := rfl
@[simp] theorem tick_calls (d : Word) (s : State) : (tick d s).calls = s.calls ++ [⟨s.state, s.phase, .now (s.now + d)⟩] := rfl

/-! ### `sampleT0` -/

@[simp] theorem sampleT0_params (d : Word) (s : State) : (sampleT0 d s).params = s.params := rfl
@[simp] theorem sampleT0_retryCnt (d : Word) (s : State) : (sampleT0 d s).retryCnt = s.retryCnt := rfl
@[simp] theorem sampleT0_t0 (d : Word) (s : State) : (sampleT0 d s).t0 = s.now + d := rfl
@[simp] theorem sampleT0_status (d : Word) (s : State) : (sampleT0 d s).status = s.status := rfl
@[simp] theorem sampleT0_state (d : Word) (s : State) : (sampleT0 d s).state = s.state := rfl
@[simp] theorem sampleT0_phase (d : Word) (s : State) : (sampleT0 d s).phase = s.phase := rfl
@[simp] theorem sampleT0_curRpcId (d : Word) (s : State) : (sampleT0 d s).curRpcId = s.curRpcId := rfl
@[simp] theorem sampleT0_bufLen (d : Word) (s : State) : (sampleT0 d s).bufLen = s.bufLen := rfl
@[simp] theorem sampleT0_buf (d : Word) (s : State) : (sampleT0 d s).buf = s.buf := rfl
@[simp] theorem sampleT0_cbCount (d : Word) (s : State) : (sampleT0 d s).cbCount = s.cbCount := rfl
@[simp] theorem sampleT0_cb (d : Word) (s : State) : (sampleT0 d s).cb = s.cb := rfl
@[simp] theorem sampleT0_defValid (d : Word) (s : State) : (sampleT0 d s).defValid = s.defValid := rfl
@[simp] theorem sampleT0_defHandler (d : Word) (s : State) : (sampleT0 d s).defHandler = s.defHandler := rfl
@[simp] theorem sampleT0_frame (d : Word) (s : State) : (sampleT0 d s).frame = s.frame := rfl
@[simp] theorem sampleT0_respBuf (d : Word) (s : State) : (sampleT0 d s).respBuf = s.respBuf := rfl
@[simp] theorem sampleT0_respLen (d : Word) (s : State) : (sampleT0 d s).respLen = s.respLen := rfl
@[simp] theorem sampleT0_result (d : Word) (s : State) : (sampleT0 d s).result = s.result := rfl
@[simp] theorem sampleT0_job (d : Word) (s : State) : (sampleT0 d s).job = s.job := rfl
@[simp] theorem sampleT0_exch (d : Word) (s : State) : (sampleT0 d s).exch = s.exch := rfl
@[simp] theorem sampleT0_rx (d : Word) (s : State) : (sampleT0 d s).rx = s.rx := rfl
@[simp] theorem sampleT0_tx (d : Word) (s : State) : (sampleT0 d s).tx = s.tx := rfl
@[simp] theorem sampleT0_now (d : Word) (s : State) : (sampleT0 d s).now = s.now + d := rfl
@[simp] theorem sampleT0_hostPort (d : Word) (s : State) : (sampleT0 d s).hostPort = s.hostPort := rfl
@[simp] theorem sampleT0_writes (d : Word) (s : State) : (sampleT0 d s).writes = s.writes := rfl
@[simp] theorem sampleT0_link (d : Word) (s : State) : (sampleT0 d s).link = s.link := rfl
@[simp] theorem sampleT0_handlers (d : Word) (s : State) : (sampleT0 d s).handlers = s.handlers := rfl
@[simp] theorem sampleT0_clock (d : Word) (s : State) : (sampleT0 d s).clock = s.clock := rfl
@[simp] theorem sampleT0_draws (d : Word) (s : State) : (sampleT0 d s).draws = s.draws + 1 := rfl
@[simp] theorem sampleT0_calls (d : Word) (s : State) : (sampleT0 d s).calls = s.calls ++ [⟨s.state, s.phase, .now (s.now + d)⟩] := rfl

/-! ### `clearDeferred` -/

@[simp] theorem clearDeferred_params (s : State) : (clearDeferred s).params = s.params := rfl
@[simp] theorem clearDeferred_retryCnt (s : State) : (clearDeferred s).retryCnt = s.retryCnt := rfl
@[simp] theorem clearDeferred_t0 (s : State) : (clearDeferred s).t0 = s.t0 := rfl
@[simp] theorem clearDeferred_status (s : State) : (clearDeferred s).status = s.status := rfl
@[simp] theorem clearDeferred_state (s : State) : (clearDeferred s).state = s.state := rfl
@[simp] theorem clearDeferred_phase (s : State) : (clearDeferred s).phase = s.phase := rfl
@[simp] theorem clearDeferred_curRpcId (s : State) : (clearDeferred s).curRpcId = s.curRpcId := rfl
@[simp] theorem clearDeferred_bufLen (s : State) : (clearDeferred s).bufLen = s.bufLen := rfl
@[simp] theorem clearDeferred_buf (s : State) : (clearDeferred s).buf = s.buf := rfl
@[simp] theorem clearDeferred_cbCount (s : State) : (clearDeferred s).cbCount = s.cbCount := rfl
@[simp] theorem clearDeferred_cb (s : State) : (clearDeferred s).cb = s.cb := rfl
@[simp] theorem clearDeferred_defValid (s : State) : (clearDeferred s).defValid = false := rfl
@[simp] theorem clearDeferred_defHandler (s : State) : (clearDeferred s).defHandler = s.defHandler := rfl
@[simp] theorem clearDeferred_frame (s : State) : (clearDeferred s).frame = s.frame := rfl
@[simp] theorem clearDeferred_respBuf (s : State) : (clearDeferred s).respBuf = s.respBuf := rfl
@[simp] theorem clearDeferred_respLen (s : State) : (clearDeferred s).respLen = s.respLen := rfl
@[simp] theorem clearDeferred_result (s : State) : (clearDeferred s).result = s.result := rfl
@[simp] theorem clearDeferred_job (s : State) : (clearDeferred s).job = s.job := rfl
@[simp] theorem clearDeferred_exch (s : State) : (clearDeferred s).exch = s.exch := rfl
@[simp] theorem clearDeferred_rx (s : State) : (clearDeferred s).rx = s.rx := rfl
@[simp] theorem clearDeferred_tx (s : State) : (clearDeferred s).tx = s.tx := rfl
@[simp] theorem clearDeferred_now (s : State) : (clearDeferred s).now = s.now := rfl
@[simp] theorem clearDeferred_hostPort (s : State) : (clearDeferred s).hostPort = s.hostPort := rfl
@[simp] theorem clearDeferred_writes (s : State) : (clearDeferred s).writes = s.writes := rfl
@[simp] theorem clearDeferred_link (s : State) : (clearDeferred s).link = s.link := rfl
@[simp] theorem clearDeferred_handlers (s : State) : (clearDeferred s).handlers = s.handlers := rfl
@[simp] theorem clearDeferred_clock (s : State) : (clearDeferred s).clock = s.clock := rfl
@[simp] theorem clearDeferred_draws (s : State) : (clearDeferred s).draws = s.draws := rfl
@[simp] theorem clearDeferred_calls (s : State) : (clearDeferred s).calls = s.calls := rfl

/-! ### `storeResponse` -/

@[simp] theorem storeResponse_params (d : List Byte) (n : Word) (s : State) : (storeResponse d n s).params = s.params := rfl
@[simp] theorem storeResponse_retryCnt (d : List Byte) (n : Word) (s : State) : (storeResponse d n s).retryCnt = s.retryCnt := rfl
@[simp] theorem storeResponse_t0 (d : List Byte) (n : Word) (s : State) : (storeResponse d n s).t0 = s.t0 := rfl
@[simp] theorem storeResponse_status (d : List Byte) (n : Word) (s : State) : (storeResponse d n s).status = s.status := rfl
@[simp] theorem storeResponse_state (d : List Byte) (n : Word) (s : State) : (storeResponse d n s).state = s.state := rfl
@[simp] theorem storeResponse_phase (d : List Byte) (n : Word) (s : State) : (storeResponse d n s).phase = s.phase := rfl
@[simp] theorem storeResponse_curRpcId (d : List Byte) (n : Word) (s : State) : (storeResponse d n s).curRpcId = s.curRpcId := rfl
@[simp] theorem storeResponse_bufLen (d : List Byte) (n : Word) (s : State) : (storeResponse d n s).bufLen = s.bufLen := rfl
@[simp] theorem storeResponse_buf (d : List Byte) (n : Word) (s : State) : (storeResponse d n s).buf = s.buf := rfl
@[simp] theorem storeResponse_cbCount (d : List Byte) (n : Word) (s : State) : (storeResponse d n s).cbCount = s.cbCount := rfl
@[simp] theorem storeResponse_cb (d : List Byte) (n : Word) (s : State) : (storeResponse d n s).cb = s.cb := rfl
@[simp] theorem storeResponse_defValid (d : List Byte) (n : Word) (s : State) : (storeResponse d n s).defValid = s.defValid := rfl
@[simp] theorem storeResponse_defHandler (d : List Byte) (n : Word) (s : State) : (storeResponse d n s).defHandler = s.defHandler := rfl
@[simp] theorem storeResponse_frame (d : List Byte) (n : Word) (s : State) : (storeResponse d n s).frame = s.frame := rfl
@[simp] theorem storeResponse_respBuf (d : List Byte) (n : Word) (s : State) : (storeResponse d n s).respBuf = writeBytes s.respBuf 0 d := rfl
@[simp] theorem storeResponse_respLen (d : List Byte) (n : Word) (s : State) : (storeResponse d n s).respLen = n := rfl
@[simp] theorem storeResponse_result (d : List Byte) (n : Word) (s : State) : (storeResponse d n s).result = s.result := rfl
@[simp] theorem storeResponse_job (d : List Byte) (n : Word) (s : State) : (storeResponse d n s).job = s.job := rfl
@[simp] theorem storeResponse_exch (d : List Byte) (n : Word) (s : State) : (storeResponse d n s).exch = s.exch := rfl
@[simp] theorem storeResponse_rx (d : List Byte) (n : Word) (s : State) : (storeResponse d n s).rx = s.rx := rfl
@[simp] theorem storeResponse_tx (d : List Byte) (n : Word) (s : State) : (storeResponse d n s).tx = s.tx := rfl
@[simp] theorem storeResponse_now (d : List Byte) (n : Word) (s : State) : (storeResponse d n s).now = s.now := rfl
@[simp] theorem storeResponse_hostPort (d : List Byte) (n : Word) (s : State) : (storeResponse d n s).hostPort = s.hostPort := rfl
@[simp] theorem storeResponse_writes (d : List Byte) (n : Word) (s : State) : (storeResponse d n s).writes = s.writes := rfl
@[simp] theorem storeResponse_link (d : List Byte) (n : Word) (s : State) : (storeResponse d n s).link = s.link := rfl
@[simp] theorem storeResponse_handlers (d : List Byte) (n : Word) (s : State) : (storeResponse d n s).handlers = s.handlers := rfl
@[simp] theorem storeResponse_clock (d : List Byte) (n : Word) (s : State) : (storeResponse d n s).clock = s.clock := rfl
@[simp] theorem storeResponse_draws (d : List Byte) (n : Word) (s : State) : (storeResponse d n s).draws = s.draws := rfl
@[simp] theorem storeResponse_calls (d : List Byte) (n : Word) (s : State) : (storeResponse d n s).calls = s.calls := rfl

end Sys2Proof.Machine
end

