-- ==== Sys2Proof/Laws/Invariant.lean ====
section
/-! SUPPORT. Every shared operation keeps the invariant of `Safety.lean`, said once for each: the data part (registers, table,
memories) and the agreement of the sequencer with the operation in progress. -/

namespace Sys2Proof.Machine

/-- The data part of the invariant: all of it but the sequencer and the check in progress. -/
structure State.DataInv (s : State) : Prop where
  params : s.params.wf = true
  bufWf : s.buf.wf = true
  bufWithin : s.buf.within s.params.bufCap = true
  respWf : s.respBuf.wf = true
  bufLen : s.bufLen.toNat ≤ s.params.bufCap
  tableSize : s.cb.length = s.params.maxCallbacks
  tableCount : s.cbCount.toNat ≤ s.params.maxCallbacks
  tableDistinct : ((entriesInUse s).map CbEntry.id).Nodup
  handlersFit : Handler.fits s.params.handlerW s.defHandler = true ∧
    ∀ e ∈ s.cb, Handler.fits s.params.handlerW e.handler = true
  retry : s.retryCnt.toNat ≤ (retryReset s.params.role).toNat

theorem State.Inv.data {s : State} (h : s.Inv) : s.DataInv :=
  ⟨h.params, h.bufWf, h.bufWithin, h.respWf, h.bufLen, h.tableSize, h.tableCount, h.tableDistinct, h.handlersFit, h.retry⟩

theorem State.DataInv.inv {s : State} (h : s.DataInv) (q : sequencerLegal s = true)
    (c : checking s = true → s.retryCnt ≠ 0) : s.Inv :=
  ⟨h.params, h.bufWf, h.bufWithin, h.respWf, h.bufLen, h.tableSize, h.tableCount, h.tableDistinct, h.handlersFit, h.retry, c, q⟩

/-- Outside a deadline check the data part and the sequencer are all there is. -/
theorem State.DataInv.inv' {s : State} (h : s.DataInv) (q : sequencerLegal s = true) (c : checking s = false) : s.Inv :=
  h.inv q fun hc => by rw [c] at hc; cases hc

/-- The data part depends on these fields only. -/
theorem State.DataInv.congr {s t : State} (h : s.DataInv) (hp : t.params = s.params) (hb : t.buf = s.buf)
    (hr : t.respBuf = s.respBuf) (hl : t.bufLen = s.bufLen) (hc : t.cb = s.cb) (hn : t.cbCount = s.cbCount)
    (hd : t.defHandler = s.defHandler) (hretry : t.retryCnt.toNat ≤ (retryReset s.params.role).toNat) : t.DataInv := by
  obtain ⟨h1, h2, h3, h4, h5, h6, h7, h8, h9, h10⟩ := h
  refine ⟨?_, ?_, ?_, ?_, ?_, ?_, ?_, ?_, ?_, ?_⟩ <;> simp_all [entriesInUse]

/-- The sequencer's part depends on these fields only. -/
theorem sequencerLegal_congr {s t : State} (hp : t.params = s.params) (hj : t.job = s.job) (hs : t.state = s.state)
    (hph : t.phase = s.phase) (he : t.exch = s.exch) : sequencerLegal t = sequencerLegal s := by
  simp only [sequencerLegal, sequencerResting, sequencerAt, sending, receiving, receivingForHost, hp, hj, hs, hph, he]

theorem checking_congr {s t : State} (he : t.exch = s.exch) : checking t = checking s := by
  simp only [checking, he]

theorem checking_put {s : State} {long : Option Word} (h : s.exch = .put long) : checking s = false := by
  simp [checking, h]

theorem checking_get {s : State} {k : Kind} {n : Word} {long : Option Word} {f : Status} (h : s.exch = .get k n long f) :
    checking s = false := by
  simp [checking, h]

theorem checking_idle {s : State} (h : s.exch = .idle) : checking s = false := by
  simp [checking, h]

/-! ### Ending an operation -/

theorem finish_sequencerLegal (st : Status) (r : Result) (s : State) : sequencerLegal (finish st r s) = true := by
  simp [sequencerLegal, sequencerResting, sequencerAt]

/-- `finish` answers a state at rest that keeps the invariant. -/
theorem finish_inv {s : State} (h : s.DataInv) (st : Status) (r : Result) : (finish st r s).Inv :=
  (h.congr (t := finish st r s) rfl rfl rfl rfl rfl rfl rfl h.retry).inv' (finish_sequencerLegal st r s) (checking_idle rfl)

theorem clearDeferred_data {s : State} (h : s.DataInv) : (clearDeferred s).DataInv :=
  h.congr rfl rfl rfl rfl rfl rfl rfl h.retry

theorem tick_data {s : State} (h : s.DataInv) (d : Word) : (tick d s).DataInv :=
  h.congr rfl rfl rfl rfl rfl rfl rfl h.retry

theorem sampleT0_data {s : State} (h : s.DataInv) (d : Word) : (sampleT0 d s).DataInv :=
  h.congr rfl rfl rfl rfl rfl rfl rfl h.retry

theorem completeInPlace_inv {s : State} (h : s.Inv) (st : Status) (r : Result) : (completeInPlace st r s).Inv :=
  (h.data.congr (t := completeInPlace st r s) rfl rfl rfl rfl rfl rfl rfl h.retry).inv
    ((sequencerLegal_congr rfl rfl rfl rfl rfl).trans h.sequencer) (by rw [checking_congr rfl]; exact h.attemptLeft)

theorem refuse_inv {s : State} (h : s.Inv) : (refuse s).Inv := completeInPlace_inv h _ _

/-! ### The attempt loop -/

/-- A failed exchange ends the operation: one of two `finish`es. -/
theorem exchangeFailed_cases (f : Status) (s : State) :
    exchangeFailed f s = finish f .nothing s ∨ exchangeFailed f s = finish f .nothing (clearDeferred s) := by
  unfold exchangeFailed
  split
  · exact Or.inr rfl
  · exact Or.inr rfl
  · exact Or.inl rfl

theorem exchangeFailed_inv {s : State} (h : s.DataInv) (f : Status) : (exchangeFailed f s).Inv := by
  rcases exchangeFailed_cases f s with e | e <;> rw [e]
  · exact finish_inv h _ _
  · exact finish_inv (clearDeferred_data h) _ _

/-- What the head of the attempt loop can answer: the end of the operation, the time asked for, or one attempt spent and its transport
operation issued. -/
theorem attempt_cases (s : State) :
    (s.retryCnt = 0 ∧ attempt s = exchangeFailed (exhausted s) s) ∨
    (s.retryCnt ≠ 0 ∧ ∃ long, s.exch = .put (some long) ∧ attempt s = { s with exch := .putCheck long }) ∨
    (s.retryCnt ≠ 0 ∧ ∃ kind n long last, s.exch = .get kind n (some long) last ∧
      attempt s = { s with exch := .getCheck kind n long last }) ∨
    (s.retryCnt ≠ 0 ∧ attempt s = issue s) := by
  unfold attempt
  split
  · next h => exact Or.inl ⟨h, rfl⟩
  · next h =>
    split
    · next long hx => exact Or.inr (Or.inl ⟨h, long, hx, rfl⟩)
    · next kind n long last hx => exact Or.inr (Or.inr (Or.inl ⟨h, kind, n, long, last, hx, rfl⟩))
    · exact Or.inr (Or.inr (Or.inr ⟨h, rfl⟩))

/-- What a deadline check can answer. -/
theorem deadlineCheck_cases (long : Word) (s : State) :
    (deadlinePassed long s = true ∧ deadlineCheck long s = exchangeFailed .timeout s) ∨
    (deadlinePassed long s = false ∧ deadlineCheck long s = issue s) := by
  unfold deadlineCheck
  split
  · next h => exact Or.inl ⟨h, rfl⟩
  · next h => exact Or.inr ⟨by simpa using h, rfl⟩

theorem retryCnt_pred {c : BitVec 8} (h : c ≠ 0) : (c - 1).toNat = c.toNat - 1 := by
  have := c.isLt
  have h0 : c.toNat ≠ 0 := fun e => h (BitVec.eq_of_toNat_eq (by simpa using e))
  rw [BitVec.toNat_sub]
  simp
  omega

/-- One attempt less is no more than `RETRY_RESET`: the counter of the loop is never 0 there (R23). -/
theorem issue_inv {s : State} (h : s.DataInv) (q : sequencerLegal s = true) (c : checking s = false) (h0 : s.retryCnt ≠ 0) :
    (issue s).Inv := by
  have hle : (s.retryCnt - 1).toNat ≤ (retryReset s.params.role).toNat := by
    have := h.retry
    rw [retryCnt_pred h0]; omega
  refine State.DataInv.inv' ?_ ?_ ?_
  · exact h.congr rfl rfl rfl rfl rfl rfl rfl hle
  · exact (sequencerLegal_congr rfl rfl rfl rfl rfl).trans q
  · exact (checking_congr rfl).trans c

/-- Asking for the time before an attempt leaves the sequencer as legal as it was. -/
theorem putCheck_sequencer {s : State} {long : Word} (hx : s.exch = .put (some long)) :
    sequencerLegal { s with exch := .putCheck long } = sequencerLegal s := by
  simp only [sequencerLegal, sequencerResting, sequencerAt, sending, receiving, receivingForHost, hx]
  cases s.job <;> simp

theorem getCheck_sequencer {s : State} {kind : Kind} {n long : Word} {last : Status}
    (hx : s.exch = .get kind n (some long) last) :
    sequencerLegal { s with exch := .getCheck kind n long last } = sequencerLegal s := by
  simp only [sequencerLegal, sequencerResting, sequencerAt, sending, receiving, receivingForHost, hx]
  cases s.job <;> simp

/-- The attempt loop keeps the invariant. -/
theorem attempt_inv {s : State} (h : s.DataInv) (q : sequencerLegal s = true) (c : checking s = false) :
    (attempt s).Inv := by
  rcases attempt_cases s with ⟨-, e⟩ | ⟨h0, long, hx, e⟩ | ⟨h0, kind, n, long, last, hx, e⟩ | ⟨h0, e⟩ <;> rw [e]
  · exact exchangeFailed_inv h _
  · refine State.DataInv.inv ?_ ((putCheck_sequencer hx).trans q) fun _ => h0
    exact h.congr rfl rfl rfl rfl rfl rfl rfl h.retry
  · refine State.DataInv.inv ?_ ((getCheck_sequencer hx).trans q) fun _ => h0
    exact h.congr rfl rfl rfl rfl rfl rfl rfl h.retry
  · exact issue_inv h q c h0

theorem putPacket_inv {s : State} (h : s.DataInv) (kind : Kind) (payload : List Byte) (long : Option Word)
    (q : sequencerLegal { s with exch := .put long } = true) : (putPacket kind payload long s).Inv := by
  refine attempt_inv (h.congr rfl rfl rfl rfl rfl rfl rfl (Nat.le_refl _)) ?_ rfl
  rw [← q]
  exact sequencerLegal_congr rfl rfl rfl rfl rfl

theorem getPacket_inv {s : State} (h : s.DataInv) (kind : Kind) (n : Word) (long : Option Word)
    (q : sequencerLegal { s with exch := .get kind n long .timeout } = true) : (getPacket kind n long s).Inv := by
  refine attempt_inv (h.congr rfl rfl rfl rfl rfl rfl rfl (Nat.le_refl _)) ?_ rfl
  rw [← q]
  exact sequencerLegal_congr rfl rfl rfl rfl rfl

/-! ### The sequences of exchanges -/

/-- With no operation in progress the sequencer is legal. -/
theorem inProgress_false {s : State} (h : s.inProgress = false) :
    s.phase = restPhase s.params.role ∧ s.state = restState s.params.role ∧ s.job = .idle ∧ s.exch = .idle := by
  simpa [State.inProgress, and_assoc] using h

theorem putCommand_inv {s : State} (h : s.DataInv) (hr : s.params.role = .master) (hs : s.state = .idle)
    (hp : s.phase = .mRest) (hx : s.exch = .idle) (rpcId : Word) (data : List Byte) (timeout : Word)
    (call : Option CallRest) : (putCommand rpcId data timeout call s).Inv := by
  refine State.DataInv.inv' ?_ ?_ (checking_idle hx)
  · exact h.congr rfl rfl rfl rfl rfl rfl rfl h.retry
  simp [putCommand, sequencerLegal, sequencerAt, hr, hs, hp, hx]

theorem sendCommand_inv {s : State} (h : s.DataInv) (hr : s.params.role = .master) (hs : s.state = .idle) (rpcId : Word)
    (data : List Byte) (timeout : Word) (call : Option CallRest) : (sendCommand rpcId data timeout call s).Inv := by
  refine putPacket_inv ?_ _ _ _ ?_
  · exact h.congr rfl rfl rfl rfl rfl rfl rfl h.retry
  simp [sequencerLegal, sequencerAt, sending, hr, hs]

theorem getResult_inv {s : State} (h : s.DataInv) (hr : s.params.role = .master)
    (hs : s.state = .idle ∧ s.phase = .mRest ∨ s.state = .awaitingResult ∧ s.phase = .mPutCd) (cap timeout : Word) :
    (getResult cap timeout s).Inv := by
  refine State.DataInv.inv' ?_ ?_ rfl
  · exact h.congr rfl rfl rfl rfl rfl rfl rfl h.retry
  rcases hs with ⟨hs, hp⟩ | ⟨hs, hp⟩ <;> simp [getResult, sequencerLegal, sequencerAt, hr, hs, hp]

theorem awaitResult_inv {s : State} (h : s.DataInv) (hr : s.params.role = .master)
    (hs : s.state = .idle ∨ s.state = .awaitingResult) (cap timeout : Word) : (awaitResult cap timeout s).Inv := by
  refine getPacket_inv ?_ _ _ _ ?_
  · exact h.congr rfl rfl rfl rfl rfl rfl rfl h.retry
  rcases hs with hs | hs <;> simp [sequencerLegal, sequencerAt, receiving, engineFailure, hr, hs]

theorem getCommand_inv {s : State} (h : s.DataInv) (hr : s.params.role = .slave) (hs : s.state = .waitingForCommand)
    (inLoop : Bool) : (getCommand inLoop s).Inv := by
  refine getPacket_inv ?_ _ _ _ ?_
  · exact h.congr rfl rfl rfl rfl rfl rfl rfl h.retry
  simp [sequencerLegal, sequencerAt, receiving, engineFailure, hr, hs]

theorem putResult_inv {s : State} (h : s.DataInv) (hr : s.params.role = .slave) (inLoop : Bool)
    (hs : s.state = replyState inLoop) (data : List Byte) : (putResult data inLoop s).Inv := by
  refine putPacket_inv ?_ _ _ _ ?_
  · exact h.congr rfl rfl rfl rfl rfl rfl rfl h.retry
  simp [sequencerLegal, sequencerAt, sending, hr, hs]

theorem afterReply_inv {s : State} (h : s.DataInv) (hr : s.params.role = .slave) (hs : s.state = .dispatching) :
    (afterReply s).Inv := by
  unfold afterReply
  split
  · refine State.DataInv.inv' ?_ ?_ rfl
    · exact h.congr rfl rfl rfl rfl rfl rfl rfl h.retry
    simp [invoke, sequencerLegal, sequencerAt, hr, hs]
  · exact finish_inv (clearDeferred_data h) _ _

theorem dispatch_inv {s : State} (h : s.DataInv) (hr : s.params.role = .slave) (rpcId : Word) :
    (dispatch rpcId s).Inv := by
  unfold dispatch dispatchFound
  split
  · refine finish_inv ?_ _ _
    exact h.congr rfl rfl rfl rfl rfl rfl rfl h.retry
  · refine State.DataInv.inv' ?_ ?_ rfl
    · exact h.congr rfl rfl rfl rfl rfl rfl rfl h.retry
    simp [invoke, sequencerLegal, sequencerAt, hr]

/-! ### The Callback Table -/

theorem lookup_none {id : Word} {s : State} : lookup id s = none ↔ ∀ e ∈ entriesInUse s, e.id ≠ id := by
  simp [lookup]

/-- A lookup answers the handler of an entry in use that has the identifier. -/
theorem lookup_some {id : Word} {h : Handler} {s : State} (hl : lookup id s = some h) :
    ∃ e ∈ entriesInUse s, e.id = id ∧ e.handler = h := by
  unfold lookup at hl
  obtain ⟨e, he, rfl⟩ := Option.map_eq_some_iff.mp hl
  exact ⟨e, List.mem_of_find?_eq_some he, by simpa using List.find?_some he, rfl⟩

theorem registerStatus_ok {id : Word} {s : State} (h : registerStatus id s = .ok) :
    lookup id s = none ∧ s.cbCount.toNat ≠ s.params.maxCallbacks := by
  unfold registerStatus at h
  split at h
  · cases h
  · next hl =>
    split at h
    · cases h
    · next hc => exact ⟨by simpa using hl, hc⟩

theorem maxCallbacks_le {p : Params} (h : p.wf = true) : p.maxCallbacks ≤ 32 := by
  simp only [Params.wf, Bool.and_eq_true, Bool.or_eq_true, beq_iff_eq] at h
  omega

/-- A registration that succeeds counts one entry more, and the new entry stands behind those in use. -/
theorem registerEntry_ok {id : Word} {hd : Handler} {s : State} (h : s.DataInv) (hs : registerStatus id s = .ok) :
    (registerEntry id hd s).cbCount.toNat = s.cbCount.toNat + 1 ∧
    entriesInUse (registerEntry id hd s) = entriesInUse s ++ [⟨id, hd⟩] := by
  have hc := (registerStatus_ok hs).2
  have hm := maxCallbacks_le h.params
  have hle := h.tableCount
  have hlen := h.tableSize
  have hcount : (s.cbCount + 1).toNat = s.cbCount.toNat + 1 := by
    rw [BitVec.toNat_add]; simp; omega
  have hget : registerEntry id hd s =
      { s with cb := s.cb.set s.cbCount.toNat ⟨id, hd⟩, cbCount := s.cbCount + 1 } := by
    simp [registerEntry, hs]
  refine ⟨by rw [hget]; exact hcount, ?_⟩
  rw [hget]
  simp only [entriesInUse, hcount]
  rw [List.take_add_one, List.take_set_of_le (Nat.le_refl _)]
  simp [show s.cbCount.toNat < s.cb.length by omega]

theorem registerEntry_data {s : State} (h : s.DataInv) (id : Word) {hd : Handler}
    (hf : Handler.fits s.params.handlerW hd = true) : (registerEntry id hd s).DataInv := by
  by_cases hs : registerStatus id s = .ok
  · obtain ⟨hcount, hent⟩ := registerEntry_ok (hd := hd) h hs
    obtain ⟨hl, hc⟩ := registerStatus_ok hs
    have hget : registerEntry id hd s =
        { s with cb := s.cb.set s.cbCount.toNat ⟨id, hd⟩, cbCount := s.cbCount + 1 } := by
      simp [registerEntry, hs]
    obtain ⟨h1, h2, h3, h4, h5, h6, h7, h8, h9, h10⟩ := h
    refine ⟨?_, ?_, ?_, ?_, ?_, ?_, ?_, ?_, ?_, ?_⟩
    · rw [hget]; exact h1
    · rw [hget]; exact h2
    · rw [hget]; exact h3
    · rw [hget]; exact h4
    · rw [hget]; exact h5
    · rw [hget]; simpa using h6
    · rw [hcount]
      have : (registerEntry id hd s).params = s.params := by rw [hget]
      rw [this]; omega
    · rw [hent, List.map_append, List.nodup_append]
      refine ⟨h8, by simp, ?_⟩
      intro a ha b hb
      obtain ⟨e, he, rfl⟩ := List.mem_map.mp ha
      simp only [List.map_cons, List.map_nil, List.mem_singleton] at hb
      rw [hb]
      exact lookup_none.mp hl e he
    · rw [hget]
      refine ⟨h9.1, fun e he => ?_⟩
      rcases List.mem_or_eq_of_mem_set he with he | rfl
      · exact h9.2 e he
      · exact hf
    · rw [hget]; exact h10
  · have : registerEntry id hd s = s := by
      unfold registerEntry
      split
      · next he => exact absurd he hs
      · rfl
    rw [this]; exact h

theorem registerEntry_sequencer (id : Word) (hd : Handler) (s : State) :
    (registerEntry id hd s).params = s.params ∧ (registerEntry id hd s).job = s.job ∧
    (registerEntry id hd s).state = s.state ∧ (registerEntry id hd s).phase = s.phase ∧
    (registerEntry id hd s).exch = s.exch ∧ (registerEntry id hd s).retryCnt = s.retryCnt := by
  unfold registerEntry
  split <;> simp

theorem registerCallback_inv {s : State} (h : s.Inv) (id : Word) {hd : Handler}
    (hf : Handler.fits s.params.handlerW hd = true) : (registerCallback id hd s).Inv := by
  obtain ⟨e1, e2, e3, e4, e5, e6⟩ := registerEntry_sequencer id hd s
  refine completeInPlace_inv ((registerEntry_data h.data id hf).inv
    ((sequencerLegal_congr e1 e2 e3 e4 e5).trans h.sequencer) ?_) _ _
  rw [checking_congr e5, e6]
  exact h.attemptLeft

theorem scheduleCallback_inv {s : State} (h : s.Inv) {hd : Handler} (hf : Handler.fits s.params.handlerW hd = true) :
    (scheduleCallback hd s).Inv := by
  refine completeInPlace_inv (s := { s with defHandler := hd, defValid := true }) ?_ _ _
  obtain ⟨h1, h2, h3, h4, h5, h6, h7, h8, h9, h10, h11, h12⟩ := h
  exact ⟨h1, h2, h3, h4, h5, h6, h7, h8, ⟨hf, h9.2⟩, h10, h11, (sequencerLegal_congr rfl rfl rfl rfl rfl).trans h12⟩

/-! ### The answers of the other agents -/

/-- Every next state of an outcome has the property. -/
def NextHas (P : State → Prop) (o : Out) : Prop := ∀ t, o = .next t → P t

theorem nextHas_next {P : State → Prop} {s : State} (h : P s) : NextHas P (.next s) := by
  rintro t ⟨⟩; exact h

theorem nextHas_fault {P : State → Prop} {f : Fault} : NextHas P (.fault f) := by rintro t ⟨⟩

theorem nextHas_refused {P : State → Prop} {r : Refusal} : NextHas P (.refused r) := by rintro t ⟨⟩

theorem putSucceeded_inv {s : State} (h : s.Inv) : (putSucceeded s).Inv := by
  have q := h.sequencer
  unfold putSucceeded
  split <;> rename_i hj <;> simp only [sequencerLegal, hj, sequencerAt, Bool.and_eq_true, decide_eq_true_eq] at q
  · exact finish_inv h.data _ _
  · refine putPacket_inv ?_ _ _ _ ?_
    · exact h.data.congr rfl rfl rfl rfl rfl rfl rfl h.retry
    · simp [sequencerLegal, sequencerAt, sending, q]
  · exact finish_inv h.data _ _
  · refine getResult_inv ?_ ?_ ?_ _ _
    · exact h.data.congr rfl rfl rfl rfl rfl rfl rfl h.retry
    · exact q.1.1
    · exact Or.inr ⟨rfl, q.1.2.2⟩
  · refine putPacket_inv ?_ _ _ _ ?_
    · exact h.data.congr rfl rfl rfl rfl rfl rfl rfl h.retry
    · simp [sequencerLegal, sequencerAt, sending, q]
  · exact finish_inv h.data _ _
  · exact afterReply_inv h.data q.1.1 (by simpa [replyState] using q.1.2.1)
  all_goals exact h

/-- The invariant depends on these fields only. -/
theorem State.Inv.congr {s t : State} (h : s.Inv) (hp : t.params = s.params) (hb : t.buf = s.buf)
    (hr : t.respBuf = s.respBuf) (hl : t.bufLen = s.bufLen) (hc : t.cb = s.cb) (hn : t.cbCount = s.cbCount)
    (hd : t.defHandler = s.defHandler) (hretry : t.retryCnt = s.retryCnt) (hj : t.job = s.job) (hs : t.state = s.state) (hph : t.phase = s.phase)
    (he : t.exch = s.exch) : t.Inv :=
  (h.data.congr hp hb hr hl hc hn hd (hretry ▸ h.retry)).inv ((sequencerLegal_congr hp hj hs hph he).trans h.sequencer)
    (by rw [checking_congr he, hretry]; exact h.attemptLeft)

theorem onWrite_inv {s : State} (h : s.Inv) (c : checking s = false) (a : WriteAnswer) : (onWrite a s).Inv := by
  have h1 : State.Inv { s with tx := s.tx ++ sentBytes a s.frame } :=
    h.congr rfl rfl rfl rfl rfl rfl rfl rfl rfl rfl rfl rfl
  simp only [onWrite]
  split
  · exact putSucceeded_inv h1
  · exact attempt_inv h1.data h1.sequencer c

/-- A deadline check made before an attempt that is left keeps the invariant. -/
theorem deadlineCheck_inv {s : State} (h : s.DataInv) (q : sequencerLegal s = true) (c : checking s = false)
    (h0 : s.retryCnt ≠ 0) (long : Word) : (deadlineCheck long s).Inv := by
  rcases deadlineCheck_cases long s with ⟨-, e⟩ | ⟨-, e⟩ <;> rw [e]
  · exact exchangeFailed_inv h _
  · exact issue_inv h q c h0

/-- The reading of the time source keeps the invariant. -/
theorem onClock_inv {s : State} (h : s.Inv) (d : Word) : (onClock d s).Inv := by
  have q := h.sequencer
  unfold onClock
  split
  · next long hx =>
    have h0 : s.retryCnt ≠ 0 := h.attemptLeft (by simp [checking, hx])
    refine deadlineCheck_inv ?_ ?_ ?_ ?_ long
    rotate_right
    · exact h0
    · exact h.data.congr rfl rfl rfl rfl rfl rfl rfl h.retry
    · rw [← q, ← putCheck_sequencer (s := { tick d s with exch := .put (some long) }) rfl]
      exact sequencerLegal_congr rfl rfl rfl rfl hx.symm
    · rfl
  · next kind n long last hx =>
    have h0 : s.retryCnt ≠ 0 := h.attemptLeft (by simp [checking, hx])
    refine deadlineCheck_inv ?_ ?_ ?_ ?_ long
    rotate_right
    · exact h0
    · exact h.data.congr rfl rfl rfl rfl rfl rfl rfl h.retry
    · rw [← q, ← getCheck_sequencer (s := { tick d s with exch := .get kind n (some long) last }) rfl]
      exact sequencerLegal_congr rfl rfl rfl rfl hx.symm
    · rfl
  · exact h
  · exact h
  · split <;> rename_i hj <;>
      simp only [sequencerLegal, hj, sequencerAt, Bool.and_eq_true, Bool.or_eq_true, decide_eq_true_eq] at q
    · exact sendCommand_inv (sampleT0_data h.data d) q.1.1 q.1.2.1 _ _ _ _
    · exact awaitResult_inv (sampleT0_data h.data d) q.1.1 (q.1.2.imp And.left And.left) _ _
    · exact h

theorem lengthWord_le (d : List Byte) : (lengthWord d).toNat ≤ d.length := by
  simp only [lengthWord, BitVec.toNat_ofNat]
  exact Nat.mod_le _ _

theorem bufWrite_some {s t : State} {a : Nat} {v : List Byte} (h : bufWrite s a v = some t) :
    a + v.length ≤ s.params.bufCap ∧ t = { s with buf := writeBytes s.buf a v } := by
  unfold bufWrite at h
  split at h
  · next hle => exact ⟨hle, by simpa using h.symm⟩
  · cases h

theorem commandReceived_inv {s : State} (h : s.Inv) (hr : s.params.role = .slave) (rpcId : Word) (inLoop : Bool)
    (d : List Byte) : NextHas State.Inv (commandReceived rpcId inLoop d s) := by
  unfold commandReceived
  split
  · exact nextHas_fault
  · next s1 hw =>
    obtain ⟨hle, rfl⟩ := bufWrite_some hw
    have hd : State.DataInv
        { s with buf := writeBytes s.buf 0 d, bufLen := lengthWord d, curRpcId := rpcId } := by
      obtain ⟨h1, h2, h3, h4, h5, h6, h7, h8, h9, h10⟩ := h.data
      refine ⟨h1, writeBytes_wf _ _ h2, writeBytes_within h3 hle, h4, ?_, h6, h7, h8, h9, h10⟩
      exact Nat.le_trans (lengthWord_le d) (by simpa using hle)
    refine nextHas_next ?_
    split
    · exact dispatch_inv hd hr _
    · exact finish_inv hd _ _

theorem storeResponse_data {s : State} (h : s.DataInv) (d : List Byte) (n : Word) : (storeResponse d n s).DataInv := by
  obtain ⟨h1, h2, h3, h4, h5, h6, h7, h8, h9, h10⟩ := h
  exact ⟨h1, h2, h3, writeBytes_wf _ _ h4, h5, h6, h7, h8, h9, h10⟩

theorem getSucceeded_inv {s : State} (h : s.Inv) (payload : List Byte) : NextHas State.Inv (getSucceeded payload s) := by
  have q := h.sequencer
  unfold getSucceeded
  split <;> rename_i hj <;>
    simp only [sequencerLegal, hj, sequencerAt, Bool.and_eq_true, Bool.or_eq_true, decide_eq_true_eq] at q
  · exact nextHas_next (finish_inv h.data _ _)
  · refine nextHas_next ?_
    split
    · exact finish_inv h.data _ _
    · refine getPacket_inv ?_ _ _ _ ?_
      · exact h.data.congr rfl rfl rfl rfl rfl rfl rfl h.retry
      · obtain ⟨⟨hr, hs⟩, -⟩ := q
        rcases hs with hs | hs <;> simp [sequencerLegal, sequencerAt, receiving, engineFailure, hr, hs]
  · exact nextHas_next (finish_inv (storeResponse_data h.data _ _) _ _)
  · refine nextHas_next ?_
    split
    · exact finish_inv h.data _ _
    · next hn =>
      refine getPacket_inv ?_ _ _ _ ?_
      · exact h.data.congr rfl rfl rfl rfl rfl rfl rfl h.retry
      · obtain ⟨⟨hr, hs⟩, -⟩ := q
        have hn' := Nat.le_of_not_lt hn
        simp [sequencerLegal, sequencerAt, receiving, engineFailure, hr, hs, hn']
  · exact commandReceived_inv h q.1.1 _ _ _
  all_goals exact nextHas_next h

/-- `DECODE` fails with one of its three failures (R152). -/
theorem decodePacket_error {p : Params} {kind : Kind} {b : List Byte} {f : Status}
    (h : decodePacket p kind b = .error f) :
    (f = .truncated ∧ b.length < minLen kind) ∨ f = .markerMismatch ∨ f = .checksumMismatch := by
  unfold decodePacket at h
  split at h
  · next hl => cases h; exact Or.inl ⟨rfl, hl⟩
  · split at h
    · cases h; exact Or.inr (Or.inl rfl)
    · split at h
      · cases h; exact Or.inr (Or.inr rfl)
      · cases h

theorem setLast_fields (f : Status) (s : State) :
    (setLast f s).params = s.params ∧ (setLast f s).job = s.job ∧ (setLast f s).state = s.state ∧
    (setLast f s).phase = s.phase ∧ (setLast f s).buf = s.buf ∧ (setLast f s).respBuf = s.respBuf ∧
    (setLast f s).bufLen = s.bufLen ∧ (setLast f s).cb = s.cb ∧ (setLast f s).cbCount = s.cbCount ∧
    (setLast f s).defHandler = s.defHandler ∧ (setLast f s).retryCnt = s.retryCnt := by
  unfold setLast
  split <;> simp

theorem setLast_data {s : State} (h : s.DataInv) (f : Status) : (setLast f s).DataInv := by
  obtain ⟨e1, -, -, -, e5, e6, e7, e8, e9, e10, e11⟩ := setLast_fields f s
  exact h.congr e1 e5 e6 e7 e8 e9 e10 (e11 ▸ h.retry)

theorem setLast_checking (f : Status) (s : State) : checking (setLast f s) = checking s := by
  unfold setLast
  split
  · next hx => simp [checking, hx]
  · rfl

/-- Remembering a failure keeps the sequencer legal: any failure for an exchange of the host, one of R174 for the engines'. -/
theorem setLast_sequencer {s : State} (q : sequencerLegal s = true) {f : Status} (hf : f ≠ .ok)
    (he : s.job ≠ .getPacket → engineFailure f = true) : sequencerLegal (setLast f s) = true := by
  unfold setLast
  split
  · next kind n long last hx =>
    revert q he
    simp only [sequencerLegal]
    cases hj : s.job <;>
      simp only [sequencerResting, sequencerAt, sending, receiving, receivingForHost, hx, Bool.and_eq_true, Bool.or_eq_true,
        decide_eq_true_eq, reduceCtorEq, ne_eq, not_false_eq_true, not_true_eq_false, forall_const, false_imp_iff,
        and_false, Bool.false_eq_true, and_imp, imp_false] <;> intros <;> simp_all
  · exact q

theorem header_wf {p : Params} (h : p.wf = true) : p.header.wf = true := by
  simp only [Params.wf, Bool.and_eq_true] at h
  exact h.2

/-- The frame of a command-header is its payload and 4 bytes (R103). -/
theorem frameLength_ch {p : Params} (h : p.header.wf = true) : frameLength (chPayloadLen p) = p.header.chLen + 4 := by
  obtain ⟨-, -, -, -, h5, -⟩ := HeaderLayout.wf_iff.mp h
  simp [frameLength, frameOverhead, chPayloadLen]
  omega

/-- The frame of a result-header is its payload and 4 bytes (R105). -/
theorem frameLength_rh {p : Params} (h : p.header.wf = true) : frameLength (rhPayloadLen p) = p.header.rhLen + 4 := by
  obtain ⟨-, -, -, -, -, h6⟩ := HeaderLayout.wf_iff.mp h
  simp [frameLength, frameOverhead, rhPayloadLen]
  omega

theorem minLen_le_engine {s : State} (hp : s.params.header.wf = true) (q : sequencerLegal s = true) {kind : Kind} {n : Word} {long : Option Word} {last : Status}
    (hx : s.exch = .get kind n long last) (hj : s.job ≠ .getPacket) : minLen kind ≤ frameLength n := by
  revert q
  simp only [sequencerLegal]
  cases hjob : s.job <;>
    simp only [sequencerResting, sequencerAt, sending, receiving, receivingForHost, hx, Bool.and_eq_true,
      decide_eq_true_eq] <;> intro q
  all_goals try (exact absurd hjob hj)
  all_goals try (simp at q; done)
  all_goals (obtain ⟨-, ⟨hk, hn⟩, -⟩ := q; subst hk)
  · obtain ⟨-, -, -, h4, -⟩ := HeaderLayout.wf_iff.mp hp
    rw [hn, frameLength_rh hp]; simp only [minLen]; omega
  · simp [minLen, frameLength, frameOverhead]
  · obtain ⟨h1, -⟩ := HeaderLayout.wf_iff.mp hp
    rw [hn, frameLength_ch hp]; simp only [minLen]; omega
  · simp [minLen, frameLength, frameOverhead]

theorem onFrame_inv {s : State} (h : s.Inv) {kind : Kind} {n : Word} {long : Option Word} {last : Status}
    (hx : s.exch = .get kind n long last) {b : List Byte} (hb : b.length = frameLength n) :
    NextHas State.Inv (onFrame kind b s) := by
  unfold onFrame
  split
  · refine getSucceeded_inv ?_ _
    exact h.congr rfl rfl rfl rfl rfl rfl rfl rfl rfl rfl rfl rfl
  · next f hf =>
    refine nextHas_next (attempt_inv (setLast_data h.data f) (setLast_sequencer h.sequencer ?_ ?_)
      ((setLast_checking f s).trans (checking_get hx)))
    · rcases decodePacket_error hf with ⟨e, -⟩ | e | e <;> rw [e] <;> decide
    · intro hj
      rcases decodePacket_error hf with ⟨-, hl⟩ | e | e
      · have := minLen_le_engine (header_wf h.params) h.sequencer hx hj
        omega
      · rw [e]; decide
      · rw [e]; decide

theorem onArrive_inv {s : State} (h : s.Inv) (b : List Byte) : NextHas State.Inv (onArrive b s) := by
  unfold onArrive
  split
  · next kind n long last hx =>
    split
    · next hle =>
      refine onFrame_inv ?_ (n := n) (long := long) (last := last) ?_ ?_
      · exact h.congr rfl rfl rfl rfl rfl rfl rfl rfl rfl rfl rfl rfl
      · exact hx
      · exact List.length_take_of_le hle
    · exact nextHas_next (h.congr rfl rfl rfl rfl rfl rfl rfl rfl rfl rfl rfl rfl)
  · exact nextHas_next (h.congr rfl rfl rfl rfl rfl rfl rfl rfl rfl rfl rfl rfl)

theorem onExpire_inv {s : State} (h : s.Inv) (k : Nat) : (onExpire k s).Inv := by
  have h1 : State.Inv { s with rx := s.rx.drop k } := h.congr rfl rfl rfl rfl rfl rfl rfl rfl rfl rfl rfl rfl
  unfold onExpire
  split
  · next hx =>
    exact attempt_inv (setLast_data h1.data _) (setLast_sequencer h1.sequencer (by decide) fun _ => by decide)
      ((setLast_checking _ _).trans (checking_get hx))
  · exact h

theorem onLink_inv {s : State} (h : s.Inv) (e : LinkEvent) : NextHas State.Inv (onLink e s) := by
  cases e
  · exact onArrive_inv h _
  · exact nextHas_next (onExpire_inv h _)
  · exact nextHas_next (h.congr rfl rfl rfl rfl rfl rfl rfl rfl rfl rfl rfl rfl)

/-- What the gate lets through keeps a property that the refusal keeps. -/
theorem gate_has {P : State → Prop} {i : Instr} {s : State} {run : State → Out} (hr : P (refuse s))
    (h : isBadOp s.params.role i = false → (isRegistration i = true → s.inProgress = false ∨ s.handlerRunning = true) →
      (isRegistration i = false → s.inProgress = false) → NextHas P (run s)) : NextHas P (gate i s run) := by
  unfold gate
  split
  · exact nextHas_next hr
  · next hb =>
    have hb' : isBadOp s.params.role i = false := by simpa using hb
    split
    · next hi =>
      split
      · exact nextHas_fault
      · next hp =>
        refine h hb' (fun _ => ?_) (fun hf => by rw [hi] at hf; cases hf)
        cases hq : s.inProgress <;> simp_all
    · next hi =>
      split
      · exact nextHas_fault
      · next hp => exact h hb' (fun hf => absurd hf hi) (fun _ => by simpa using hp)

theorem handlerRequest_inv {s : State} (h : s.Inv) (r : List Byte) : NextHas State.Inv (handlerRequest r s) := by
  unfold handlerRequest
  split
  · exact nextHas_next (refuse_inv h)
  · exact nextHas_next (refuse_inv h)
  · exact nextHas_refused
  · next i hd =>
    have hw := decodeRequest_wellFormed hd
    refine gate_has (refuse_inv h) fun _ _ _ => ?_
    split
    · exact nextHas_next (registerCallback_inv h _ hw)
    · exact nextHas_next (scheduleCallback_inv h hw)
    · exact nextHas_fault

theorem handlerRequests_inv (rs : List (List Byte)) {s : State} (h : s.Inv) : NextHas State.Inv (handlerRequests rs s) := by
  induction rs generalizing s with
  | nil => exact nextHas_next h
  | cons r rs ih =>
    unfold handlerRequests
    split
    · next s1 hr => exact ih (handlerRequest_inv h r s1 hr)
    · exact nextHas_fault
    · exact nextHas_refused

theorem bufStores_some {s t : State} {v : List (Nat × Byte)} (h : bufStores s v = some t) :
    (∀ c ∈ v, c.1 < s.params.bufCap) ∧ t = { s with buf := writeCells s.buf v } := by
  unfold bufStores at h
  split at h
  · next hall => exact ⟨by simpa using hall, by simpa using h.symm⟩
  · cases h

theorem bufStores_inv {s t : State} (h : s.Inv) {v : List (Nat × Byte)} (hv : bufStores s v = some t) : t.Inv := by
  obtain ⟨hlt, rfl⟩ := bufStores_some hv
  obtain ⟨h1, h2, h3, h4, h5, h6, h7, h8, h9, h10, h11, h12⟩ := h
  refine ⟨h1, writeCells_wf _ h2, writeCells_within h3 hlt, h4, h5, h6, h7, h8, h9, h10, h11, ?_⟩
  rw [← h12]
  exact sequencerLegal_congr rfl rfl rfl rfl rfl

theorem handlerReturned_inv {s : State} (h : s.Inv) (code : Word) : NextHas State.Inv (handlerReturned code s) := by
  have q := h.sequencer
  unfold handlerReturned
  split
  · next hj =>
    simp only [sequencerLegal, hj, sequencerAt, Bool.and_eq_true, decide_eq_true_eq] at q
    split
    · exact nextHas_next (finish_inv (clearDeferred_data h.data) _ _)
    · next hle =>
      split
      · exact nextHas_fault
      · refine nextHas_next (putResult_inv ?_ ?_ true ?_ _)
        rotate_left
        · exact q.1.1
        · exact q.1.2.1
        obtain ⟨h1, h2, h3, h4, h5, h6, h7, h8, h9, h10⟩ := h.data
        exact ⟨h1, h2, h3, h4, Nat.le_of_not_lt hle, h6, h7, h8, h9, h10⟩
  · exact nextHas_next (finish_inv h.data _ _)
  · exact nextHas_next h

theorem onHandler_inv {s : State} (h : s.Inv) (r : HandlerRun) : NextHas State.Inv (onHandler r s) := by
  unfold onHandler
  split
  · exact nextHas_fault
  · split
    · exact nextHas_fault
    · exact nextHas_refused
    · next s1 hs =>
      split
      · exact nextHas_fault
      · next s2 hw => exact handlerReturned_inv (bufStores_inv (handlerRequests_inv _ h s1 hs) hw) _

/-! ### Running on -/

/-- `runFor` keeps any property that the answers of the other agents keep: its induction, done once. -/
theorem runFor_has {P : State → Prop} (hc : ∀ s d rest, P s → P (onClock d { s with clock := rest }))
    (hw : ∀ s a rest, s.waiting = .write → P s → P (onWrite a { s with writes := rest }))
    (hl : ∀ s e rest, P s → NextHas P (onLink e { s with link := rest }))
    (hh : ∀ s r rest, P s → NextHas P (onHandler r { s with handlers := rest })) :
    ∀ (fuel : Nat) (s : State), P s → NextHas P (runFor fuel s) := by
  intro fuel
  induction fuel with
  | zero => exact fun s h => nextHas_next h
  | succ fuel ih =>
    intro s h
    unfold runFor
    split
    · exact nextHas_next h
    · split
      · exact nextHas_next h
      · exact ih _ (hc _ _ _ h)
    · split
      · exact nextHas_next h
      · exact ih _ (hw _ _ _ ‹_› h)
    · split
      · exact nextHas_next h
      · split
        · next s1 hs => exact ih s1 (hl _ _ _ h s1 hs)
        · exact nextHas_fault
        · exact nextHas_refused
    · split
      · exact nextHas_next h
      · split
        · next s1 hs => exact ih s1 (hh _ _ _ h s1 hs)
        · exact nextHas_fault
        · exact nextHas_refused

/-- At a `TWrite` no deadline check is in progress. -/
theorem waiting_write {s : State} (h : s.waiting = .write) : checking s = false := by
  unfold State.waiting at h
  split at h
  · next hx => exact checking_put hx
  · cases h
  · cases h
  · cases h
  · split at h <;> cases h

theorem runOn_inv {s : State} (h : s.Inv) : NextHas State.Inv (runOn s) := by
  refine runFor_has (P := State.Inv) ?_ ?_ ?_ ?_ _ s h
  · intro s d rest h
    refine onClock_inv ?_ d
    exact h.congr rfl rfl rfl rfl rfl rfl rfl rfl rfl rfl rfl rfl
  · intro s a rest w h
    refine onWrite_inv ?_ ?_ a
    rotate_left
    · exact (checking_congr rfl).trans (waiting_write w)
    exact h.congr rfl rfl rfl rfl rfl rfl rfl rfl rfl rfl rfl rfl
  · intro s e rest h
    refine onLink_inv ?_ e
    exact h.congr rfl rfl rfl rfl rfl rfl rfl rfl rfl rfl rfl rfl
  · intro s r rest h
    refine onHandler_inv ?_ r
    exact h.congr rfl rfl rfl rfl rfl rfl rfl rfl rfl rfl rfl rfl

theorem runOnFrom_inv {o : Out} (h : NextHas State.Inv o) : NextHas State.Inv (runOnFrom o) := by
  unfold runOnFrom
  split
  · next s => exact runOn_inv (h s rfl)
  · exact nextHas_fault
  · exact nextHas_refused

end Sys2Proof.Machine
end

