-- ==== Sys2Proof/Laws/Frame.lean ====
section
/-! SUPPORT. What the sequencer never changes or takes back: the parameters, the inputs of the other agents, the Callback Table
(but for registrations), the bytes sent and the port primitives issued. One lemma for each shared operation; and from them, that
running on takes the listed answers one at a time. -/

namespace Sys2Proof.Machine

/-- `t` comes after `s` by the sequencer's own work. -/
structure Follows (s t : State) : Prop where
  params : t.params = s.params
  hostPort : t.hostPort = s.hostPort
  writes : t.writes = s.writes
  link : t.link = s.link
  handlers : t.handlers = s.handlers
  clock : t.clock = s.clock
  cb : t.cb = s.cb
  cbCount : t.cbCount = s.cbCount
  sent : s.tx <+: t.tx
  issued : s.calls <+: t.calls

theorem Follows.refl (s : State) : Follows s s :=
  ⟨rfl, rfl, rfl, rfl, rfl, rfl, rfl, rfl, List.prefix_rfl, List.prefix_rfl⟩

theorem Follows.trans {s t u : State} (h : Follows s t) (k : Follows t u) : Follows s u :=
  ⟨k.params.trans h.params, k.hostPort.trans h.hostPort, k.writes.trans h.writes, k.link.trans h.link,
   k.handlers.trans h.handlers, k.clock.trans h.clock, k.cb.trans h.cb, k.cbCount.trans h.cbCount, h.sent.trans k.sent, h.issued.trans k.issued⟩

/-- `Follows.trans` with the later part first, so that the state between is read off it. -/
theorem Follows.after {s t u : State} (k : Follows t u) (h : Follows s t) : Follows s u := h.trans k

theorem Follows.entries {s t : State} (h : Follows s t) : entriesInUse t = entriesInUse s := by
  simp only [entriesInUse, h.cb, h.cbCount]

theorem Follows.answers {s t : State} (h : Follows s t) : answersAtHand t = answersAtHand s := by
  simp only [answersAtHand, h.writes, h.link, h.handlers, h.clock]

theorem finish_follows (st : Status) (r : Result) (s : State) : Follows s (finish st r s) :=
  ⟨rfl, rfl, rfl, rfl, rfl, rfl, rfl, rfl, List.prefix_rfl, List.prefix_rfl⟩

theorem clearDeferred_follows (s : State) : Follows s (clearDeferred s) :=
  ⟨rfl, rfl, rfl, rfl, rfl, rfl, rfl, rfl, List.prefix_rfl, List.prefix_rfl⟩

theorem record_follows (p : Prim) (s : State) : Follows s (record p s) :=
  ⟨rfl, rfl, rfl, rfl, rfl, rfl, rfl, rfl, List.prefix_rfl, List.prefix_append _ _⟩

theorem tick_follows (d : Word) (s : State) : Follows s (tick d s) :=
  ⟨rfl, rfl, rfl, rfl, rfl, rfl, rfl, rfl, List.prefix_rfl, List.prefix_append _ _⟩

theorem sampleT0_follows (d : Word) (s : State) : Follows s (sampleT0 d s) :=
  ⟨rfl, rfl, rfl, rfl, rfl, rfl, rfl, rfl, List.prefix_rfl, List.prefix_append _ _⟩

theorem issue_follows (s : State) : Follows s (issue s) :=
  ⟨rfl, rfl, rfl, rfl, rfl, rfl, rfl, rfl, List.prefix_rfl, List.prefix_append _ _⟩

theorem exchangeFailed_follows (f : Status) (s : State) : Follows s (exchangeFailed f s) := by
  rcases exchangeFailed_cases f s with e | e <;> rw [e]
  · exact finish_follows _ _ _
  · exact (clearDeferred_follows s).trans (finish_follows _ _ _)

/-- Changing registers only. -/
theorem follows_of_eq {s t : State} (h1 : t.params = s.params) (h2 : t.hostPort = s.hostPort) (h3 : t.writes = s.writes)
    (h4 : t.link = s.link) (h5 : t.handlers = s.handlers) (hc : t.clock = s.clock) (h6 : t.cb = s.cb)
    (h7 : t.cbCount = s.cbCount) (h8 : t.tx = s.tx) (h9 : t.calls = s.calls) : Follows s t :=
  ⟨h1, h2, h3, h4, h5, hc, h6, h7, h8 ▸ List.prefix_rfl, h9 ▸ List.prefix_rfl⟩

theorem attempt_follows (s : State) : Follows s (attempt s) := by
  rcases attempt_cases s with ⟨-, e⟩ | ⟨-, long, -, e⟩ | ⟨-, kind, n, long, last, -, e⟩ | ⟨-, e⟩ <;> rw [e]
  · exact exchangeFailed_follows _ _
  · exact follows_of_eq rfl rfl rfl rfl rfl rfl rfl rfl rfl rfl
  · exact follows_of_eq rfl rfl rfl rfl rfl rfl rfl rfl rfl rfl
  · exact issue_follows s

theorem deadlineCheck_follows (long : Word) (s : State) : Follows s (deadlineCheck long s) := by
  rcases deadlineCheck_cases long s with ⟨-, e⟩ | ⟨-, e⟩ <;> rw [e]
  · exact exchangeFailed_follows _ _
  · exact issue_follows s

theorem putPacket_follows (kind : Kind) (payload : List Byte) (long : Option Word) (s : State) :
    Follows s (putPacket kind payload long s) := by
  unfold putPacket
  exact Follows.after (attempt_follows _) (follows_of_eq rfl rfl rfl rfl rfl rfl rfl rfl rfl rfl)

theorem getPacket_follows (kind : Kind) (n : Word) (long : Option Word) (s : State) :
    Follows s (getPacket kind n long s) := by
  unfold getPacket
  exact Follows.after (attempt_follows _) (follows_of_eq rfl rfl rfl rfl rfl rfl rfl rfl rfl rfl)

theorem putCommand_follows (rpcId : Word) (data : List Byte) (timeout : Word) (call : Option CallRest) (s : State) :
    Follows s (putCommand rpcId data timeout call s) := follows_of_eq rfl rfl rfl rfl rfl rfl rfl rfl rfl rfl

theorem sendCommand_follows (rpcId : Word) (data : List Byte) (timeout : Word) (call : Option CallRest) (s : State) :
    Follows s (sendCommand rpcId data timeout call s) := by
  unfold sendCommand
  exact Follows.after (putPacket_follows _ _ _ _) (follows_of_eq rfl rfl rfl rfl rfl rfl rfl rfl rfl rfl)

theorem getResult_follows (cap timeout : Word) (s : State) : Follows s (getResult cap timeout s) :=
  follows_of_eq rfl rfl rfl rfl rfl rfl rfl rfl rfl rfl

theorem awaitResult_follows (cap timeout : Word) (s : State) : Follows s (awaitResult cap timeout s) := by
  unfold awaitResult
  exact Follows.after (getPacket_follows _ _ _ _) (follows_of_eq rfl rfl rfl rfl rfl rfl rfl rfl rfl rfl)

theorem onClock_follows (d : Word) (s : State) : Follows s (onClock d s) := by
  unfold onClock
  split
  · exact Follows.after (deadlineCheck_follows _ _)
      (Follows.after (t := tick d s) (follows_of_eq rfl rfl rfl rfl rfl rfl rfl rfl rfl rfl) (tick_follows d s))
  · exact Follows.after (deadlineCheck_follows _ _)
      (Follows.after (t := tick d s) (follows_of_eq rfl rfl rfl rfl rfl rfl rfl rfl rfl rfl) (tick_follows d s))
  · exact Follows.refl s
  · exact Follows.refl s
  · split
    · exact (sampleT0_follows d s).trans (sendCommand_follows _ _ _ _ _)
    · exact (sampleT0_follows d s).trans (awaitResult_follows _ _ _)
    · exact Follows.refl s

theorem getCommand_follows (inLoop : Bool) (s : State) : Follows s (getCommand inLoop s) := by
  unfold getCommand
  exact Follows.after (getPacket_follows _ _ _ _) (follows_of_eq rfl rfl rfl rfl rfl rfl rfl rfl rfl rfl)

theorem putResult_follows (data : List Byte) (inLoop : Bool) (s : State) : Follows s (putResult data inLoop s) := by
  unfold putResult
  exact Follows.after (putPacket_follows _ _ _ _) (follows_of_eq rfl rfl rfl rfl rfl rfl rfl rfl rfl rfl)

theorem afterReply_follows (s : State) : Follows s (afterReply s) := by
  unfold afterReply
  split
  · exact Follows.after (record_follows _ _) (follows_of_eq rfl rfl rfl rfl rfl rfl rfl rfl rfl rfl)
  · exact (clearDeferred_follows s).trans (finish_follows _ _ _)

theorem dispatch_follows (rpcId : Word) (s : State) : Follows s (dispatch rpcId s) := by
  unfold dispatch dispatchFound
  split
  · exact Follows.after (finish_follows _ _ _) (follows_of_eq rfl rfl rfl rfl rfl rfl rfl rfl rfl rfl)
  · exact Follows.after (record_follows _ _) (follows_of_eq rfl rfl rfl rfl rfl rfl rfl rfl rfl rfl)

theorem putSucceeded_follows (s : State) : Follows s (putSucceeded s) := by
  unfold putSucceeded
  split
  · exact finish_follows _ _ _
  · exact Follows.after (putPacket_follows _ _ _ _) (follows_of_eq rfl rfl rfl rfl rfl rfl rfl rfl rfl rfl)
  · exact finish_follows _ _ _
  · exact Follows.after (getResult_follows _ _ _) (follows_of_eq rfl rfl rfl rfl rfl rfl rfl rfl rfl rfl)
  · exact Follows.after (putPacket_follows _ _ _ _) (follows_of_eq rfl rfl rfl rfl rfl rfl rfl rfl rfl rfl)
  · exact finish_follows _ _ _
  · exact afterReply_follows _
  all_goals exact Follows.refl s

theorem onWrite_follows (a : WriteAnswer) (s : State) : Follows s (onWrite a s) := by
  have h : Follows s { s with tx := s.tx ++ sentBytes a s.frame } :=
    ⟨rfl, rfl, rfl, rfl, rfl, rfl, rfl, rfl, List.prefix_append _ _, List.prefix_rfl⟩
  simp only [onWrite]
  split
  · exact h.trans (putSucceeded_follows _)
  · exact h.trans (attempt_follows _)

theorem commandReceived_follows (rpcId : Word) (inLoop : Bool) (d : List Byte) (s : State) :
    NextHas (Follows s) (commandReceived rpcId inLoop d s) := by
  unfold commandReceived
  split
  · exact nextHas_fault
  · next s1 hw =>
    obtain ⟨-, rfl⟩ := bufWrite_some hw
    refine nextHas_next ?_
    split
    · exact Follows.after (dispatch_follows _ _) (follows_of_eq rfl rfl rfl rfl rfl rfl rfl rfl rfl rfl)
    · exact Follows.after (finish_follows _ _ _) (follows_of_eq rfl rfl rfl rfl rfl rfl rfl rfl rfl rfl)

theorem getSucceeded_follows (payload : List Byte) (s : State) : NextHas (Follows s) (getSucceeded payload s) := by
  unfold getSucceeded
  split
  · exact nextHas_next (finish_follows _ _ _)
  · refine nextHas_next ?_
    split
    · exact finish_follows _ _ _
    · exact Follows.after (getPacket_follows _ _ _ _) (follows_of_eq rfl rfl rfl rfl rfl rfl rfl rfl rfl rfl)
  · refine nextHas_next ?_
    exact Follows.after (finish_follows _ _ _) (follows_of_eq rfl rfl rfl rfl rfl rfl rfl rfl rfl rfl)
  · refine nextHas_next ?_
    split
    · exact finish_follows _ _ _
    · exact Follows.after (getPacket_follows _ _ _ _) (follows_of_eq rfl rfl rfl rfl rfl rfl rfl rfl rfl rfl)
  · exact commandReceived_follows _ _ _ _
  all_goals exact nextHas_next (Follows.refl s)

theorem setLast_follows (f : Status) (s : State) : Follows s (setLast f s) := by
  unfold setLast
  split
  · exact follows_of_eq rfl rfl rfl rfl rfl rfl rfl rfl rfl rfl
  · exact Follows.refl s

theorem NextHas.imp {P Q : State → Prop} {o : Out} (h : NextHas P o) (f : ∀ t, P t → Q t) : NextHas Q o :=
  fun t ht => f t (h t ht)

theorem onFrame_follows (kind : Kind) (b : List Byte) (s : State) : NextHas (Follows s) (onFrame kind b s) := by
  unfold onFrame
  split
  · exact (getSucceeded_follows _ _).imp fun t ht => Follows.after ht (follows_of_eq rfl rfl rfl rfl rfl rfl rfl rfl rfl rfl)
  · exact nextHas_next ((setLast_follows _ _).trans (attempt_follows _))

theorem onArrive_follows (b : List Byte) (s : State) : NextHas (Follows s) (onArrive b s) := by
  unfold onArrive
  split
  · split
    · exact (onFrame_follows _ _ _).imp fun t ht => Follows.after ht (follows_of_eq rfl rfl rfl rfl rfl rfl rfl rfl rfl rfl)
    · exact nextHas_next (follows_of_eq rfl rfl rfl rfl rfl rfl rfl rfl rfl rfl)
  · exact nextHas_next (follows_of_eq rfl rfl rfl rfl rfl rfl rfl rfl rfl rfl)

theorem onExpire_follows (k : Nat) (s : State) : Follows s (onExpire k s) := by
  unfold onExpire
  split
  · exact Follows.after (attempt_follows _) (Follows.after (setLast_follows _ _) (follows_of_eq rfl rfl rfl rfl rfl rfl rfl rfl rfl rfl))
  · exact Follows.refl s

theorem onLink_follows (e : LinkEvent) (s : State) : NextHas (Follows s) (onLink e s) := by
  cases e
  · exact onArrive_follows _ _
  · exact nextHas_next (onExpire_follows _ _)
  · exact nextHas_next (follows_of_eq rfl rfl rfl rfl rfl rfl rfl rfl rfl rfl)

/-! ### A running handler -/

/-- `t` comes after `s` by a handler's requests and stores: the inputs stay, the table may grow. -/
structure HandlerFollows (s t : State) : Prop where
  params : t.params = s.params
  hostPort : t.hostPort = s.hostPort
  writes : t.writes = s.writes
  link : t.link = s.link
  handlers : t.handlers = s.handlers
  clock : t.clock = s.clock
  sent : s.tx <+: t.tx
  issued : s.calls <+: t.calls

theorem Follows.handler {s t : State} (h : Follows s t) : HandlerFollows s t :=
  ⟨h.params, h.hostPort, h.writes, h.link, h.handlers, h.clock, h.sent, h.issued⟩

theorem HandlerFollows.trans {s t u : State} (h : HandlerFollows s t) (k : HandlerFollows t u) : HandlerFollows s u :=
  ⟨k.params.trans h.params, k.hostPort.trans h.hostPort, k.writes.trans h.writes, k.link.trans h.link,
   k.handlers.trans h.handlers, k.clock.trans h.clock, h.sent.trans k.sent, h.issued.trans k.issued⟩

theorem HandlerFollows.answers {s t : State} (h : HandlerFollows s t) : answersAtHand t = answersAtHand s := by
  simp only [answersAtHand, h.writes, h.link, h.handlers, h.clock]

theorem registerCallback_handlerFollows (id : Word) (hd : Handler) (s : State) :
    HandlerFollows s (registerCallback id hd s) := by
  unfold registerCallback registerEntry
  split <;> exact ⟨rfl, rfl, rfl, rfl, rfl, rfl, List.prefix_rfl, List.prefix_rfl⟩

theorem handlerRequest_follows (r : List Byte) (s : State) : NextHas (HandlerFollows s) (handlerRequest r s) := by
  have hr : HandlerFollows s (refuse s) := ⟨rfl, rfl, rfl, rfl, rfl, rfl, List.prefix_rfl, List.prefix_rfl⟩
  unfold handlerRequest
  split
  · exact nextHas_next hr
  · exact nextHas_next hr
  · exact nextHas_refused
  · refine gate_has hr fun _ _ _ => ?_
    split
    · exact nextHas_next (registerCallback_handlerFollows _ _ _)
    · exact nextHas_next ⟨rfl, rfl, rfl, rfl, rfl, rfl, List.prefix_rfl, List.prefix_rfl⟩
    · exact nextHas_fault

theorem handlerRequests_follows (rs : List (List Byte)) (s : State) :
    NextHas (HandlerFollows s) (handlerRequests rs s) := by
  induction rs generalizing s with
  | nil => exact nextHas_next (Follows.refl s).handler
  | cons r rs ih =>
    unfold handlerRequests
    split
    · next s1 hr => exact (ih s1).imp fun t ht => (handlerRequest_follows r s s1 hr).trans ht
    · exact nextHas_fault
    · exact nextHas_refused

theorem handlerReturned_follows (code : Word) (s : State) : NextHas (Follows s) (handlerReturned code s) := by
  unfold handlerReturned
  split
  · split
    · exact nextHas_next ((clearDeferred_follows s).trans (finish_follows _ _ _))
    · split
      · exact nextHas_fault
      · exact nextHas_next (Follows.after (putResult_follows _ _ _) (follows_of_eq rfl rfl rfl rfl rfl rfl rfl rfl rfl rfl))
  · exact nextHas_next (finish_follows _ _ _)
  · exact nextHas_next (Follows.refl s)

theorem onHandler_follows (r : HandlerRun) (s : State) : NextHas (HandlerFollows s) (onHandler r s) := by
  unfold onHandler
  split
  · exact nextHas_fault
  · split
    · exact nextHas_fault
    · exact nextHas_refused
    · next s1 hs =>
      split
      · exact nextHas_fault
      · next s2 hw =>
        obtain ⟨-, rfl⟩ := bufStores_some hw
        refine (handlerReturned_follows _ _).imp fun t ht => (handlerRequests_follows _ s s1 hs).trans ?_
        have h1 : Follows s1 t := Follows.after ht (follows_of_eq rfl rfl rfl rfl rfl rfl rfl rfl rfl rfl)
        exact h1.handler

/-! ### Running on takes the listed answers one at a time -/

/-- More fuel than answers at hand changes nothing. -/
theorem runFor_enough (k : Nat) (s : State) (h : answersAtHand s ≤ k) : runFor k s = runOn s := by
  suffices H : ∀ n k s, answersAtHand s ≤ n → answersAtHand s ≤ k → runFor k s = runFor n s from H _ k s (Nat.le_refl _) h
  clear h s k
  intro n
  induction n with
  | zero =>
    intro k s h0 _
    cases k with
    | zero => rfl
    | succ k =>
      simp only [answersAtHand, Nat.le_zero, Nat.add_eq_zero_iff, List.length_eq_zero_iff] at h0
      obtain ⟨⟨⟨hc, hw⟩, hl⟩, hh⟩ := h0
      unfold runFor
      split <;> simp [hc, hw, hl, hh]
  | succ n ih =>
    intro k s hn hk
    cases k with
    | zero =>
      simp only [answersAtHand, Nat.le_zero, Nat.add_eq_zero_iff, List.length_eq_zero_iff] at hk
      obtain ⟨⟨⟨hc, hw⟩, hl⟩, hh⟩ := hk
      unfold runFor
      split <;> simp [hc, hw, hl, hh]
    | succ k =>
      simp only [runFor]
      split
      · rfl
      · split
        · rfl
        · next d rest hc =>
          have hf := (onClock_follows d { s with clock := rest }).answers
          simp only [answersAtHand, hc, List.length_cons] at hn hk hf
          exact ih _ _ (by simp only [answersAtHand]; omega) (by simp only [answersAtHand]; omega)
      · split
        · rfl
        · next a rest hw =>
          have hf := (onWrite_follows a { s with writes := rest }).answers
          simp only [answersAtHand, hw, List.length_cons] at hn hk hf
          exact ih _ _ (by simp only [answersAtHand]; omega) (by simp only [answersAtHand]; omega)
      · split
        · rfl
        · next e rest hl =>
          split
          · next s1 hs =>
            have hf := (onLink_follows e { s with link := rest } s1 hs).answers
            simp only [answersAtHand, hl, List.length_cons] at hn hk hf
            exact ih _ _ (by simp only [answersAtHand]; omega) (by simp only [answersAtHand]; omega)
          · rfl
          · rfl
      · split
        · rfl
        · next r rest hh =>
          split
          · next s1 hs =>
            have hf := (onHandler_follows r { s with handlers := rest } s1 hs).answers
            simp only [answersAtHand, hh, List.length_cons] at hn hk hf
            exact ih _ _ (by simp only [answersAtHand]; omega) (by simp only [answersAtHand]; omega)
          · rfl
          · rfl

/-- With no port primitive pending there is nothing to run. -/
theorem runOn_nobody {s : State} (h : s.waiting = .nobody) : runOn s = .next s := by
  unfold runOn
  cases answersAtHand s with
  | zero => rfl
  | succ k => simp [runFor, h]

/-- Asking for the time with no reading listed, the operation stops there. -/
theorem runOn_clock_nil {s : State} (h : s.waiting = .clock) (hc : s.clock = []) : runOn s = .next s := by
  unfold runOn
  cases answersAtHand s with
  | zero => rfl
  | succ k => simp [runFor, h, hc]

/-- Asking for the time, the first reading listed is taken. -/
theorem runOn_clock {s : State} {d : Word} {rest : List Word} (h : s.waiting = .clock) (hc : s.clock = d :: rest) :
    runOn s = runOn (onClock d { s with clock := rest }) := by
  have hf := (onClock_follows d { s with clock := rest }).answers
  have hk : answersAtHand s = answersAtHand { s with clock := rest } + 1 := by
    simp only [answersAtHand, hc, List.length_cons]; omega
  rw [runOn, hk]
  simp only [runFor, h, hc]
  exact runFor_enough _ _ (by omega)

/-- Blocked on a `TWrite` with no answer listed, the operation stops there. -/
theorem runOn_write_nil {s : State} (h : s.waiting = .write) (hw : s.writes = []) : runOn s = .next s := by
  unfold runOn
  cases answersAtHand s with
  | zero => rfl
  | succ k => simp [runFor, h, hw]

/-- Blocked on a `TWrite`, the first answer listed is taken. -/
theorem runOn_write {s : State} {a : WriteAnswer} {rest : List WriteAnswer} (h : s.waiting = .write)
    (hw : s.writes = a :: rest) : runOn s = runOn (onWrite a { s with writes := rest }) := by
  have hf := (onWrite_follows a { s with writes := rest }).answers
  have hk : answersAtHand s = answersAtHand { s with writes := rest } + 1 := by
    simp only [answersAtHand, hw, List.length_cons]; omega
  rw [runOn, hk]
  simp only [runFor, h, hw]
  exact runFor_enough _ _ (by omega)

theorem runOn_read_nil {s : State} {n : Nat} (h : s.waiting = .read n) (hl : s.link = []) : runOn s = .next s := by
  unfold runOn
  cases answersAtHand s with
  | zero => rfl
  | succ k => simp [runFor, h, hl]

/-- Blocked on a `TRead`, the first thing listed at the receive side happens. -/
theorem runOn_read {s : State} {n : Nat} {e : LinkEvent} {rest : List LinkEvent} (h : s.waiting = .read n)
    (hl : s.link = e :: rest) : runOn s = runOnFrom (onLink e { s with link := rest }) := by
  have hk : answersAtHand s = answersAtHand { s with link := rest } + 1 := by
    simp only [answersAtHand, hl, List.length_cons]; omega
  rw [runOn, hk]
  simp only [runFor, h, hl]
  cases ho : onLink e { s with link := rest } with
  | next s1 =>
    have hf := (onLink_follows e { s with link := rest } s1 ho).answers
    exact runFor_enough _ _ (by omega)
  | fault f => rfl
  | refused r => rfl

theorem runOn_handler_nil {s : State} (h : s.waiting = .handler) (hh : s.handlers = []) : runOn s = .next s := by
  unfold runOn
  cases answersAtHand s with
  | zero => rfl
  | succ k => simp [runFor, h, hh]

/-- Blocked on an invoked handler, the first run listed is taken. -/
theorem runOn_handler {s : State} {r : HandlerRun} {rest : List HandlerRun} (h : s.waiting = .handler)
    (hh : s.handlers = r :: rest) : runOn s = runOnFrom (onHandler r { s with handlers := rest }) := by
  have hk : answersAtHand s = answersAtHand { s with handlers := rest } + 1 := by
    simp only [answersAtHand, hh, List.length_cons]; omega
  rw [runOn, hk]
  simp only [runFor, h, hh]
  cases ho : onHandler r { s with handlers := rest } with
  | next s1 =>
    have hf := (onHandler_follows r { s with handlers := rest } s1 ho).answers
    exact runFor_enough _ _ (by omega)
  | fault f => rfl
  | refused r => rfl

/-- Everything running on can do: one answer of the agent the operation waits for, if one is listed. -/
theorem runOn_unfold (s : State) :
    runOn s =
      match s.waiting with
      | .nobody => .next s
      | .clock =>
        match s.clock with
        | [] => .next s
        | d :: rest => runOn (onClock d { s with clock := rest })
      | .write =>
        match s.writes with
        | [] => .next s
        | a :: rest => runOn (onWrite a { s with writes := rest })
      | .read _ =>
        match s.link with
        | [] => .next s
        | e :: rest => runOnFrom (onLink e { s with link := rest })
      | .handler =>
        match s.handlers with
        | [] => .next s
        | r :: rest => runOnFrom (onHandler r { s with handlers := rest }) := by
  split
  · next h => exact runOn_nobody h
  · next h =>
    split
    · next hc => exact runOn_clock_nil h hc
    · next hc => exact runOn_clock h hc
  · next h =>
    split
    · next hw => exact runOn_write_nil h hw
    · next hw => exact runOn_write h hw
  · next h =>
    split
    · next hl => exact runOn_read_nil h hl
    · next hl => exact runOn_read h hl
  · next h =>
    split
    · next hh => exact runOn_handler_nil h hh
    · next hh => exact runOn_handler h hh

@[simp] theorem runOnFrom_next (s : State) : runOnFrom (.next s) = runOn s := rfl
@[simp] theorem runOnFrom_fault (f : Fault) : runOnFrom (.fault f) = .fault f := rfl
@[simp] theorem runOnFrom_refused (x : Refusal) : runOnFrom (.refused x) = .refused x := rfl

end Sys2Proof.Machine
end

