-- ==== Sys2Proof/Laws/Pair.lean ====
section
/-! SUPPORT. What one turn of the two-device system can do: the step of one instance with the answer it was given, and the bytes
carried to the other. -/

namespace Sys2Proof.Machine

@[simp] theorem withAnswers_params (a : Answers) (s : State) : (s.withAnswers a).params = s.params := rfl
@[simp] theorem withAnswers_job (a : Answers) (s : State) : (s.withAnswers a).job = s.job := rfl
@[simp] theorem withAnswers_exch (a : Answers) (s : State) : (s.withAnswers a).exch = s.exch := rfl
@[simp] theorem withAnswers_hostPort (a : Answers) (s : State) : (s.withAnswers a).hostPort = s.hostPort := rfl
@[simp] theorem withAnswers_rx (a : Answers) (s : State) : (s.withAnswers a).rx = s.rx := rfl
@[simp] theorem withAnswers_tx (a : Answers) (s : State) : (s.withAnswers a).tx = s.tx := rfl
@[simp] theorem withAnswers_waiting (a : Answers) (s : State) : (s.withAnswers a).waiting = s.waiting := rfl
@[simp] theorem withAnswers_answers (a : Answers) (s : State) : (s.withAnswers a).answers = a := rfl
@[simp] theorem withAnswers_self (s : State) : s.withAnswers s.answers = s := rfl
@[simp] theorem withAnswers_withAnswers (a b : Answers) (s : State) : (s.withAnswers a).withAnswers b = s.withAnswers b := rfl

/-- A step with the given answers is a step of the machine on them, with the kept ones put back. -/
theorem stepWith_next {given kept : Answers} {s t : State} :
    stepWith given kept s = .next t ↔ ∃ u, step (s.withAnswers given) = .next u ∧ t = u.withAnswers kept := by
  unfold stepWith
  cases step (s.withAnswers given) with
  | next u => simp [eq_comm]
  | fault f => simp
  | refused r => simp

/-- Every turn of an instance is a step of the machine with answers that the link or the other agents gave. -/
theorem instanceTurn_step {l : LinkKind} {timesOut : Bool} {s t : State} (h : instanceTurn l timesOut s = some (.next t)) :
    ∃ given kept, stepWith given kept s = .next t := by
  unfold instanceTurn at h
  split at h
  · obtain ⟨e, -, he⟩ := Option.map_eq_some_iff.mp h
    exact ⟨_, _, he⟩
  all_goals
    split at h
    · cases h
    · exact ⟨_, _, Option.some.inj h⟩

/-- A turn of the system is a turn of one instance; the other only receives what the link carries. -/
theorem pairStep_cases {l : LinkKind} {t : Turn} {p q : Pair} (h : pairStep l t p = some q) :
    (∃ timesOut m, instanceTurn l timesOut p.master = some (.next m) ∧
      q = ⟨m, { p.slave with rx := p.slave.rx ++ l.carried p.master m }⟩) ∨
    (∃ timesOut s, instanceTurn l timesOut p.slave = some (.next s) ∧
      q = ⟨{ p.master with rx := p.master.rx ++ l.carried p.slave s }, s⟩) := by
  have master : ∀ o, masterMoved l p o = some q → ∃ m, o = some (.next m) ∧
      q = ⟨m, { p.slave with rx := p.slave.rx ++ l.carried p.master m }⟩ := by
    intro o ho
    unfold masterMoved at ho
    split at ho
    · exact ⟨_, rfl, (Option.some.inj ho).symm⟩
    · cases ho
  have slave : ∀ o, slaveMoved l p o = some q → ∃ s, o = some (.next s) ∧
      q = ⟨{ p.master with rx := p.master.rx ++ l.carried p.slave s }, s⟩ := by
    intro o ho
    unfold slaveMoved at ho
    split at ho
    · exact ⟨_, rfl, (Option.some.inj ho).symm⟩
    · cases ho
  cases t with
  | master => exact Or.inl ⟨_, master _ h⟩
  | slave => exact Or.inr ⟨_, slave _ h⟩
  | masterTimesOut => exact Or.inl ⟨_, master _ h⟩
  | slaveTimesOut => exact Or.inr ⟨_, slave _ h⟩

/-- On a link that carries nothing from one end to the other (R73 stalled, R71) a turn of one instance leaves the other as it was. -/
theorem pairStep_apart {l : LinkKind} (hl : l ≠ .ideal) {t : Turn} {p q : Pair} (h : pairStep l t p = some q) :
    q.slave = p.slave ∨ q.master = p.master := by
  have carried : ∀ a b, l.carried a b = [] := by cases l <;> first | exact absurd rfl hl | exact fun _ _ => rfl
  rcases pairStep_cases h with ⟨_, m, -, rfl⟩ | ⟨_, s, -, rfl⟩
  · exact Or.inl (by simp [carried])
  · exact Or.inr (by simp [carried])

end Sys2Proof.Machine
end

