-- ==== Sys2Proof/Laws/PerInstr.lean ====
section
/-! SUPPORT. What holds of each instruction, said per constructor: its encoding begins with what tells it apart, the operation
number of `30_encoding.md` R113 for a request, the marker of R101 for a frame. -/

namespace Sys2Proof.Laws.FirstBytes

/-- The bytes that tell an instruction apart: the OP column of R113; the two marker bytes of R101 in wire order. -/
def head (f : Formats) : Instr → List Byte
  | .crc16 _ => [0x01]
  | .encode _ _ => [0x02]
  | .decode _ _ => [0x03]
  | .putPacket _ _ _ => [0x04]
  | .getPacket _ _ _ => [0x05]
  | .putCommand _ _ _ => [0x10]
  | .getResult _ _ => [0x11]
  | .call _ _ _ _ _ => [0x12]
  | .getCommand => [0x20]
  | .findCallback _ => [0x21]
  | .putResult _ => [0x22]
  | .registerCallback _ _ => [0x23]
  | .scheduleCallback _ => [0x24]
  | .loop => [0x25]
  | .ch _ _ _ => le16 f.markers.ch
  | .cd _ _ => le16 f.markers.cd
  | .rh _ _ => le16 f.markers.rh
  | .rd _ _ => le16 f.markers.rd

/-- The encoding of the instruction begins with its number or marker. -/
def Statement (i : Instr) : Prop := ∀ f : Formats, head f i <+: encode f i

theorem crc16 (bytes : List Byte) : Statement (.crc16 bytes) := fun _ => List.prefix_append [0x01] _

theorem encode (kind : Kind) (payload : List Byte) : Statement (.encode kind payload) := fun _ => List.prefix_append [0x02] _

theorem decode (frame : List Byte) (kind : Kind) : Statement (.decode frame kind) := fun _ => List.prefix_append [0x03] _

theorem putPacket (kind : Kind) (payload : List Byte) (long : Option Word) : Statement (.putPacket kind payload long) :=
  fun _ => List.prefix_append [0x04] _

theorem getPacket (kind : Kind) (n : Word) (long : Option Word) : Statement (.getPacket kind n long) :=
  fun _ => List.prefix_append [0x05] _

theorem putCommand (rpcId : Word) (data : List Byte) (timeout : Word) : Statement (.putCommand rpcId data timeout) :=
  fun _ => List.prefix_append [0x10] _

theorem getResult (cap timeout : Word) : Statement (.getResult cap timeout) := fun _ => List.prefix_append [0x11] _

theorem call (rpcId : Word) (request : List Byte) (cap sendTimeout recvTimeout : Word) :
    Statement (.call rpcId request cap sendTimeout recvTimeout) := fun _ => List.prefix_append [0x12] _

theorem getCommand : Statement .getCommand := fun _ => List.prefix_append [0x20] []

theorem findCallback (rpcId : Word) : Statement (.findCallback rpcId) := fun _ => List.prefix_append [0x21] _

theorem putResult (data : List Byte) : Statement (.putResult data) := fun _ => List.prefix_append [0x22] _

theorem registerCallback (rpcId : Word) (handler : Handler) : Statement (.registerCallback rpcId handler) :=
  fun _ => List.prefix_append [0x23] _

theorem scheduleCallback (handler : Handler) : Statement (.scheduleCallback handler) := fun _ => List.prefix_append [0x24] _

theorem loop : Statement .loop := fun _ => List.prefix_append [0x25] []

theorem frameBytes_prefix (m : Markers) (kind : Kind) (payload : List Byte) (checksum : Half) :
    le16 (magic m kind) <+: frameBytes m kind payload checksum := by
  unfold frameBytes
  rw [List.append_assoc]
  exact List.prefix_append _ _

theorem ch (rpcId dataLen : Word) (checksum : Half) : Statement (.ch rpcId dataLen checksum) :=
  fun f => frameBytes_prefix f.markers .ch _ _

theorem cd (data : List Byte) (checksum : Half) : Statement (.cd data checksum) := fun f => frameBytes_prefix f.markers .cd _ _

theorem rh (dataLen : Word) (checksum : Half) : Statement (.rh dataLen checksum) := fun f => frameBytes_prefix f.markers .rh _ _

theorem rd (data : List Byte) (checksum : Half) : Statement (.rd data checksum) := fun f => frameBytes_prefix f.markers .rd _ _

end Sys2Proof.Laws.FirstBytes
end

