-- ==== Sys2Proof/Tests/Slice0.lean ====
section
/-! SUPPORT. Tests. Expected results are those of `95_test_vectors.md` (named V1 to V102, P1 to P9 there) and of the worked
examples of the rules. After them, for every statement with hypotheses, a concrete state and operands that meet all of them. -/

namespace Sys2Proof.Tests

-- Each `decide +kernel` waits for all declarations before it: one after the other, not one waiting thread for each.
set_option Elab.async false

open Sys2Proof Sys2Proof.Machine Sys2Proof.Claims

/-! ### Helpers -/

/-- The parameters the vectors assume, with a short timeout of 100 ms. -/
def vectorParams (r : Role) : Params :=
  { role := r, shortTimeoutMs := 100, maxCallbacks := 16, bufCap := 256, busAddressed := false, maxLocalBuffer := 256
    slaveBusAddr := 0 }

/-- A master at reset. No time passes ("`Now()` constant"). -/
def master : State := { State.resetWith (vectorParams .master) with clock := [0, 0, 0, 0, 0, 0, 0, 0] }

/-- A slave at reset. -/
def slave : State := State.resetWith (vectorParams .slave)

/-- A slave with one registration, as most programs of the vectors begin. -/
def slaveWith (id : Word) (h : Handler) : State :=
  { slave with cb := ⟨id, h⟩ :: List.replicate 15 ⟨0, 0⟩, cbCount := 1 }

/-- The transport accepts (`T`) or refuses without sending (`F`). -/
def T : WriteAnswer := ⟨true, 0⟩
def F : WriteAnswer := ⟨false, 0⟩

/-- What a test looks at in a next state. -/
def seen {α : Type} (f : State → α) : Out → Option α
  | .next s => some (f s)
  | .fault _ => none
  | .refused _ => none

/-- `STATUS`, `RETRY_CNT` and what stands on the transmit stream. -/
def sent (s : State) : Status × BitVec 8 × List Byte := (s.status, s.retryCnt, s.tx)

/-- `STATUS`, `RETRY_CNT`, the result and what is left of the receive stream. -/
def received (s : State) : Status × BitVec 8 × Result × List Byte := (s.status, s.retryCnt, s.result, s.rx)

/-- The frames of program P1. -/
def chP1 : List Byte := [0x09, 0x12, 1, 0, 0, 0, 2, 0, 0, 0, 0x15, 0xFB]
def cdP1 : List Byte := [0xD1, 0xAB, 0xDE, 0xAD, 0x75, 0x45]
def rhP1 : List Byte := [0x21, 0x90, 2, 0, 0, 0, 0x5A, 0xB5]
def rdP1 : List Byte := [0xBA, 0x1D, 0xAD, 0xDE, 0x19, 0x5D]

/-! ### Well-formedness refuses -/

/-- A byte sequence one byte longer than a 32-bit length can say. -/
theorem too_long {b : List Byte} (h : b.length = 2 ^ 32) : fitsLength b = false := by
  simp [h]

theorem test_wf_crc16 {b : List Byte} (h : b.length = 2 ^ 32) : (Instr.crc16 b).wellFormed {} = false := too_long h
theorem test_wf_encode {b : List Byte} (h : b.length = 2 ^ 32) : (Instr.encode .cd b).wellFormed {} = false := too_long h
theorem test_wf_decode {b : List Byte} (h : b.length = 2 ^ 32) : (Instr.decode b .cd).wellFormed {} = false := too_long h
theorem test_wf_putPacket {b : List Byte} (h : b.length = 2 ^ 32) : (Instr.putPacket .cd b none).wellFormed {} = false :=
  too_long h
theorem test_wf_putCommand {b : List Byte} (h : b.length = 2 ^ 32) : (Instr.putCommand 1 b 1).wellFormed {} = false := too_long h
theorem test_wf_call {b : List Byte} (h : b.length = 2 ^ 32) : (Instr.call 1 b 1 1 1).wellFormed {} = false := too_long h
theorem test_wf_putResult {b : List Byte} (h : b.length = 2 ^ 32) : (Instr.putResult b).wellFormed {} = false := too_long h
/-- There is such a sequence. -/
theorem test_wf_too_long_exists : ∃ b : List Byte, b.length = 2 ^ 32 := ⟨List.replicate (2 ^ 32) 0, List.length_replicate⟩
/-- A handler reference of more bits than `HANDLER_W`, the default and another. -/
theorem test_wf_registerCallback : (Instr.registerCallback 1 (2 ^ 32)).wellFormed {} = false := by decide
theorem test_wf_scheduleCallback : (Instr.scheduleCallback 16).wellFormed { handlerW := 4 } = false := by decide
/-- Header layouts whose control values overlap or lie outside the payload, and a frame longer than a 32-bit length can say. -/
theorem test_wf_header_overlap : ({ chLenAt := 3 } : HeaderLayout).wf = false := by decide
theorem test_wf_header_ch_outside : ({ chLen := 7 } : HeaderLayout).wf = false := by decide
theorem test_wf_header_rh_outside : ({ rhLenAt := 1 } : HeaderLayout).wf = false := by decide
theorem test_wf_header_too_long : ({ rhLen := 2 ^ 32 - 4 } : HeaderLayout).wf = false := by decide
theorem test_wf_markers : ({ ch := 0x1209, cd := 0x1209 } : Markers).distinct = false := by decide
theorem test_wf_params : (vectorParams .slave).wf = true := by decide
theorem test_wf_params_callbacks : { vectorParams .slave with maxCallbacks := 17 }.wf = false := by decide
theorem test_wf_params_localBuffer : { vectorParams .slave with maxLocalBuffer := 64 }.wf = false := by decide
theorem test_wf_params_bufCap : { vectorParams .slave with bufCap := 2 ^ 32 }.wf = false := by decide
theorem test_wf_params_bus : { vectorParams .slave with busAddressed := true }.wf = false := by decide
theorem test_wf_params_markers : { vectorParams .slave with markers := { ch := 0xABD1 } }.wf = false := by decide

/-! ### Decoding: words written out from the operation table (R113, log 13) and from R101 to R106 -/

theorem test_decode_crc16 : decodeRequest {} [0x01, 2, 0, 0, 0, 0xDE, 0xAD] = .ok (.crc16 [0xDE, 0xAD]) := by decide
theorem test_decode_encode : decodeRequest {} [0x02, 3, 1, 0, 0, 0, 0x2A] = .ok (.encode .rd [0x2A]) := by decide
theorem test_decode_decode : decodeRequest {} [0x03, 1, 0, 0, 0, 0xD1, 2] = .ok (.decode [0xD1] .rh) := by decide
theorem test_decode_putPacket :
    decodeRequest {} [0x04, 1, 1, 0, 0, 0, 7, 1, 0xE8, 3, 0, 0] = .ok (.putPacket .cd [7] (some 1000)) := by decide
theorem test_decode_getPacket : decodeRequest {} [0x05, 0, 8, 0, 0, 0, 0] = .ok (.getPacket .ch 8 none) := by decide
theorem test_decode_putCommand :
    decodeRequest {} [0x10, 0x78, 0x56, 0x34, 0x12, 1, 0, 0, 0, 9, 5, 0, 0, 0] = .ok (.putCommand 0x12345678 [9] 5) := by
  decide
theorem test_decode_getResult : decodeRequest {} [0x11, 16, 0, 0, 0, 0xE8, 3, 0, 0] = .ok (.getResult 16 1000) := by decide
theorem test_decode_call :
    decodeRequest {} [0x12, 1, 0, 0, 0, 2, 0, 0, 0, 0xDE, 0xAD, 16, 0, 0, 0, 0xE8, 3, 0, 0, 0xE9, 3, 0, 0] =
      .ok (.call 1 [0xDE, 0xAD] 16 1000 1001) := by decide
theorem test_decode_getCommand : decodeRequest {} [0x20] = .ok .getCommand := by decide
theorem test_decode_findCallback : decodeRequest {} [0x21, 0, 0, 0, 0x80] = .ok (.findCallback 0x80000000) := by decide
theorem test_decode_putResult : decodeRequest {} [0x22, 0, 0, 0, 0] = .ok (.putResult []) := by decide
theorem test_decode_registerCallback :
    decodeRequest {} [0x23, 1, 0, 0, 0, 2, 0, 0, 0] = .ok (.registerCallback 1 2) := by decide
theorem test_decode_scheduleCallback : decodeRequest {} [0x24, 0, 1, 0, 0] = .ok (.scheduleCallback 256) := by decide
theorem test_decode_loop : decodeRequest {} [0x25] = .ok .loop := by decide
theorem test_decode_ch : decodeWire {} chP1 = .ok (.ch 1 2 0xFB15) := by decide
theorem test_decode_cd : decodeWire {} cdP1 = .ok (.cd [0xDE, 0xAD] 0x4575) := by decide
theorem test_decode_rh : decodeWire {} rhP1 = .ok (.rh 2 0xB55A) := by decide
theorem test_decode_rd : decodeWire {} rdP1 = .ok (.rd [0xAD, 0xDE] 0x5D19) := by decide
theorem test_decode_unknown_op : decodeRequest {} [0x26] = .error .unknownOp := by decide
theorem test_decode_bad_kind : decodeRequest {} [0x02, 4, 0, 0, 0, 0] = .error .badKind := by decide
theorem test_decode_short : decodeRequest {} [0x21, 0, 0, 0] = .error .malformed := by decide
theorem test_decode_bad_long : decodeRequest {} [0x05, 0, 8, 0, 0, 0, 2] = .error .malformed := by decide
theorem test_decode_unknown_marker : decodeWire {} [0, 0, 0, 0] = .error .unknownMarker := by decide
theorem test_decode_bad_length : decodeWire {} [0x09, 0x12, 0, 0, 0, 0, 0, 0] = .error .badLength := by decide

/-- Two bytes of a 12-bit handler reference; a reference that has more bits. -/
theorem test_decode_handler_width :
    decodeRequest { handlerW := 12 } [0x24, 0x34, 0x02] = .ok (.scheduleCallback 0x234) ∧
    decodeRequest { handlerW := 12 } [0x24, 0x34, 0x12] = .error .malformed := by decide
/-- A result-header of another layout: one filler byte, then the length. -/
theorem test_decode_header_layout :
    decodeWire { header := { rhLen := 5, rhLenAt := 1 } } [0x21, 0x90, 0, 2, 0, 0, 0, 0x5A, 0xB5] = .ok (.rh 2 0xB55A) ∧
    decodeWire { header := { rhLen := 5, rhLenAt := 1 } } [0x21, 0x90, 9, 2, 0, 0, 0, 0x5A, 0xB5] = .error .badFiller := by
  decide

/-! ### The operation table's words -/

theorem test_table_request : decodeTableWord 8 0x25 = some .loop := by decide
theorem test_table_frame : decodeTableWord 16 0x1209 = some (.ch 0 0 0) := by decide
theorem test_table_placed : step (slave.withFetchWord 8 0x25) = exec .loop { slave with hostPort := [] } := by rfl

/-! ### One or two tests for each instruction -/

/-- V1. -/
theorem test_crc16_check_value :
    seen (fun s => s.result) (exec (.crc16 [0x31, 0x32, 0x33, 0x34, 0x35, 0x36, 0x37, 0x38, 0x39]) slave) =
      some (.code 0x29B1) := by decide +kernel

/-- V13. -/
theorem test_crc16_sixteen_bytes :
    seen (fun s => s.result) (exec (.crc16 [0, 1, 2, 3, 4, 5, 6, 7, 8, 9, 10, 11, 12, 13, 14, 15]) slave) =
      some (.code 0x3B37) := by decide +kernel

/-- V20. -/
theorem test_encode_cd : seen (fun s => s.result) (exec (.encode .cd [0xDE, 0xAD]) slave) = some (.bytes cdP1) := by
  decide +kernel

/-- V31: identifier low byte first. -/
theorem test_encode_ch :
    seen (fun s => s.result) (exec (.encode .ch [0x78, 0x56, 0x34, 0x12, 0, 0, 0, 0]) slave) =
      some (.bytes [0x09, 0x12, 0x78, 0x56, 0x34, 0x12, 0, 0, 0, 0, 0x3E, 0xDD]) := by decide +kernel

/-- V43, V45. -/
theorem test_decode_flipped :
    seen received (exec (.decode cdP1 .cd) slave) = some (.ok, 0, .bytes [0xDE, 0xAD], []) ∧
    seen received (exec (.decode [0xD1, 0xAB, 0xDF, 0xAD, 0x75, 0x45] .cd) slave) =
      some (.checksumMismatch, 0, .nothing, []) := by decide +kernel

/-- V56, V52. -/
theorem test_decode_order :
    seen received (exec (.decode [0xBA, 0x1D, 2, 0, 0, 0, 0x5A, 0xB5] .rh) slave) =
      some (.markerMismatch, 0, .nothing, []) ∧
    seen received (exec (.decode [0x21, 0x90, 0x61, 0xAB] .rh) slave) = some (.truncated, 0, .nothing, []) := by
  decide +kernel

/-- V61 and V63. -/
theorem test_putPacket_attempts :
    seen sent (exec (.putPacket .cd [0xDE, 0xAD] none) { master with writes := [F, T] }) = some (.ok, 1, cdP1) ∧
    seen sent (exec (.putPacket .cd [0xDE, 0xAD] none) { master with writes := [F, F, F, T] }) = some (.timeout, 0, []) := by
  decide +kernel

/-- V67: `T0 = 0`, `Now()` reads 0 then 60. -/
theorem test_putPacket_deadline :
    seen sent (exec (.putPacket .cd [0xDE, 0xAD] (some 50)) { master with clock := [0, 60], writes := [F] }) =
      some (.timeout, 2, []) := by decide +kernel

/-- The operation stops at the deadline check until the time source answers (R28). -/
theorem test_putPacket_asks_for_the_time :
    seen (fun s => (s.waiting, s.retryCnt, s.tx)) (exec (.putPacket .cd [0xDE, 0xAD] (some 50)) { master with clock := [] }) =
      some (.clock, 3, []) := by decide +kernel

/-- V69. -/
theorem test_getPacket_retries :
    seen received
      (exec (.getPacket .rd 2 none)
        { master with link := [.arrive [0xBA, 0x1D, 0xAD, 0xDF, 0x19, 0x5D], .arrive rdP1] }) =
      some (.ok, 1, .bytes [0xAD, 0xDE], []) := by decide +kernel

/-- V71 and V72: the last attempt's failure. -/
theorem test_getPacket_last :
    seen received (exec (.getPacket .rd 2 none) { master with link := [.arrive cdP1, .expire 0, .expire 0] }) =
      some (.timeout, 0, .nothing, []) ∧
    seen received (exec (.getPacket .rd 2 none) { master with link := [.expire 0, .expire 0, .arrive cdP1] }) =
      some (.markerMismatch, 0, .nothing, []) := by decide +kernel

/-- V78. -/
theorem test_putCommand :
    seen sent (exec (.putCommand 1 [0xDE, 0xAD] 1000) { master with writes := [T, T] }) = some (.ok, 2, chP1 ++ cdP1) := by
  decide +kernel

/-- V80: the header stays on the link. -/
theorem test_putCommand_data_refused :
    seen sent (exec (.putCommand 1 [0xDE, 0xAD] 1000) { master with writes := [T, F, F, F] }) = some (.timeout, 0, chP1) := by
  decide +kernel

/-- V82: `n = cap` is accepted. -/
theorem test_getResult_exact :
    seen received (exec (.getResult 2 1000) { master with link := [.arrive rhP1, .arrive rdP1] }) =
      some (.ok, 2, .data [0xAD, 0xDE] 2, []) := by decide +kernel

/-- V83. -/
theorem test_getResult_oversize :
    seen received
      (exec (.getResult 4 1000)
        { master with
          link := [.arrive [0x21, 0x90, 5, 0, 0, 0, 0x77, 0xE4, 0xBA, 0x1D, 1, 2, 3, 4, 5, 0x3B, 0x26]] }) =
      some (.lenOverflow, 2, .nothing, [0xBA, 0x1D, 1, 2, 3, 4, 5, 0x3B, 0x26]) := by decide +kernel

/-- The master's side of P1. -/
theorem test_call :
    seen (fun s => (s.status, s.state, s.tx, readBytes s.respBuf 0 2, s.respLen))
      (exec (.call 1 [0xDE, 0xAD] 16 1000 1000)
        { master with writes := [T, T], link := [.arrive rhP1, .arrive rdP1] }) =
      some (.ok, .idle, chP1 ++ cdP1, [0xAD, 0xDE], 2) := by decide +kernel

/-- V87 and V88. -/
theorem test_call_zero_timeouts :
    seen sent (exec (.call 1 [0xDE, 0xAD] 16 0 1000) master) = some (.timeout, 3, []) ∧
    seen sent (exec (.call 1 [0xDE, 0xAD] 16 1000 0) { master with writes := [T, T] }) =
      some (.timeout, 3, chP1 ++ cdP1) := by decide +kernel

/-- V89. -/
theorem test_getCommand :
    seen (fun s => (s.status, s.buf, s.bufLen, s.curRpcId, s.result))
      (exec .getCommand { slave with link := [.arrive chP1, .arrive cdP1] }) =
      some (.ok, [(0, 0xDE), (1, 0xAD)], 2, 1, .rpcId 1) := by decide +kernel

/-- V91. -/
theorem test_getCommand_oversize :
    seen received
      (exec .getCommand { slave with link := [.arrive [0x09, 0x12, 1, 0, 0, 0, 0x2C, 1, 0, 0, 0x31, 0x59]] }) =
      some (.lenOverflow, 1, .nothing, []) := by decide +kernel

/-- V96 and X4. -/
theorem test_findCallback :
    seen received (exec (.findCallback 1) slave) = some (.notFound, 0, .nothing, []) ∧
    seen received (exec (.findCallback 1) (slaveWith 1 7)) = some (.ok, 0, .handler 7, []) := by decide

/-- V94. -/
theorem test_putResult_empty :
    seen sent (exec (.putResult []) { slave with writes := [T, T] }) =
      some (.ok, 1, [0x21, 0x90, 0, 0, 0, 0, 0x32, 0x58, 0xBA, 0x1D, 0x55, 0x2F]) := by decide +kernel

/-- V95. -/
theorem test_putResult_refused :
    seen sent (exec (.putResult [0xAD, 0xDE]) { slave with writes := [F, F] }) = some (.timeout, 0, []) := by decide +kernel

/-- V98. -/
theorem test_registerCallback_duplicate :
    seen (fun s => (s.status, s.cbCount, lookup 1 s)) (exec (.registerCallback 1 9) (slaveWith 1 7)) =
      some (.duplicate, 1, some 7) := by decide

/-- P3: the table is full. -/
theorem test_registerCallback_full :
    seen (fun s => (s.status, s.cbCount)) (exec (.registerCallback 0x200 9) { slaveWith 1 7 with cbCount := 16 }) =
      some (.tableFull, 16) := by decide

/-- V99. -/
theorem test_scheduleCallback :
    seen (fun s => (s.defValid, s.defHandler, s.cbCount))
      (exec (.scheduleCallback 9) { slave with defValid := true, defHandler := 7 }) = some (true, 9, 0) := by decide

/-- The slave's side of P1. -/
theorem test_loop :
    seen (fun s => (s.status, s.retryCnt, s.tx, readBytes s.buf 0 2, s.bufLen))
      (exec .loop
        { slaveWith 1 7 with
          link := [.arrive chP1, .arrive cdP1], writes := [T, T], handlers := [.returns [] [(0, 0xAD), (1, 0xDE)] 2] }) =
      some (.ok, 1, rhP1 ++ rdP1, [0xAD, 0xDE], 2) := by decide +kernel

/-- V101. -/
theorem test_loop_oversize_code :
    seen (fun s => (s.status, s.tx, readBytes s.buf 0 2, s.bufLen, s.defValid))
      (exec .loop
        { slaveWith 1 7 with
          link := [.arrive chP1, .arrive cdP1], handlers := [.returns [] [] 257], defValid := true }) =
      some (.lenOverflow, [], [0xDE, 0xAD], 2, false) := by decide +kernel

/-- A slave whose LOOP waits for a command-header. -/
def awaitingHeader : State :=
  { slave with phase := .sGetCh, job := .recvHeader true, exch := .get .ch 8 none .timeout, retryCnt := 1 }

/-- A master whose CALL waits for the result-header. -/
def awaitingResultHeader : State :=
  { master with
    state := .awaitingResult, phase := .mGetRh, job := .resultHeader 16, exch := .get .rh 4 (some 1000) .timeout
    retryCnt := 2 }

/-- V24. -/
theorem test_ch : seen (fun s => (s.phase, s.job, s.waiting)) (exec (.ch 1 2 0xFB15) awaitingHeader) =
    some (.sGetCd, .recvData 1 true, .read 6) := by decide +kernel

/-- A wrong checksum costs an attempt (R111). -/
theorem test_ch_rejected : seen (fun s => (s.phase, s.retryCnt, s.exch)) (exec (.ch 1 2 0xFB14) awaitingHeader) =
    some (.sGetCh, 0, .get .ch 8 none .checksumMismatch) := by decide +kernel

/-- V20, as the command-data of a GET_COMMAND. -/
theorem test_cd :
    seen received
      (exec (.cd [0xDE, 0xAD] 0x4575)
        { slave with phase := .sGetCd, job := .recvData 1 false, exch := .get .cd 2 none .timeout, retryCnt := 1 }) =
      some (.ok, 1, .rpcId 1, []) := by decide +kernel

/-- V25. -/
theorem test_rh : seen (fun s => (s.state, s.phase, s.waiting)) (exec (.rh 2 0xB55A) awaitingResultHeader) =
    some (.awaitingResult, .mGetRd, .read 6) := by decide +kernel

/-- V21. -/
theorem test_rd :
    seen (fun s => (s.status, s.state, s.respBuf, s.respLen))
      (exec (.rd [0xAD, 0xDE] 0x5D19)
        { awaitingResultHeader with phase := .mGetRd, job := .resultData, exch := .get .rd 2 (some 1000) .timeout }) =
      some (.ok, .idle, [(0, 0xAD), (1, 0xDE)], 2) := by decide +kernel

/-- A frame of another kind (V44, R153). -/
theorem test_rd_wrong_kind :
    seen (fun s => (s.retryCnt, s.exch))
      (exec (.rd [] 0x2F55) { awaitingResultHeader with rx := [0, 0, 0, 0] }) =
      some (1, .get .rh 4 (some 1000) .markerMismatch) := by decide +kernel

/-! ### The two-device system -/

/-- A master about to issue the CALL of P1 and a slave about to LOOP. The answers listed at the transports are not the link's. -/
def pairP1 : Pair :=
  ⟨{ master with hostPort := [encode master.params.formats (.call 1 [0xDE, 0xAD] 2 1 1)], writes := [T, T] },
   { slaveWith 1 7 with
     hostPort := [[0x25]], writes := [F, F], link := [.lose 1]
     handlers := [.returns [] [(0, 0xAD), (1, 0xDE)] 2] }⟩

/-- On a stalled transport (R73) three attempts of the command-header are made in eight turns and nothing is sent. -/
theorem test_pair_stalled :
    (pairRun .stalled (List.replicate 8 .master) pairP1).map (fun p => (sent p.master, p.slave.rx)) =
      some ((.timeout, 0, []), []) := by decide +kernel

/-- On the ideal link (R73) a `TRead` of more than the queue holds waits, or times out having consumed nothing. -/
theorem test_pair_ideal_waits :
    pairRun .ideal [.slave, .slave] pairP1 = none ∧
    (pairRun .ideal [.slave, .slaveTimesOut, .slaveTimesOut] pairP1).map (fun p => received p.slave) =
      some (.timeout, 0, .nothing, []) := by decide +kernel

/-- One turn passes one port primitive (R270): the command-header is on the link, the command-data is not. -/
theorem test_pair_interleaves :
    (pairRun .ideal [.master, .master, .master, .master] pairP1).map (fun p => (p.master.waiting, p.slave.rx)) =
      some (.clock, chP1) := by decide +kernel

/-! ### Witnesses: concrete states and operands that meet all the hypotheses of a statement together, for each of its clauses -/

/-- What is seen of an outcome is seen of a next state. -/
theorem next_of_seen {α : Type} {f : State → α} {o : Out} {a : α} (h : seen f o = some a) : ∃ t, o = .next t := by
  cases o with
  | next t => exact ⟨t, rfl⟩
  | fault f => cases h
  | refused r => cases h

theorem witness_Crc16CompletesWithCode : slave.inProgress = false := by decide

theorem witness_SingleBitFlipsAreDetected :
    (0 < [(1 : Byte)].length ∧ 7 < 8) ∧
    (vectorParams .slave).crc = {} ∧ decodePacket (vectorParams .slave) .cd cdP1 = .ok [0xDE, 0xAD] ∧
    1 < cdP1.length ∧ 2 < cdP1.length ∧ 5 < cdP1.length := by decide +kernel

theorem witness_EncodeLaysOutTheFrame : master.inProgress = false := by decide

/-- The boundary frames: one byte short, another kind's marker, a wrong checksum, the empty payload. -/
theorem witness_DecodeReportsTheFirstFailure :
    slave.inProgress = false ∧
    [(0xD1 : Byte), 0xAB, 0x98].length < minLen .cd ∧
    (minLen .cd ≤ [(0xBA : Byte), 0x1D, 0x55, 0x2F].length ∧
      [(0xBA : Byte), 0x1D, 0x55, 0x2F].take 2 ≠ le16 (magic slave.params.markers .cd)) ∧
    (minLen .cd ≤ [(0xD1 : Byte), 0xAB, 0x98, 0x3E].length ∧
      [(0xD1 : Byte), 0xAB, 0x98, 0x3E].take 2 = le16 (magic slave.params.markers .cd) ∧
      [(0xD1 : Byte), 0xAB, 0x98, 0x3E].drop 2 ≠ le16 (crc16 slave.params.crc [0xD1, 0xAB])) ∧
    ([(0xD1 : Byte), 0xAB, 0x98, 0x3F].drop 2 = le16 (crc16 slave.params.crc [0xD1, 0xAB])) := by decide +kernel

/-- Payloads of four and of three bytes; a data frame just long enough for a header kind. -/
theorem witness_EncodeThenDecodeReturnsThePayload :
    4 ≤ [(1 : Byte), 2, 3, 4].length ∧ [(1 : Byte), 2, 3].length < 4 ∧ (vectorParams .slave).markers.distinct = true ∧
    Kind.cd ≠ Kind.rh ∧ minLen .rh ≤ (encodePacket (vectorParams .slave) .cd [1, 2, 3, 4]).length := by decide +kernel

theorem witness_RequestsDecodeBack :
    (Instr.call 1 [0xDE, 0xAD] 16 1000 1000).isRequest = true ∧
    (Instr.call 1 [0xDE, 0xAD] 16 1000 1000).wellFormed {} = true := by decide

theorem witness_FramesDecodeBack :
    ({} : Formats).markers.distinct = true ∧ ({} : Formats).header.wf = true ∧ (Instr.ch 1 2 3).isRequest = false := by decide

theorem witness_WireBytesAreTheFramesBytes : decodeWire {} chP1 = .ok (.ch 1 2 0xFB15) := by decide

theorem witness_StepRunsTheHostsRequest :
    { slave with hostPort := [[0x25]] }.waiting = .nobody ∧ decodeRequest {} [0x25] = .ok .loop := by decide

theorem witness_StepRunsTheArrivingFrame :
    { awaitingHeader with link := [.arrive chP1] }.waiting = .read 12 ∧
    ({ slave with link := [.arrive chP1] }.waiting = .nobody ∧ { slave with link := [.arrive chP1] }.hostPort = []) ∧
    decodeWire slave.params.formats chP1 = .ok (.ch 1 2 0xFB15) := by decide

theorem witness_IllegalRequestsAreRefused :
    slave.params.role = .slave ∧ master.params.role = .master ∧ 2 ^ 32 - 5 < (0xFFFFFFFC : Word).toNat ∧
    slave.waiting = .nobody ∧
    (0x06 : Byte).toNat ∉ [0x01, 0x02, 0x03, 0x04, 0x05, 0x10, 0x11, 0x12, 0x20, 0x21, 0x22, 0x23, 0x24, 0x25] ∧
    3 < (4 : Byte).toNat ∧ fitsLength [(0xD1 : Byte)] = true := by decide

/-- A slave in LOOP whose handler runs. -/
def handling : State :=
  { slaveWith 1 7 with state := .dispatching, phase := .sHandler, job := .handler 7, bufLen := 0 }

theorem witness_RequestsWithoutMeaningFault :
    (Instr.loop.isRequest = true ∧ isRegistration .loop = false ∧ isBadOp awaitingHeader.params.role .loop = false ∧
      awaitingHeader.inProgress = true) ∧
    (handling.waiting = .handler ∧ decodeRequest {} [0x25] = .ok .loop ∧ isBadOp handling.params.role .loop = false) ∧
    (isRegistration (.scheduleCallback 1) = true ∧ awaitingHeader.params.role = .slave ∧
      awaitingHeader.phase ≠ .sHandler ∧ awaitingHeader.phase ≠ .sDeferred) := by decide

/-- None and two refused writes before an accepted one; three refused writes. -/
theorem witness_PutPacketRetriesUntilAccepted :
    master.inProgress = false ∧ (∀ r ∈ [F, F], r.ok = false) ∧ [F, F].length < (retryReset master.params.role).toNat ∧
    ([] : List WriteAnswer).length < (retryReset master.params.role).toNat ∧
    [F, F, F].length = (retryReset master.params.role).toNat ∧ T.ok = true := by decide

theorem witness_ZeroDeadlineMakesNoAttempt :
    { slave with clock := [3] }.inProgress = false ∧ master.inProgress = false ∧ { slave with clock := [3] }.clock = 3 :: [] ∧
    (0xFFFFFFFB : Word).toNat ≤ 2 ^ 32 - 5 := by decide

/-- A deadline of 10 that is reached, and one that is not, at the first, second and third check; three refused attempts within it. -/
theorem witness_DeadlineIsCheckedBeforeEveryAttempt :
    Ready .master master ∧ (∀ r ∈ [((4 : Word), F), (3, F), (2, F)], r.2.ok = false) ∧ T.ok = true ∧
    withinDeadline 0 10 0 [(4, F), (3, F), (2, F)] ∧
    ((10 : Word) ≤ timeAfter 0 [] + 10 - 0 ∧ timeAfter 0 [] + 9 - 0 < (10 : Word)) ∧
    ((10 : Word) ≤ timeAfter 0 [(4, F)] + 6 - 0 ∧ timeAfter 0 [(4, F)] + 5 - 0 < (10 : Word)) ∧
    ((10 : Word) ≤ timeAfter 0 [(4, F), (3, F)] + 3 - 0 ∧ timeAfter 0 [(4, F), (3, F)] + 2 - 0 < (10 : Word)) := by
  refine ⟨by unfold Ready; decide, by decide, by decide, ?_, by decide, by decide, by decide⟩
  simp only [withinDeadline]
  decide

theorem witness_GetPacketRetriesUntilValid :
    { master with link := [.expire 0, .arrive rdP1] }.inProgress = false ∧ (2 : Word).toNat ≤ 2 ^ 32 - 5 ∧
    (∀ e ∈ [LinkEvent.expire 0], ∃ f, FailedAttempt master.params .rd 2 e f) ∧
    [LinkEvent.expire 0].length < (retryReset master.params.role).toNat ∧ rdP1.length = frameLength 2 ∧
    decodePacket master.params .rd rdP1 = .ok [0xAD, 0xDE] := by
  refine ⟨by decide, by decide, ?_, by decide, by decide, by decide +kernel⟩
  intro e he
  rw [List.mem_singleton] at he
  exact ⟨.timeout, Or.inl ⟨0, he, rfl⟩⟩

theorem witness_GetPacketReportsTheLastFailure :
    { slave with link := [.expire 0, .arrive cdP1] }.inProgress = false ∧ (2 : Word).toNat ≤ 2 ^ 32 - 5 ∧
    (∀ e ∈ [LinkEvent.expire 0], ∃ f, FailedAttempt slave.params .rd 2 e f) ∧
    FailedAttempt slave.params .rd 2 (.arrive cdP1) .markerMismatch ∧
    [LinkEvent.expire 0].length + 1 = (retryReset slave.params.role).toNat ∧
    Ready .master { master with link := [.arrive cdP1], clock := [9, 1] } ∧
    FailedAttempt master.params .rd 2 (.arrive cdP1) .markerMismatch ∧ (0 : Word) + 9 - 0 < 10 ∧
    (10 : Word) ≤ 0 + 9 + 1 - 0 := by
  refine ⟨by decide, by decide, ?_, ?_, by decide, by unfold Ready; decide, ?_, by decide, by decide⟩
  · intro e he
    rw [List.mem_singleton] at he
    exact ⟨.timeout, Or.inl ⟨0, he, rfl⟩⟩
  · exact Or.inr ⟨cdP1, rfl, by decide, by decide⟩
  · exact Or.inr ⟨cdP1, rfl, by decide, by decide⟩

/-- A stream that holds a frame and one byte more; a front of another kind. -/
theorem witness_ReadsTakeTheFrontOfTheStream :
    { slave with rx := [0xBA], link := [.arrive [0x1D, 0xAD, 0xDE, 0x19, 0x5D, 0]] }.inProgress = false ∧
    (2 : Word).toNat + 4 ≤ ([0xBA] ++ [(0x1D : Byte), 0xAD, 0xDE, 0x19, 0x5D, 0]).length ∧
    decodePacket slave.params .rd (([0xBA] ++ [(0x1D : Byte), 0xAD, 0xDE, 0x19, 0x5D, 0]).take 6) = .ok [0xAD, 0xDE] ∧
    decodePacket slave.params .cd (([0xBA] ++ [(0x1D : Byte), 0xAD, 0xDE, 0x19, 0x5D, 0]).take 6) =
      .error .markerMismatch := by decide +kernel

/-- Deadlines at their boundary: 9 of 10 ms have passed before the last check. -/
theorem witness_PutCommandSendsHeaderThenData :
    Ready .master { master with writes := [T, T], clock := [5, 4, 5] } ∧ fitsLength [(0xDE : Byte)] = true ∧ T.ok = true ∧
    (4 : Word) < 10 ∧ (4 : Word) + 5 < 10 := by unfold Ready; decide

theorem witness_PutCommandStopsAfterAFailedHeader :
    Ready .master { master with writes := [F, F, F], clock := [5, 4, 4, 1] } ∧ fitsLength [(0xDE : Byte)] = true ∧
    F.ok = false ∧ (4 : Word) < 10 ∧ (4 : Word) + 4 < 10 ∧ (4 : Word) + 4 + 1 < 10 := by unfold Ready; decide

/-- A master about to receive the response `data`. -/
def answered (data : List Byte) : State :=
  { master with
    writes := [T, T]
    link := [.arrive (rhFrame master (lengthWord data)), .arrive (frameOf master .rd data)] }

/-- The response fills the buffer; and it is empty. -/
theorem witness_GetResultDeliversTheResponse :
    Ready .master (answered [0xAD, 0xDE]) ∧ [(0xAD : Byte), 0xDE].length ≤ (2 : Word).toNat ∧
    ([] : List Byte).length ≤ (0 : Word).toNat ∧ (answered [0xAD, 0xDE]).rx = [] ∧
    (answered [0xAD, 0xDE]).link =
      [.arrive (rhFrame (answered [0xAD, 0xDE]) 2), .arrive (frameOf (answered [0xAD, 0xDE]) .rd [0xAD, 0xDE])] ∧
    (answered [0xAD, 0xDE]).clock = 0 :: 0 :: 0 :: [0, 0, 0, 0, 0] ∧ (0 : Word) < 1 ∧ (0 : Word) + 0 < 1 := by
  unfold Ready; decide +kernel

theorem witness_GetResultRejectsAnOversizeResult :
    Ready .master (answered [0xAD, 0xDE]) ∧ (1 : Word) < 2 ∧
    { master with link := [.arrive (rhFrame master 2 ++ [0xBA])] }.link =
      [.arrive (rhFrame { master with link := [.arrive (rhFrame master 2 ++ [0xBA])] } 2 ++ [0xBA])] ∧
    (0 : Word) < 1 := by unfold Ready; decide +kernel

theorem witness_CallReturnsTheResponse :
    Ready .master (answered [0xAD, 0xDE]) ∧ fitsLength [(0xDE : Byte), 0xAD] = true ∧
    [(0xAD : Byte), 0xDE].length ≤ (2 : Word).toNat ∧ (answered [0xAD, 0xDE]).writes = [T, T] ∧
    (answered [0xAD, 0xDE]).link =
      [.arrive (rhFrame (answered [0xAD, 0xDE]) (lengthWord [0xAD, 0xDE])),
       .arrive (frameOf (answered [0xAD, 0xDE]) .rd [0xAD, 0xDE])] ∧
    (answered [0xAD, 0xDE]).clock = 0 :: 0 :: 0 :: 0 :: 0 :: 0 :: [0, 0] ∧ (0 : Word) < 1 ∧ (0 : Word) + 0 < 1 := by
  unfold Ready; decide +kernel

theorem witness_CallWithZeroSendTimeoutFails :
    Ready .master master ∧ fitsLength [(0xDE : Byte)] = true ∧ master.clock = 0 :: 0 :: [0, 0, 0, 0, 0, 0] := by
  unfold Ready; decide

/-- The result may still come at 9 of 10 ms; with no time allowed it may not. -/
theorem witness_CallAwaitsTheResult :
    Ready .master { master with writes := [T, T], clock := [0, 0, 0, 0, 9] } ∧ fitsLength [(0xDE : Byte)] = true ∧
    { master with writes := [T, T], clock := [0, 0, 0, 0, 9] }.link = [] ∧ (0 : Word) + 0 < 1 ∧ (9 : Word) < 10 := by
  unfold Ready; decide

/-- A slave with one registration about to receive a command with this identifier and these data. -/
def commanded (id : Word) (data : List Byte) (runs : List HandlerRun) : State :=
  { slaveWith 1 7 with
    link := [.arrive (chFrame slave id (lengthWord data)), .arrive (frameOf slave .cd data)]
    writes := [T, T], handlers := runs }

/-- The command of program P1. -/
def commandedP1 : State := commanded 1 [0xDE, 0xAD] [.returns [] [(255, 1)] 256, .returns [] [] 1]

/-- What every statement about a command received asks. -/
theorem witness_command :
    Ready .slave commandedP1 ∧ [(0xDE : Byte), 0xAD].length ≤ commandedP1.params.bufCap ∧
    fitsLength [(0xDE : Byte), 0xAD] = true ∧ commandedP1.rx = [] ∧
    commandedP1.link =
      [.arrive (chFrame commandedP1 1 (lengthWord [0xDE, 0xAD])),
       .arrive (frameOf commandedP1 .cd [0xDE, 0xAD])] := by unfold Ready; decide +kernel

theorem witness_GetCommandStoresTheRequest :
    Ready .slave { commandedP1 with params := { commandedP1.params with bufCap := 2 } } ∧
    [(0xDE : Byte), 0xAD].length ≤ { commandedP1.params with bufCap := 2 }.bufCap := by unfold Ready; decide

theorem witness_FailedGetCommandLeavesTheBuffer :
    Ready .slave { slave with link := [.expire 0, .expire 0] } ∧
    ∃ t, exec .getCommand { slave with link := [.expire 0, .expire 0] } = .next t :=
  ⟨⟨rfl, by decide, by decide⟩, next_of_seen (f := fun s => s.status) (a := .timeout) (by decide)⟩

theorem witness_GetCommandRejectsAnOversizeCommand :
    Ready .slave slave ∧ slave.params.bufCap < (257 : Word).toNat ∧
    { slave with link := [.arrive (chFrame slave 1 257)] }.link =
      [.arrive (chFrame { slave with link := [.arrive (chFrame slave 1 257)] } 1 257 ++ [])]
    := by unfold Ready; decide +kernel

/-- The last entry in use; and an identifier that only an entry not in use has. -/
theorem witness_FindCallbackScansTheTable :
    Ready .slave (slaveWith 1 7) ∧ 0 < (slaveWith 1 7).cbCount.toNat ∧ (slaveWith 1 7).cb[0]? = some ⟨1, 7⟩ ∧
    (slaveWith 1 7).cb[1]? = some ⟨0, 0⟩ ∧ ¬ 1 < (slaveWith 1 7).cbCount.toNat := by unfold Ready; decide

theorem witness_PutResultSendsHeaderThenData :
    Ready .slave { slave with writes := [T, T] } ∧ Ready .slave { slave with writes := [F, F] } ∧
    fitsLength ([] : List Byte) = true ∧ T.ok = true ∧ F.ok = false := by unfold Ready; decide

/-- At rest and from a running handler; a duplicate, a full table, the last free entry. -/
theorem witness_RegisterCallbackOutcomes :
    RegistrationAccepted (slaveWith 1 7) ∧ RegistrationAccepted handling ∧
    (∃ e ∈ entriesInUse (slaveWith 1 7), e.id = 1) ∧ (∀ e ∈ entriesInUse (slaveWith 1 7), e.id ≠ 0) ∧
    { slaveWith 1 7 with cbCount := 16 }.cbCount.toNat = slave.params.maxCallbacks ∧
    (∀ e ∈ entriesInUse { slaveWith 1 7 with cbCount := 16 }, e.id ≠ 2) ∧
    { slaveWith 1 7 with cbCount := 15 }.cbCount.toNat ≠ slave.params.maxCallbacks := by
  unfold RegistrationAccepted; decide

/-- No registration, and as many as the table takes. -/
theorem witness_TheTableTakesExactlyMaxCallbacks :
    (vectorParams .slave).wf = true ∧ (vectorParams .slave).role = .slave ∧
    (((List.range 16).map fun i => (BitVec.ofNat 32 i, (7 : Handler))).map Prod.fst).Nodup ∧
    ((List.range 16).map fun i => (BitVec.ofNat 32 i, (7 : Handler))).length = (vectorParams .slave).maxCallbacks := by
  decide +kernel

theorem witness_ScheduleCallbackReplacesTheSlot : RegistrationAccepted slave ∧ RegistrationAccepted handling := by
  unfold RegistrationAccepted; decide

/-- With `witness_command`: the code and a store at the end of `BUF`. -/
theorem witness_LoopAnswersACommand :
    lookup 1 commandedP1 = some 7 ∧ commandedP1.handlers = .returns [] [(255, 1)] 256 :: [.returns [] [] 1] ∧
    (∀ c ∈ [(255, (1 : Byte))], c.1 < commandedP1.params.bufCap) ∧ (256 : Word).toNat ≤ commandedP1.params.bufCap ∧
    commandedP1.defValid = false ∧ commandedP1.writes = T :: T :: [] ∧ T.ok = true := by decide

/-- With `witness_command`. -/
theorem witness_LoopRunsWorkItsHandlerScheduled :
    Ready .slave (commanded 1 [0xDE, 0xAD]
      [.returns [encode slave.params.formats (.scheduleCallback 9)] [(255, 1)] 256, .returns [] [(0, 2)] 5]) ∧
    lookup 1 commandedP1 = some 7 ∧ Handler.fits commandedP1.params.handlerW 9 = true ∧
    (∀ c ∈ [(255, (1 : Byte))], c.1 < commandedP1.params.bufCap) ∧ (∀ c ∈ [(0, (2 : Byte))], c.1 < commandedP1.params.bufCap) ∧ (256 : Word).toNat ≤ commandedP1.params.bufCap := by
  unfold Ready; decide

/-- With `witness_command`. -/
theorem witness_LoopRunsTheDeferredHandlerOnce :
    Ready .slave
      { commanded 1 [0xDE, 0xAD] [.returns [] [] 0, .returns [encode slave.params.formats (.scheduleCallback 9)] [] 5] with
        defValid := true, defHandler := 8 } ∧
    lookup 1 commandedP1 = some 7 ∧ Handler.fits commandedP1.params.handlerW 9 = true ∧
    (0 : Word).toNat ≤ commandedP1.params.bufCap := by unfold Ready; decide

/-- With the link as in `witness_command`: an identifier no entry in use has. -/
theorem witness_LoopDropsAnUnregisteredCommand :
    Ready .slave (commanded 2 [0xDE, 0xAD] []) ∧ (commanded 2 [0xDE, 0xAD] []).rx = [] ∧
    (∀ e ∈ entriesInUse (commanded 2 [0xDE, 0xAD] []), e.id ≠ 2) := by unfold Ready; decide

theorem witness_LoopWithoutACommandKeepsTheSlot :
    Ready .slave { slave with rx := [1, 2, 3], link := [.expire 0, .expire 3] } := by unfold Ready; decide

/-- With `witness_command`: the least code above `BUF_CAP`. -/
theorem witness_LoopRejectsAnOversizeCode :
    Ready .slave (commanded 1 [0xDE, 0xAD] [.returns [] [(255, 1)] 257]) ∧ lookup 1 commandedP1 = some 7 ∧
    (∀ c ∈ [(255, (1 : Byte))], c.1 < commandedP1.params.bufCap) ∧ commandedP1.params.bufCap < (257 : Word).toNat := by
  unfold Ready; decide

/-- With `witness_command`: the result-header refused twice; accepted, and the result-data refused twice. -/
theorem witness_LoopDiscardsTheSlotWhenTheReplyFails :
    Ready .slave { commanded 1 [0xDE, 0xAD] [.returns [] [] 2] with writes := [F, ⟨false, 8⟩], defValid := true } ∧
    Ready .slave { commanded 1 [0xDE, 0xAD] [.returns [] [] 2] with writes := [T, F, ⟨false, 6⟩], defValid := true } ∧
    lookup 1 commandedP1 = some 7 ∧ (2 : Word).toNat ≤ commandedP1.params.bufCap ∧ F.ok = false ∧ T.ok = true := by
  unfold Ready; decide

theorem witness_FramesBetweenOperationsStayInTheStream :
    (Instr.cd [0xDE, 0xAD] 0).isRequest = false ∧ slave.inProgress = false := by decide

theorem witness_CommandHeaderIsAccepted :
    awaitingHeader.params.role = .slave ∧ awaitingHeader.params.header.wf = true ∧ awaitingHeader.job = .recvHeader true ∧
    awaitingHeader.exch = .get .ch (chPayloadLen awaitingHeader.params) none .timeout ∧ awaitingHeader.rx = [] ∧ awaitingHeader.link = [] ∧
    (256 : Word).toNat ≤ awaitingHeader.params.bufCap := by decide

/-- A slave waiting for a command-data frame of two bytes. -/
def awaitingData (inLoop : Bool) : State :=
  { slaveWith 1 7 with
    phase := .sGetCd, job := .recvData 1 inLoop, exch := .get .cd 2 none .timeout, retryCnt := 1 }

theorem witness_CommandDataIsAccepted :
    (awaitingData false).params.role = .slave ∧
    (awaitingData false).exch = .get .cd (lengthWord [0xDE, 0xAD]) none .timeout ∧ (awaitingData false).rx = [] ∧
    (awaitingData false).link = [] ∧ [(0xDE : Byte), 0xAD].length ≤ (awaitingData false).params.bufCap ∧
    (awaitingData false).job = .recvData 1 false ∧ (awaitingData true).job = .recvData 1 true ∧
    lookup 1 (awaitingData true) = some 7 ∧ (awaitingData true).handlers = [] := by decide

theorem witness_ResultHeaderIsAccepted :
    awaitingResultHeader.params.role = .master ∧ awaitingResultHeader.params.header.wf = true ∧
    awaitingResultHeader.job = .resultHeader 16 ∧
    awaitingResultHeader.exch = .get .rh (rhPayloadLen awaitingResultHeader.params) (some 1000) .timeout ∧ awaitingResultHeader.rx = [] ∧
    awaitingResultHeader.link = [] ∧ (16 : Word) ≤ 16 ∧
    { awaitingResultHeader with clock := [999] }.clock = 999 :: [] ∧
    awaitingResultHeader.now + 999 - awaitingResultHeader.t0 < (1000 : Word) := by decide

/-- A master waiting for a result-data frame of two bytes. -/
def awaitingResultData : State :=
  { awaitingResultHeader with phase := .mGetRd, job := .resultData, exch := .get .rd 2 (some 1000) .timeout }

theorem witness_ResultDataIsAccepted :
    awaitingResultData.params.role = .master ∧ awaitingResultData.job = .resultData ∧
    awaitingResultData.exch = .get .rd (lengthWord [0xAD, 0xDE]) (some 1000) .timeout ∧ awaitingResultData.rx = [] ∧
    fitsLength [(0xAD : Byte), 0xDE] = true := by decide

/-- With attempts left, without a deadline, with one that is not reached and with one that is; with none left; a frame of another
kind. -/
theorem witness_ARejectedFrameCostsOneAttempt :
    sequencerLegal awaitingResultData = true ∧ (Instr.cd [0xDE, 0xAD] 0x4575).isRequest = false ∧
    (encode awaitingResultData.params.formats (.cd [0xDE, 0xAD] 0x4575)).length = (2 : Word).toNat + 4 ∧
    decodePacket awaitingResultData.params .rd (encode awaitingResultData.params.formats (.cd [0xDE, 0xAD] 0x4575)) =
      .error .markerMismatch ∧
    (awaitingResultData.retryCnt ≠ 0 ∧ awaitingHeader.retryCnt ≠ 0 ∧ sequencerLegal awaitingHeader = true) ∧
    (deadlinePassed 1000 (tick 999 awaitingResultData) = false ∧ deadlinePassed 1000 (tick 1000 awaitingResultData) = true ∧
      { awaitingResultData with clock := [999] }.clock = 999 :: []) ∧
    (sequencerLegal { awaitingResultData with retryCnt := 0 } = true) ∧
    (frameKind (.cd [0xDE, 0xAD] 0x4575) = some .cd ∧ Kind.cd ≠ Kind.rd ∧
      awaitingResultData.params.markers.distinct = true ∧ minLen .rd ≤ (2 : Word).toNat + 4) := by decide +kernel

theorem witness_MemoryReadsBackWhatWasWritten : Memory.wf [(3, 7), (5, 1)] = true ∧ Memory.wf [] = true := by decide

theorem witness_ResetEstablishesTheInvariant :
    (vectorParams .slave).wf = true ∧ (vectorParams .master).wf = true := by decide

/-- A slave that keeps the invariant, with a LOOP to run and a command coming. -/
theorem slaveAtWork_inv : State.Inv { commandedP1 with hostPort := [[0x25]] } :=
  ⟨by decide, by decide, by decide, by decide, by decide, by decide, by decide, by decide, by decide, by decide, by decide,
   by decide⟩

/-- It takes a step. -/
theorem slaveAtWork_steps : ∃ t, step { commandedP1 with hostPort := [[0x25]] } = .next t :=
  next_of_seen (f := fun s => s.status) (a := .ok) (by decide +kernel)

theorem masterAtWork_inv : State.Inv { answered [0xAD, 0xDE] with hostPort := [[0x11, 2, 0, 0, 0, 1, 0, 0, 0]] } :=
  ⟨by decide, by decide, by decide, by decide, by decide, by decide, by decide, by decide, by decide, by decide, by decide,
   by decide⟩

theorem masterAtWork_steps :
    ∃ t, step { answered [0xAD, 0xDE] with hostPort := [[0x11, 2, 0, 0, 0, 1, 0, 0, 0]] } = .next t :=
  next_of_seen (f := fun s => s.status) (a := .ok) (by decide +kernel)

theorem witness_EveryStepKeepsTheInvariant :
    ∃ s t : State, s.Inv ∧ step s = .next t := by
  obtain ⟨t, ht⟩ := slaveAtWork_steps
  exact ⟨_, t, slaveAtWork_inv, ht⟩

theorem witness_NoStepTakesBack : ∃ s t : State, s.Inv ∧ step s = .next t ∧ s.params.role = .master := by
  obtain ⟨t, ht⟩ := masterAtWork_steps
  exact ⟨_, t, masterAtWork_inv, ht, rfl⟩

/-- A slave whose handler does not return. -/
theorem handling_inv : State.Inv { handling with handlers := [.hangs] } :=
  ⟨by decide, by decide, by decide, by decide, by decide, by decide, by decide, by decide, by decide, by decide, by decide,
   by decide⟩

/-- A slave that keeps the invariant, with half a request at its host port. -/
theorem malformed_inv : State.Inv { slave with hostPort := [[0x21, 0]] } :=
  ⟨by decide, by decide, by decide, by decide, by decide, by decide, by decide, by decide, by decide, by decide, by decide,
   by decide⟩

theorem witness_OnlyHandlersRaiseFaults :
    (∃ (s : State) (f : Fault), s.Inv ∧ step s = .fault f) ∧ (∃ (s : State) (r : Refusal), s.Inv ∧ step s = .refused r) :=
  ⟨⟨_, .handlerDoesNotReturn, handling_inv, rfl⟩, ⟨_, .malformedRequest, malformed_inv, rfl⟩⟩

theorem witness_RolesKeepApart :
    (∃ s t : State, s.Inv ∧ step s = .next t ∧ s.params.role = .master) ∧
    (∃ s t : State, s.Inv ∧ step s = .next t ∧ s.params.role = .slave) := by
  obtain ⟨t, ht⟩ := masterAtWork_steps
  obtain ⟨t', ht'⟩ := slaveAtWork_steps
  exact ⟨⟨_, t, masterAtWork_inv, ht, rfl⟩, ⟨_, t', slaveAtWork_inv, ht', rfl⟩⟩

theorem witness_TransportIsHandedTheShortTimeout :
    ∃ s t : State, s.Inv ∧ step s = .next t ∧ s.calls.all (handedDuration s.params.shortTimeoutMs) = true := by
  obtain ⟨t, ht⟩ := slaveAtWork_steps
  exact ⟨_, t, slaveAtWork_inv, ht, rfl⟩

theorem witness_TransportOperationsAreBounded :
    ∃ (i : Instr) (s t : State), s.Inv ∧ s.inProgress = false ∧ i.isRequest = true ∧ exec i s = .next t := by
  obtain ⟨t, ht⟩ : ∃ t, exec .loop { commandedP1 with hostPort := [[0x25]] } = .next t :=
    next_of_seen (f := fun s => s.status) (a := .ok) (by decide +kernel)
  exact ⟨.loop, _, t, slaveAtWork_inv, by decide, rfl, ht⟩

theorem witness_CallWritesBeforeItReads :
    Ready .master (answered [0xAD, 0xDE]) ∧ fitsLength [(0xDE : Byte)] = true ∧
    ∃ t, exec (.call 1 [0xDE] 16 1 1) (answered [0xAD, 0xDE]) = .next t :=
  ⟨⟨rfl, by decide, by decide⟩, by decide, next_of_seen (f := fun s => s.status) (a := .ok) (by decide +kernel)⟩

theorem witness_SendersReadNothing :
    ((answered []).inProgress = false ∧ isBadOp (answered []).params.role (.putCommand 1 [0xDE] 1) = false ∧
      ∃ t, exec (.putCommand 1 [0xDE] 1) (answered []) = .next t) ∧
    (commandedP1.inProgress = false ∧ isBadOp commandedP1.params.role (.putResult [0xDE]) = false ∧
      ∃ t, exec (.putResult [0xDE]) commandedP1 = .next t) :=
  ⟨⟨by decide, by decide, next_of_seen (f := fun s => s.status) (a := .ok) (by decide +kernel)⟩,
   ⟨by decide, by decide, next_of_seen (f := fun s => s.status) (a := .ok) (by decide +kernel)⟩⟩

/-- The two instances of P1; the response fills the master's buffer. -/
theorem witness_CallOverTheIdealLinkReturnsTheHandlersBytes :
    Ready .master { pairP1.master with clock := [0, 0, 0, 0, 0, 0] } ∧ Ready .slave pairP1.slave ∧
    pairP1.master.params.markers = pairP1.slave.params.markers ∧ pairP1.master.params.header = pairP1.slave.params.header ∧
    pairP1.master.params.crc = pairP1.slave.params.crc ∧ pairP1.slave.buf.wf = true ∧
    fitsLength [(0xDE : Byte), 0xAD] = true ∧ [(0xAD : Byte), 0xDE].length ≤ pairP1.slave.params.bufCap ∧
    [(0xAD : Byte), 0xDE].length ≤ (2 : Word).toNat ∧
    pairP1.master.hostPort = [encode pairP1.master.params.formats (.call 1 [0xDE, 0xAD] 2 1 1)] ∧
    (0 : Word) < 1 ∧ (0 : Word) + 0 < 1 ∧ pairP1.slave.hostPort = [[0x25]] ∧ pairP1.slave.defValid = false ∧
    lookup 1 pairP1.slave = some 7 ∧
    pairP1.slave.handlers = [.returns [] ((List.range 2).zip [(0xAD : Byte), 0xDE]) (lengthWord [0xAD, 0xDE])] := by
  unfold Ready; decide +kernel

end Sys2Proof.Tests
end

/-! ## `00_scope.md`: a step takes nothing back, and it runs the frame that arrives -/

namespace Sys2Proof.Machine

/-! ### What the next step fetches (log 26) -/

/-- What the fetched work comes to. -/
def Fetched.out : Fetched → Out
  | .run i s => exec i s
  | .done o => o

theorem step_eq_out (s : State) : step s = (fetch s).out := by
  unfold step
  cases fetch s <;> rfl

theorem fetch_nobody {s : State} (h : s.waiting = .nobody) : fetch s = fetchAtRest s := by
  simp only [fetch, h]

theorem fetch_clock {s : State} (h : s.waiting = .clock) : fetch s = fetchClock s := by
  simp only [fetch, h]

theorem fetch_write {s : State} (h : s.waiting = .write) : fetch s = fetchWrite s := by
  simp only [fetch, h]

theorem fetch_read {s : State} {n : Nat} (h : s.waiting = .read n) : fetch s = fetchRead s := by
  simp only [fetch, h]

theorem fetch_handler {s : State} (h : s.waiting = .handler) : fetch s = fetchHandler s := by
  simp only [fetch, h]

theorem fetchAtRest_link {s : State} {e : LinkEvent} {more : List LinkEvent} (hp : s.hostPort = [])
    (hl : s.link = e :: more) : fetchAtRest s = fetchLink e { s with link := more } := by
  simp only [fetchAtRest, hp, hl]

theorem fetchRead_link {s : State} {e : LinkEvent} {more : List LinkEvent} (hl : s.link = e :: more) :
    fetchRead s = fetchLink e { s with link := more } := by
  simp only [fetchRead, hl]

/-- An arriving frame is an instruction (R17). -/
theorem fetchLink_frame {s : State} {b : List Byte} {i : Instr} (hd : decodeWire s.params.formats b = .ok i) :
    fetchLink (.arrive b) s = .run i s := by
  simp only [fetchLink, hd]

/-! ### The history invariant

`Extends` needs one fact of the state it starts from: an 8-bit `CB_COUNT` that is about to be counted up does not wrap. `Keeps` carries
that fact along, so that it composes over the parts of a step without any other clause of the invariant. -/

/-- `CB_COUNT` counts entries of a table that is far smaller than its 8 bits reach (R9, R33). -/
structure State.CountBounded (s : State) : Prop where
  count : s.cbCount.toNat ≤ s.params.maxCallbacks
  size : s.params.maxCallbacks ≤ 32

theorem State.Inv.countBounded {s : State} (h : s.Inv) : s.CountBounded :=
  ⟨h.tableCount, maxCallbacks_le h.params⟩

theorem Extends.refl (s : State) : Extends s s := ⟨rfl, List.prefix_rfl, List.prefix_rfl, List.prefix_rfl⟩

theorem Extends.trans {s t u : State} (h : Extends s t) (k : Extends t u) : Extends s u :=
  ⟨k.params.trans h.params, h.entries.trans k.entries, h.sent.trans k.sent, h.issued.trans k.issued⟩

/-- From a bounded `CB_COUNT`, `t` extends `s` and its `CB_COUNT` is bounded again. -/
def Keeps (s t : State) : Prop := s.CountBounded → t.CountBounded ∧ Extends s t

theorem Keeps.refl (s : State) : Keeps s s := fun h => ⟨h, Extends.refl s⟩

theorem Keeps.trans {s t u : State} (h : Keeps s t) (k : Keeps t u) : Keeps s u := fun hs =>
  have ⟨ht, hst⟩ := h hs
  have ⟨hu, htu⟩ := k ht
  ⟨hu, hst.trans htu⟩

/-- The sequencer's own work registers nothing, so it keeps everything. -/
theorem Follows.keeps {s t : State} (h : Follows s t) : Keeps s t := fun hs =>
  ⟨⟨by rw [h.cbCount, h.params]; exact hs.count, by rw [h.params]; exact hs.size⟩,
   ⟨h.params, h.entries ▸ List.prefix_rfl, h.sent, h.issued⟩⟩

/-- Changing none of the fields that `Extends` speaks of. -/
theorem keeps_of_eq {s t : State} (hp : t.params = s.params) (hcb : t.cb = s.cb) (hc : t.cbCount = s.cbCount)
    (htx : t.tx = s.tx) (hcalls : t.calls = s.calls) : Keeps s t := fun hs =>
  ⟨⟨by rw [hc, hp]; exact hs.count, by rw [hp]; exact hs.size⟩,
   ⟨hp, by simp only [entriesInUse, hcb, hc]; exact List.prefix_rfl, htx ▸ List.prefix_rfl, hcalls ▸ List.prefix_rfl⟩⟩

theorem NextHas.keeps_after {s t : State} {o : Out} (ho : NextHas (Keeps t) o) (h : Keeps s t) : NextHas (Keeps s) o :=
  ho.imp fun _ hu => h.trans hu

/-! ### Registrations -/

/-- A registration writes behind the entries in use (R34): it changes none of them. -/
theorem registerEntry_keeps (id : Word) (hd : Handler) (s : State) : Keeps s (registerEntry id hd s) := by
  unfold registerEntry
  split
  · next hok =>
    rintro ⟨hcount, hsize⟩
    have hfree : s.cbCount.toNat ≠ s.params.maxCallbacks := (registerStatus_ok hok).2
    have hsucc : (s.cbCount + 1).toNat = s.cbCount.toNat + 1 := by
      rw [BitVec.toNat_add]; simp; omega
    refine ⟨⟨?_, hsize⟩, rfl, ?_, List.prefix_rfl, List.prefix_rfl⟩
    · simp only [hsucc]; omega
    · have hkept : (s.cb.set s.cbCount.toNat ⟨id, hd⟩).take s.cbCount.toNat = s.cb.take s.cbCount.toNat :=
        List.take_set_of_le (Nat.le_refl _)
      simp only [entriesInUse, hsucc]
      rw [← hkept]
      exact List.take_prefix_take_left (Nat.le_succ _)
  · exact Keeps.refl s

theorem completeInPlace_keeps (st : Status) (r : Result) (s : State) : Keeps s (completeInPlace st r s) :=
  keeps_of_eq rfl rfl rfl rfl rfl

theorem refuse_keeps (s : State) : Keeps s (refuse s) := completeInPlace_keeps _ _ s

theorem registerCallback_keeps (id : Word) (hd : Handler) (s : State) : Keeps s (registerCallback id hd s) :=
  (registerEntry_keeps id hd s).trans (completeInPlace_keeps _ _ _)

theorem scheduleCallback_keeps (hd : Handler) (s : State) : Keeps s (scheduleCallback hd s) :=
  keeps_of_eq rfl rfl rfl rfl rfl

/-- The refusal of the host port keeps everything, so a request keeps what its run keeps. -/
theorem gate_keeps {i : Instr} {s : State} {run : State → Out} (h : NextHas (Keeps s) (run s)) :
    NextHas (Keeps s) (gate i s run) :=
  gate_has (refuse_keeps s) fun _ _ _ => h

/-! ### The answers of the other agents -/

theorem handlerRequest_keeps (r : List Byte) (s : State) : NextHas (Keeps s) (handlerRequest r s) := by
  unfold handlerRequest
  split
  · exact nextHas_next (refuse_keeps s)
  · exact nextHas_next (refuse_keeps s)
  · exact nextHas_refused
  · refine gate_keeps ?_
    split
    · exact nextHas_next (registerCallback_keeps _ _ s)
    · exact nextHas_next (scheduleCallback_keeps _ s)
    · exact nextHas_fault

theorem handlerRequests_keeps (rs : List (List Byte)) (s : State) : NextHas (Keeps s) (handlerRequests rs s) := by
  induction rs generalizing s with
  | nil => exact nextHas_next (Keeps.refl s)
  | cons r rs ih =>
    unfold handlerRequests
    split
    · next s1 hr => exact (ih s1).keeps_after (handlerRequest_keeps r s s1 hr)
    · exact nextHas_fault
    · exact nextHas_refused

theorem bufStores_keeps {s t : State} {stores : List (Nat × Byte)} (h : bufStores s stores = some t) : Keeps s t := by
  obtain ⟨-, rfl⟩ := bufStores_some h
  exact keeps_of_eq rfl rfl rfl rfl rfl

theorem handlerReturned_keeps (code : Word) (s : State) : NextHas (Keeps s) (handlerReturned code s) :=
  (handlerReturned_follows code s).imp fun _ => Follows.keeps

theorem onHandler_keeps (r : HandlerRun) (s : State) : NextHas (Keeps s) (onHandler r s) := by
  unfold onHandler
  split
  · exact nextHas_fault
  · next requests stores code =>
    split
    · exact nextHas_fault
    · exact nextHas_refused
    · next s1 hs =>
      split
      · exact nextHas_fault
      · next s2 hw =>
        exact (handlerReturned_keeps code s2).keeps_after
          ((handlerRequests_keeps requests s s1 hs).trans (bufStores_keeps hw))

theorem onLink_keeps (e : LinkEvent) (s : State) : NextHas (Keeps s) (onLink e s) :=
  (onLink_follows e s).imp fun _ => Follows.keeps

/-! ### Running on -/

/-- Running on from a state that kept everything keeps everything. -/
theorem runOn_keeps {s t : State} (h : Keeps s t) : NextHas (Keeps s) (runOn t) := by
  refine runFor_has (P := Keeps s) ?clock ?write ?link ?handler _ t h
  case clock =>
    intro u d rest hu
    have taken : Keeps u { u with clock := rest } := keeps_of_eq rfl rfl rfl rfl rfl
    exact (hu.trans taken).trans (onClock_follows d _).keeps
  case write =>
    intro u a rest _ hu
    have taken : Keeps u { u with writes := rest } := keeps_of_eq rfl rfl rfl rfl rfl
    exact (hu.trans taken).trans (onWrite_follows a _).keeps
  case link =>
    intro u e rest hu
    have taken : Keeps u { u with link := rest } := keeps_of_eq rfl rfl rfl rfl rfl
    exact (onLink_keeps e _).keeps_after (hu.trans taken)
  case handler =>
    intro u r rest hu
    have taken : Keeps u { u with handlers := rest } := keeps_of_eq rfl rfl rfl rfl rfl
    exact (onHandler_keeps r _).keeps_after (hu.trans taken)

theorem runOnFrom_keeps {s : State} {o : Out} (h : NextHas (Keeps s) o) : NextHas (Keeps s) (runOnFrom o) := by
  cases o with
  | next t => exact runOn_keeps (h t rfl)
  | fault f => exact nextHas_fault
  | refused r => exact nextHas_refused

/-! ### The instructions -/

theorem deliver_keeps (b : List Byte) (s : State) : NextHas (Keeps s) (deliver b s) :=
  runOnFrom_keeps (onLink_keeps (.arrive b) s)

theorem decodeCompletion_keeps (r : Except Status (List Byte)) (s : State) : Keeps s (decodeCompletion r s) := by
  cases r <;> exact completeInPlace_keeps _ _ s

theorem findCompletion_keeps (found : Option Handler) (s : State) : Keeps s (findCompletion found s) := by
  cases found <;> exact completeInPlace_keeps _ _ s

/-- The operations that take port calls start with the sequencer's own work and run on; the others complete in place. -/
theorem exec_keeps (i : Instr) (s : State) : NextHas (Keeps s) (exec i s) := by
  have asJob : ∀ j : Job, Keeps s { s with job := j } := fun _ => keeps_of_eq rfl rfl rfl rfl rfl
  have withCap : ∀ cap : Word, Keeps s { s with respLen := cap } := fun _ => keeps_of_eq rfl rfl rfl rfl rfl
  cases i with
  | crc16 bytes =>
    unfold exec execCrc16
    exact gate_keeps (nextHas_next (completeInPlace_keeps _ _ s))
  | encode kind payload =>
    unfold exec execEncode
    exact gate_keeps (nextHas_next (completeInPlace_keeps _ _ s))
  | decode frame kind =>
    unfold exec execDecode
    exact gate_keeps (nextHas_next (decodeCompletion_keeps _ s))
  | putPacket kind payload long =>
    unfold exec execPutPacket
    exact gate_keeps (runOn_keeps ((asJob .putPacket).trans (putPacket_follows kind payload long _).keeps))
  | getPacket kind n long =>
    unfold exec execGetPacket
    exact gate_keeps (runOn_keeps ((asJob .getPacket).trans (getPacket_follows kind n long _).keeps))
  | putCommand rpcId data timeout =>
    unfold exec execPutCommand
    exact gate_keeps (runOn_keeps (putCommand_follows rpcId data timeout none s).keeps)
  | getResult cap timeout =>
    unfold exec execGetResult
    exact gate_keeps (runOn_keeps ((withCap cap).trans (getResult_follows cap timeout _).keeps))
  | call rpcId request cap sendTimeout recvTimeout =>
    unfold exec execCall
    exact gate_keeps (runOn_keeps
      ((withCap cap).trans (putCommand_follows rpcId request sendTimeout (some ⟨cap, recvTimeout⟩) _).keeps))
  | getCommand =>
    unfold exec execGetCommand
    exact gate_keeps (runOn_keeps (getCommand_follows false s).keeps)
  | findCallback rpcId =>
    unfold exec execFindCallback
    exact gate_keeps (nextHas_next (findCompletion_keeps _ s))
  | putResult data =>
    unfold exec execPutResult
    exact gate_keeps (runOn_keeps (putResult_follows data false s).keeps)
  | registerCallback rpcId handler =>
    unfold exec execRegisterCallback
    exact gate_keeps (nextHas_next (registerCallback_keeps rpcId handler s))
  | scheduleCallback handler =>
    unfold exec execScheduleCallback
    exact gate_keeps (nextHas_next (scheduleCallback_keeps handler s))
  | loop =>
    unfold exec execLoop
    exact gate_keeps (runOn_keeps (getCommand_follows true s).keeps)
  | ch rpcId dataLen checksum => exact deliver_keeps _ s
  | cd data checksum => exact deliver_keeps _ s
  | rh dataLen checksum => exact deliver_keeps _ s
  | rd data checksum => exact deliver_keeps _ s

/-! ### The step -/

theorem fetchRequest_keeps (r : List Byte) (s : State) : NextHas (Keeps s) (fetchRequest r s).out := by
  unfold fetchRequest
  split
  · exact exec_keeps _ s
  · exact nextHas_next (refuse_keeps s)
  · exact nextHas_next (refuse_keeps s)
  · exact nextHas_refused

theorem fetchLink_keeps (e : LinkEvent) (s : State) : NextHas (Keeps s) (fetchLink e s).out := by
  unfold fetchLink
  split
  · next bytes =>
    split
    · exact exec_keeps _ s
    · exact runOnFrom_keeps (onLink_keeps (.arrive bytes) s)
  · next eaten => exact runOnFrom_keeps (onLink_keeps (.expire eaten) s)
  · next count => exact runOnFrom_keeps (onLink_keeps (.lose count) s)

theorem fetchAtRest_keeps (s : State) : NextHas (Keeps s) (fetchAtRest s).out := by
  unfold fetchAtRest
  split
  · next r rest _ => exact (fetchRequest_keeps r _).keeps_after (keeps_of_eq rfl rfl rfl rfl rfl)
  · split
    · next e rest _ => exact (fetchLink_keeps e _).keeps_after (keeps_of_eq rfl rfl rfl rfl rfl)
    · exact nextHas_next (Keeps.refl s)

/-- The answer of the time source, listed or free, starts from a state that differs in the inputs only. -/
theorem fetchClock_keeps (s : State) : NextHas (Keeps s) (fetchClock s).out := by
  unfold fetchClock
  split <;> exact (runOn_keeps (onClock_follows _ _).keeps).keeps_after (keeps_of_eq rfl rfl rfl rfl rfl)

theorem fetchWrite_keeps (s : State) : NextHas (Keeps s) (fetchWrite s).out := by
  unfold fetchWrite
  split <;> exact (runOn_keeps (onWrite_follows _ _).keeps).keeps_after (keeps_of_eq rfl rfl rfl rfl rfl)

theorem fetchRead_keeps (s : State) : NextHas (Keeps s) (fetchRead s).out := by
  unfold fetchRead
  split <;> exact (fetchLink_keeps _ _).keeps_after (keeps_of_eq rfl rfl rfl rfl rfl)

theorem fetchHandler_keeps (s : State) : NextHas (Keeps s) (fetchHandler s).out := by
  unfold fetchHandler
  split <;> exact (runOnFrom_keeps (onHandler_keeps _ _)).keeps_after (keeps_of_eq rfl rfl rfl rfl rfl)

theorem step_keeps (s : State) : NextHas (Keeps s) (step s) := by
  rw [step_eq_out]
  cases hw : s.waiting with
  | nobody => rw [fetch_nobody hw]; exact fetchAtRest_keeps s
  | clock => rw [fetch_clock hw]; exact fetchClock_keeps s
  | write => rw [fetch_write hw]; exact fetchWrite_keeps s
  | read n => rw [fetch_read hw]; exact fetchRead_keeps s
  | handler => rw [fetch_handler hw]; exact fetchHandler_keeps s

end Sys2Proof.Machine

namespace Sys2Proof.Claims

open Sys2Proof Sys2Proof.Machine

/-- Settles O53: every part of a step keeps the history, from the invariant's bound on `CB_COUNT`. -/
theorem noStepTakesBack : Obligations.NoStepTakesBack := by
  intro s t hinv hstep
  exact (step_keeps s t hstep hinv.countBounded).2

/-- Settles O12: both at a `TRead` and at rest the arrival next on the link is fetched, and a frame is an instruction. -/
theorem stepRunsTheArrivingFrame : Obligations.StepRunsTheArrivingFrame := by
  intro s b more i hawaits hlink hframe
  have harrival : fetch s = fetchLink (.arrive b) { s with link := more } := by
    rcases hawaits with ⟨n, hread⟩ | ⟨hrest, hport⟩
    · rw [fetch_read hread, fetchRead_link hlink]
    · rw [fetch_nobody hrest, fetchAtRest_link hport hlink]
  have hrun : fetch s = .run i { s with link := more } := harrival.trans (fetchLink_frame hframe)
  rw [step_eq_out, hrun, Fetched.out]

end Sys2Proof.Claims

/-! ## `10_state.md`: the values at reset, the invariant of reachable states, and the registers of the two roles -/

namespace Sys2Proof.Machine

/-! ### What an instruction does first

A request that the port accepts does some work of its own, and then the operation completes or runs on; a frame is delivered. -/

/-- What an accepted request does up to its completion or its first port primitive. A frame does nothing of its own. -/
def begun (i : Instr) (s : State) : State :=
  match i with
  | .crc16 bytes => completeInPlace .ok (.code (crc16 s.params.crc bytes)) s
  | .encode kind payload => completeInPlace .ok (.bytes (encodePacket s.params kind payload)) s
  | .decode frame kind => decodeCompletion (decodePacket s.params kind frame) s
  | .putPacket kind payload long => putPacket kind payload long { s with job := .putPacket }
  | .getPacket kind n long => getPacket kind n long { s with job := .getPacket }
  | .putCommand rpcId data timeout => putCommand rpcId data timeout none s
  | .getResult cap timeout => getResult cap timeout { s with respLen := cap }
  | .call rpcId request cap sendTimeout recvTimeout =>
    putCommand rpcId request sendTimeout (some ⟨cap, recvTimeout⟩) { s with respLen := cap }
  | .getCommand => getCommand false s
  | .findCallback rpcId => findCompletion (lookup rpcId s) s
  | .putResult data => putResult data false s
  | .registerCallback rpcId handler => registerCallback rpcId handler s
  | .scheduleCallback handler => scheduleCallback handler s
  | .loop => getCommand true s
  | .ch _ _ _ => s
  | .cd _ _ => s
  | .rh _ _ => s
  | .rd _ _ => s

/-- A request passes the port's gate, and then completes at once or runs on. -/
theorem exec_request {i : Instr} (hi : i.isRequest = true) (s : State) :
    exec i s = gate i s (fun u => .next (begun i u)) ∨ exec i s = gate i s (fun u => runOn (begun i u)) := by
  cases i with
  | crc16 | encode | decode | findCallback | registerCallback | scheduleCallback => exact Or.inl rfl
  | putPacket | getPacket | putCommand | getResult | call | getCommand | putResult | loop => exact Or.inr rfl
  | ch | cd | rh | rd => cases hi

/-- A frame is delivered. -/
theorem exec_frame {i : Instr} (hi : i.isRequest = false) (s : State) : ∃ bytes, exec i s = deliver bytes s := by
  cases i with
  | ch | cd | rh | rd => exact ⟨_, rfl⟩
  | crc16 | encode | decode | findCallback | registerCallback | scheduleCallback => cases hi
  | putPacket | getPacket | putCommand | getResult | call | getCommand | putResult | loop => cases hi

/-- The port starts the request (R112, R262): it is one of the role of the block, and no operation is in progress unless it is a
registration. -/
structure Accepted (i : Instr) (s : State) : Prop where
  role : roleAccepts s.params.role i = true
  resting : isRegistration i = false → s.inProgress = false

theorem gate_accepted {P : State → Prop} {i : Instr} {s : State} {run : State → Out} (hr : P (refuse s))
    (h : Accepted i s → NextHas P (run s)) : NextHas P (gate i s run) := by
  refine gate_has hr fun hbad _ hrest => h ⟨?_, hrest⟩
  have hboth : roleAccepts s.params.role i = true ∧ lengthRepresentable i = true := by
    simpa [isBadOp, Bool.and_eq_true] using hbad
  exact hboth.1

theorem decodeCh_ok {h : HeaderLayout} {payload : List Byte} {c : Half} {i : Instr} (hd : decodeCh h payload c = .ok i) :
    ∃ id n, i = .ch id n c := by
  unfold decodeCh at hd
  split at hd
  · cases hd
  · split at hd <;> cases hd
    exact ⟨_, _, rfl⟩

theorem decodeRh_ok {h : HeaderLayout} {payload : List Byte} {c : Half} {i : Instr} (hd : decodeRh h payload c = .ok i) :
    ∃ n, i = .rh n c := by
  unfold decodeRh at hd
  split at hd
  · cases hd
  · split at hd <;> cases hd
    exact ⟨_, rfl⟩

/-- Bytes on the wire decode to a packet kind, never to a request (R111). -/
theorem decodeWire_frame {f : Formats} {b : List Byte} {i : Instr} (h : decodeWire f b = .ok i) : i.isRequest = false := by
  unfold decodeWire at h
  split at h
  · cases h
  · dsimp only at h
    split at h
    · obtain ⟨id, n, rfl⟩ := decodeCh_ok h; rfl
    · split at h
      · cases h; rfl
      · split at h
        · obtain ⟨n, rfl⟩ := decodeRh_ok h; rfl
        · split at h <;> cases h
          rfl

/-! ### Induction over the parts of a step -/

/-- The property is kept by each thing a step is made of: taking an input, an answer of another agent, the refusal of a request, and
the start of one. -/
structure KeptByParts (P : State → Prop) : Prop where
  inputs : ∀ (s : State) (hostPort : List (List Byte)) (writes : List WriteAnswer) (link : List LinkEvent)
    (handlers : List HandlerRun) (clock : List Word) (draws : Nat), P s →
    P { s with hostPort := hostPort, writes := writes, link := link, handlers := handlers, clock := clock, draws := draws }
  clock : ∀ (s : State) (d : Word), P s → P (onClock d s)
  write : ∀ (s : State) (a : WriteAnswer), s.waiting = .write → P s → P (onWrite a s)
  link : ∀ (s : State) (e : LinkEvent), P s → NextHas P (onLink e s)
  handler : ∀ (s : State) (r : HandlerRun), s.waiting = .handler → P s → NextHas P (onHandler r s)
  refuse : ∀ s : State, P s → P (refuse s)
  begun : ∀ (i : Instr) (s : State), i.wellFormed s.params.formats = true → Accepted i s → P s → P (begun i s)

section
variable {P : State → Prop}

/-- Stronger than `runFor_has`: a handler's run is an answer only where one was invoked. -/
theorem KeptByParts.runFor (h : KeptByParts P) (fuel : Nat) {s : State} (hs : P s) : NextHas P (runFor fuel s) := by
  induction fuel generalizing s with
  | zero => exact nextHas_next hs
  | succ fuel ih =>
    unfold Machine.runFor
    split
    · exact nextHas_next hs
    · split
      · exact nextHas_next hs
      · exact ih (h.clock _ _ (h.inputs _ _ _ _ _ _ _ hs))
    · next hwaiting =>
      split
      · exact nextHas_next hs
      · exact ih (h.write _ _ hwaiting (h.inputs _ _ _ _ _ _ _ hs))
    · split
      · exact nextHas_next hs
      · split
        · next t ht => exact ih (h.link _ _ (h.inputs _ _ _ _ _ _ _ hs) t ht)
        · exact nextHas_fault
        · exact nextHas_refused
    · next hwaiting =>
      split
      · exact nextHas_next hs
      · split
        · next t ht => exact ih (h.handler _ _ (by exact hwaiting) (h.inputs _ _ _ _ _ _ _ hs) t ht)
        · exact nextHas_fault
        · exact nextHas_refused

theorem KeptByParts.runOn (h : KeptByParts P) {s : State} (hs : P s) : NextHas P (runOn s) := h.runFor _ hs

theorem KeptByParts.runOnFrom (h : KeptByParts P) {o : Out} (ho : NextHas P o) : NextHas P (runOnFrom o) := by
  cases o with
  | next s => exact h.runOn (ho s rfl)
  | fault f => exact nextHas_fault
  | refused r => exact nextHas_refused

theorem KeptByParts.request (h : KeptByParts P) {i : Instr} {s : State} (hi : i.isRequest = true)
    (hw : i.wellFormed s.params.formats = true) (hs : P s) : NextHas P (exec i s) := by
  rcases exec_request hi s with e | e <;> rw [e] <;> refine gate_accepted (h.refuse s hs) fun ha => ?_
  · exact nextHas_next (h.begun i s hw ha hs)
  · exact h.runOn (h.begun i s hw ha hs)

theorem KeptByParts.frame (h : KeptByParts P) {i : Instr} {s : State} (hi : i.isRequest = false) (hs : P s) :
    NextHas P (exec i s) := by
  obtain ⟨bytes, e⟩ := exec_frame hi s
  rw [e]
  exact h.runOnFrom (h.link s (.arrive bytes) hs)

theorem KeptByParts.fetchRequest (h : KeptByParts P) (r : List Byte) {s : State} (hs : P s) :
    NextHas P (fetchRequest r s).out := by
  unfold Machine.fetchRequest
  split
  · next i hd =>
    cases hi : i.isRequest
    · exact h.frame hi hs
    · exact h.request hi (decodeRequest_wellFormed hd) hs
  · exact nextHas_next (h.refuse s hs)
  · exact nextHas_next (h.refuse s hs)
  · exact nextHas_refused

theorem KeptByParts.fetchLink (h : KeptByParts P) (e : LinkEvent) {s : State} (hs : P s) :
    NextHas P (fetchLink e s).out := by
  unfold Machine.fetchLink
  split
  · next bytes =>
    split
    · next hd => exact h.frame (decodeWire_frame hd) hs
    · exact h.runOnFrom (h.link s (.arrive bytes) hs)
  · next eaten => exact h.runOnFrom (h.link s (.expire eaten) hs)
  · next count => exact h.runOnFrom (h.link s (.lose count) hs)

theorem KeptByParts.fetchAtRest (h : KeptByParts P) {s : State} (hs : P s) : NextHas P (fetchAtRest s).out := by
  unfold Machine.fetchAtRest
  split
  · exact h.fetchRequest _ (h.inputs _ _ _ _ _ _ _ hs)
  · split
    · exact h.fetchLink _ (h.inputs _ _ _ _ _ _ _ hs)
    · exact nextHas_next hs

/-- A property that every part of a step keeps, every step keeps. The answer to a port primitive is a listed one or a free value. -/
theorem KeptByParts.step (h : KeptByParts P) {s : State} (hs : P s) : NextHas P (step s) := by
  rw [step_eq_out]
  cases hw : s.waiting with
  | nobody => rw [fetch_nobody hw]; exact h.fetchAtRest hs
  | clock =>
    rw [fetch_clock hw]
    unfold fetchClock
    split <;> exact h.runOn (h.clock _ _ (h.inputs _ _ _ _ _ _ _ hs))
  | write =>
    rw [fetch_write hw]
    unfold fetchWrite
    split <;> exact h.runOn (h.write _ _ hw (h.inputs _ _ _ _ _ _ _ hs))
  | read n =>
    rw [fetch_read hw]
    unfold fetchRead
    split <;> exact h.fetchLink _ (h.inputs _ _ _ _ _ _ _ hs)
  | handler =>
    rw [fetch_handler hw]
    unfold fetchHandler
    split <;> exact h.runOnFrom (h.handler _ _ hw (h.inputs _ _ _ _ _ _ _ hs))

end

/-! ### The invariant -/

theorem master_atRest {s : State} (hr : s.params.role = .master) (h : s.inProgress = false) :
    s.state = .idle ∧ s.phase = .mRest ∧ s.exch = .idle := by
  obtain ⟨hphase, hstate, -, hexch⟩ := inProgress_false h
  rw [hr] at hphase hstate
  exact ⟨hstate, hphase, hexch⟩

theorem slave_atRest {s : State} (hr : s.params.role = .slave) (h : s.inProgress = false) :
    s.state = .waitingForCommand := by
  obtain ⟨-, hstate, -⟩ := inProgress_false h
  rw [hr] at hstate
  exact hstate

theorem State.Inv.respLen {s : State} (h : s.Inv) (cap : Word) : State.DataInv { s with respLen := cap } :=
  h.data.congr rfl rfl rfl rfl rfl rfl rfl h.retry

/-- PUT_PACKET issued by the host runs with the sequencer at rest (log 17). -/
theorem hostPutPacket_inv {s : State} (h : s.Inv) (hrest : s.inProgress = false) (kind : Kind) (payload : List Byte)
    (long : Option Word) : (putPacket kind payload long { s with job := .putPacket }).Inv := by
  obtain ⟨hphase, hstate, -⟩ := inProgress_false hrest
  have hdata : State.DataInv { s with job := .putPacket } := h.data.congr rfl rfl rfl rfl rfl rfl rfl h.retry
  exact putPacket_inv hdata _ _ _ (by simp [sequencerLegal, sequencerResting, sequencerAt, sending, hphase, hstate])

/-- And so does GET_PACKET, whose first `last` is `Timeout` (R174). -/
theorem hostGetPacket_inv {s : State} (h : s.Inv) (hrest : s.inProgress = false) (kind : Kind) (n : Word)
    (long : Option Word) : (getPacket kind n long { s with job := .getPacket }).Inv := by
  obtain ⟨hphase, hstate, -⟩ := inProgress_false hrest
  have hdata : State.DataInv { s with job := .getPacket } := h.data.congr rfl rfl rfl rfl rfl rfl rfl h.retry
  exact getPacket_inv hdata _ _ _ (by simp [sequencerLegal, sequencerResting, sequencerAt, receivingForHost, hphase, hstate])

/-- An accepted request starts its operation from a sequencer at rest, and so in a legal pair of STATE and PHASE. -/
theorem begun_inv {i : Instr} {s : State} (hw : i.wellFormed s.params.formats = true) (ha : Accepted i s) (h : s.Inv) :
    (begun i s).Inv := by
  obtain ⟨hrole, hrest⟩ := ha
  cases i with
  | crc16 | encode => exact completeInPlace_inv h _ _
  | decode frame kind =>
    show (decodeCompletion _ s).Inv
    unfold decodeCompletion
    split <;> exact completeInPlace_inv h _ _
  | putPacket kind payload long => exact hostPutPacket_inv h (hrest rfl) kind payload long
  | getPacket kind n long => exact hostGetPacket_inv h (hrest rfl) kind n long
  | putCommand rpcId data timeout =>
    have hr : s.params.role = .master := of_decide_eq_true hrole
    obtain ⟨hstate, hphase, hexch⟩ := master_atRest hr (hrest rfl)
    exact putCommand_inv h.data hr hstate hphase hexch _ _ _ _
  | getResult cap timeout =>
    have hr : s.params.role = .master := of_decide_eq_true hrole
    obtain ⟨hstate, hphase, -⟩ := master_atRest hr (hrest rfl)
    exact getResult_inv (h.respLen cap) hr (Or.inl ⟨hstate, hphase⟩) _ _
  | call rpcId request cap sendTimeout recvTimeout =>
    have hr : s.params.role = .master := of_decide_eq_true hrole
    obtain ⟨hstate, hphase, hexch⟩ := master_atRest hr (hrest rfl)
    exact putCommand_inv (h.respLen cap) hr hstate hphase hexch _ _ _ _
  | getCommand | loop =>
    have hr : s.params.role = .slave := of_decide_eq_true hrole
    exact getCommand_inv h.data hr (slave_atRest hr (hrest rfl)) _
  | findCallback rpcId =>
    show (findCompletion _ s).Inv
    unfold findCompletion
    split <;> exact completeInPlace_inv h _ _
  | putResult data =>
    have hr : s.params.role = .slave := of_decide_eq_true hrole
    exact putResult_inv h.data hr false (slave_atRest hr (hrest rfl)) _
  | registerCallback rpcId handler => exact registerCallback_inv h rpcId hw
  | scheduleCallback handler => exact scheduleCallback_inv h hw
  | ch | cd | rh | rd => exact h

theorem inv_keptByParts : KeptByParts State.Inv where
  inputs _ _ _ _ _ _ _ h := h.congr rfl rfl rfl rfl rfl rfl rfl rfl rfl rfl rfl rfl
  clock _ d h := onClock_inv h d
  write _ a hwaiting h := onWrite_inv h (waiting_write hwaiting) a
  link _ e h := onLink_inv h e
  handler _ r _ h := onHandler_inv h r
  refuse _ h := refuse_inv h
  begun _ _ hw ha h := begun_inv hw ha h

/-! ### Reset -/

/-- Reset leaves the sequencer at rest with no entry in use, its registers at 0 and both memories without a cell. -/
theorem resetWith_inv {p : Params} (hp : p.wf = true) : (State.resetWith p).Inv where
  params := hp
  bufWf := rfl
  bufWithin := rfl
  respWf := rfl
  bufLen := Nat.zero_le _
  tableSize := List.length_replicate
  tableCount := Nat.zero_le _
  tableDistinct := by simp [entriesInUse, State.resetWith]
  handlersFit := by simp +contextual [State.resetWith, Handler.fits, List.mem_replicate]
  retry := Nat.zero_le _
  attemptLeft := nofun
  sequencer := by simp [sequencerLegal, sequencerResting, sequencerAt, State.resetWith]

theorem instanceParams_wf : Config.instanceParams.wf = true := by decide

@[simp] theorem stateCode_restState (r : Role) : stateCode (restState r) = 0 := by cases r <;> rfl

@[simp] theorem phaseCode_restPhase (r : Role) : phaseCode (restPhase r) = 0 := by cases r <;> rfl

end Sys2Proof.Machine

namespace Sys2Proof.Claims

open Sys2Proof Sys2Proof.Machine

/-- Settles O52: each part of a step keeps the invariant, so every step does. -/
theorem everyStepKeepsTheInvariant : Obligations.EveryStepKeepsTheInvariant :=
  fun _ t hinv hstep => inv_keptByParts.step hinv t hstep

/-- Settles O50: the sequencer rests in code 0 for either role, and the other registers are written so. -/
theorem resetLeavesTheListedValues : Obligations.ResetLeavesTheListedValues :=
  fun p => ⟨stateCode_restState p.role, phaseCode_restPhase p.role, rfl, rfl, rfl, rfl, rfl, rfl⟩

/-- Settles O51; the parameters of log 1 are legal. -/
theorem resetEstablishesTheInvariant : Obligations.ResetEstablishesTheInvariant :=
  ⟨fun _ => resetWith_inv, resetWith_inv instanceParams_wf⟩

end Sys2Proof.Claims

/-! ## `10_state.md` R20: the registers of one role -/

namespace Sys2Proof.Machine

/-! ### Which registers a step of a role leaves alone -/

/-- The registers that only a slave has (R20). -/
def slaveRegisters (s : State) : Word × Word × Memory × BitVec 8 × List CbEntry × Bool × Handler :=
  (s.curRpcId, s.bufLen, s.buf, s.cbCount, s.cb, s.defValid, s.defHandler)

/-- `T0`, which only a master has (R20), and the response buffer and length of a master's host. -/
def masterRegisters (s : State) : Word × Memory × Word := (s.t0, s.respBuf, s.respLen)

/-- An operation that belongs to one role is in progress only on a block of that role. -/
def Job.suits (j : Job) (r : Role) : Prop :=
  match j with
  | .idle => True
  | .putPacket => True
  | .getPacket => True
  | .commandStart _ _ _ _ => r = .master
  | .commandHeader _ _ => r = .master
  | .commandData _ => r = .master
  | .resultStart _ _ => r = .master
  | .resultHeader _ => r = .master
  | .resultData => r = .master
  | .recvHeader _ => r = .slave
  | .recvData _ _ => r = .slave
  | .handler _ => r = .slave
  | .replyHeader _ _ => r = .slave
  | .replyData _ => r = .slave
  | .deferred _ => r = .slave

/-- The one part of the invariant that R20 rests on. -/
def State.JobSuits (s : State) : Prop := s.job.suits s.params.role

theorem State.Inv.jobSuits {s : State} (h : s.Inv) : s.JobSuits := by
  have q := h.sequencer
  unfold State.JobSuits
  cases hj : s.job with
  | idle | putPacket | getPacket => trivial
  | commandStart | commandHeader | commandData | resultStart | resultHeader | resultData
  | recvHeader | recvData | handler | replyHeader | replyData | deferred =>
    simp only [sequencerLegal, hj, Bool.and_eq_true, decide_eq_true_eq] at q
    exact q.1.1

/-- An invoked handler is one of a slave (R222). -/
theorem waiting_handler_slave {s : State} (h : s.waiting = .handler) (hs : s.JobSuits) : s.params.role = .slave := by
  unfold State.JobSuits at hs
  cases hj : s.job with
  | handler | deferred => rw [hj] at hs; exact hs
  | _ => cases hx : s.exch <;> simp [State.waiting, hx, hj] at h

/-- `t` comes after `s` without a change to the registers of the role that is not its own. -/
structure KeepsApart (s t : State) : Prop where
  params : t.params = s.params
  suits : t.JobSuits
  ofMaster : s.params.role = .master → slaveRegisters t = slaveRegisters s
  ofSlave : s.params.role = .slave → masterRegisters t = masterRegisters s

theorem KeepsApart.refl {s : State} (h : s.JobSuits) : KeepsApart s s := ⟨rfl, h, fun _ => rfl, fun _ => rfl⟩

theorem KeepsApart.trans {s t u : State} (h : KeepsApart s t) (k : KeepsApart t u) : KeepsApart s u :=
  ⟨k.params.trans h.params, k.suits, fun hr => (k.ofMaster (h.params ▸ hr)).trans (h.ofMaster hr),
   fun hr => (k.ofSlave (h.params ▸ hr)).trans (h.ofSlave hr)⟩

/-- `KeepsApart.trans` with the later part first, so that the state between is read off it: a hypothesis about that state is given
`by exact`, which waits until it is known. -/
theorem KeepsApart.after {s t u : State} (k : KeepsApart t u) (h : KeepsApart s t) : KeepsApart s u := h.trans k

theorem KeepsApart.role {s t : State} (h : KeepsApart s t) {r : Role} (hr : s.params.role = r) : t.params.role = r := by
  rw [h.params, hr]

theorem NextHas.apart_after {s t : State} {o : Out} (ho : NextHas (KeepsApart t) o) (h : KeepsApart s t) :
    NextHas (KeepsApart s) o :=
  ho.imp fun _ hu => h.trans hu

/-- Changing no register that only one role has. -/
theorem apart_of_eq {s t : State} (hj : t.JobSuits) (hp : t.params = s.params) (hs : slaveRegisters t = slaveRegisters s)
    (hm : masterRegisters t = masterRegisters s) : KeepsApart s t :=
  ⟨hp, hj, fun _ => hs, fun _ => hm⟩

/-- A master writes its own registers. -/
theorem apart_of_master {s t : State} (hr : s.params.role = .master) (hj : t.JobSuits) (hp : t.params = s.params)
    (hs : slaveRegisters t = slaveRegisters s) : KeepsApart s t :=
  ⟨hp, hj, fun _ => hs, fun h => absurd (hr.symm.trans h) (by decide)⟩

/-- A slave writes its own registers. -/
theorem apart_of_slave {s t : State} (hr : s.params.role = .slave) (hj : t.JobSuits) (hp : t.params = s.params)
    (hm : masterRegisters t = masterRegisters s) : KeepsApart s t :=
  ⟨hp, hj, fun h => absurd (hr.symm.trans h) (by decide), fun _ => hm⟩

/-! ### Ending an operation, and the attempt loop -/

theorem finish_apart (st : Status) (r : Result) (s : State) : KeepsApart s (finish st r s) :=
  apart_of_eq trivial rfl rfl rfl

theorem completeInPlace_apart {s : State} (h : s.JobSuits) (st : Status) (r : Result) :
    KeepsApart s (completeInPlace st r s) := apart_of_eq h rfl rfl rfl

theorem clearDeferred_apart {s : State} (hr : s.params.role = .slave) (h : s.JobSuits) : KeepsApart s (clearDeferred s) :=
  apart_of_slave hr h rfl rfl

/-- Only LOOP clears the deferred slot when an exchange fails. -/
theorem exchangeFailed_apart {s : State} (h : s.JobSuits) (f : Status) : KeepsApart s (exchangeFailed f s) := by
  have hj := h
  unfold exchangeFailed
  unfold State.JobSuits at hj
  split
  · next e =>
    rw [e] at hj
    exact (clearDeferred_apart hj h).trans (finish_apart _ _ _)
  · next e =>
    rw [e] at hj
    exact (clearDeferred_apart hj h).trans (finish_apart _ _ _)
  · exact finish_apart _ _ _

theorem issue_apart {s : State} (h : s.JobSuits) : KeepsApart s (issue s) := apart_of_eq h rfl rfl rfl

theorem attempt_apart {s : State} (h : s.JobSuits) : KeepsApart s (attempt s) := by
  rcases attempt_cases s with ⟨-, e⟩ | ⟨-, long, -, e⟩ | ⟨-, kind, n, long, last, -, e⟩ | ⟨-, e⟩ <;> rw [e]
  · exact exchangeFailed_apart h _
  · exact apart_of_eq h rfl rfl rfl
  · exact apart_of_eq h rfl rfl rfl
  · exact issue_apart h

theorem deadlineCheck_apart {s : State} (h : s.JobSuits) (long : Word) : KeepsApart s (deadlineCheck long s) := by
  rcases deadlineCheck_cases long s with ⟨-, e⟩ | ⟨-, e⟩ <;> rw [e]
  · exact exchangeFailed_apart h _
  · exact issue_apart h

theorem putPacket_apart {s : State} (h : s.JobSuits) (kind : Kind) (payload : List Byte) (long : Option Word) :
    KeepsApart s (putPacket kind payload long s) := by
  unfold putPacket
  exact KeepsApart.after (attempt_apart (by exact h)) (apart_of_eq h rfl rfl rfl)

theorem getPacket_apart {s : State} (h : s.JobSuits) (kind : Kind) (n : Word) (long : Option Word) :
    KeepsApart s (getPacket kind n long s) := by
  unfold getPacket
  exact KeepsApart.after (attempt_apart (by exact h)) (apart_of_eq h rfl rfl rfl)

/-! ### The sequences of exchanges -/

section
variable {s : State}

theorem sendCommand_apart (hr : s.params.role = .master) (rpcId : Word) (data : List Byte) (timeout : Word)
    (call : Option CallRest) : KeepsApart s (sendCommand rpcId data timeout call s) := by
  unfold sendCommand
  exact KeepsApart.after (putPacket_apart (by exact hr) _ _ _) (apart_of_eq hr rfl rfl rfl)

theorem awaitResult_apart (hr : s.params.role = .master) (cap timeout : Word) :
    KeepsApart s (awaitResult cap timeout s) := by
  unfold awaitResult
  exact KeepsApart.after (getPacket_apart (by exact hr) _ _ _) (apart_of_eq hr rfl rfl rfl)

theorem getCommand_apart (hr : s.params.role = .slave) (inLoop : Bool) : KeepsApart s (getCommand inLoop s) := by
  unfold getCommand
  exact KeepsApart.after (getPacket_apart (by exact hr) _ _ _) (apart_of_eq hr rfl rfl rfl)

theorem putResult_apart (hr : s.params.role = .slave) (data : List Byte) (inLoop : Bool) :
    KeepsApart s (putResult data inLoop s) := by
  unfold putResult
  exact KeepsApart.after (putPacket_apart (by exact hr) _ _ _) (apart_of_eq hr rfl rfl rfl)

theorem afterReply_apart (hr : s.params.role = .slave) : KeepsApart s (afterReply s) := by
  unfold afterReply
  split
  · exact apart_of_slave hr hr rfl rfl
  · exact apart_of_slave hr trivial rfl rfl

theorem dispatch_apart (hr : s.params.role = .slave) (rpcId : Word) : KeepsApart s (dispatch rpcId s) := by
  unfold dispatch dispatchFound
  split
  · exact apart_of_slave hr trivial rfl rfl
  · exact apart_of_slave hr hr rfl rfl

theorem putSucceeded_apart (h : s.JobSuits) : KeepsApart s (putSucceeded s) := by
  have hr := h
  unfold putSucceeded
  unfold State.JobSuits at hr
  split <;> rename_i hj <;> rw [hj] at hr
  · exact finish_apart _ _ _
  · exact KeepsApart.after (putPacket_apart (by exact hr) _ _ _) (apart_of_eq hr rfl rfl rfl)
  · exact finish_apart _ _ _
  · exact apart_of_eq hr rfl rfl rfl
  · exact KeepsApart.after (putPacket_apart (by exact hr) _ _ _) (apart_of_eq hr rfl rfl rfl)
  · exact finish_apart _ _ _
  · exact afterReply_apart hr
  all_goals exact KeepsApart.refl h

theorem commandReceived_apart (hr : s.params.role = .slave) (h : s.JobSuits) (rpcId : Word) (inLoop : Bool) (d : List Byte) :
    NextHas (KeepsApart s) (commandReceived rpcId inLoop d s) := by
  unfold commandReceived
  split
  · exact nextHas_fault
  · next s1 hw =>
    obtain ⟨-, rfl⟩ := bufWrite_some hw
    refine nextHas_next ?_
    split
    · exact KeepsApart.after (dispatch_apart (by exact hr) _) (apart_of_slave hr h rfl rfl)
    · exact KeepsApart.after (finish_apart _ _ _) (apart_of_slave hr h rfl rfl)

theorem getSucceeded_apart (h : s.JobSuits) (payload : List Byte) : NextHas (KeepsApart s) (getSucceeded payload s) := by
  have hr := h
  unfold getSucceeded
  unfold State.JobSuits at hr
  split <;> rename_i hj <;> rw [hj] at hr
  · exact nextHas_next (finish_apart _ _ _)
  · refine nextHas_next ?_
    split
    · exact finish_apart _ _ _
    · exact KeepsApart.after (getPacket_apart (by exact hr) _ _ _) (apart_of_eq hr rfl rfl rfl)
  · exact nextHas_next (apart_of_master hr trivial rfl rfl)
  · refine nextHas_next ?_
    split
    · exact finish_apart _ _ _
    · exact KeepsApart.after (getPacket_apart (by exact hr) _ _ _) (apart_of_eq hr rfl rfl rfl)
  · exact commandReceived_apart hr h _ _ _
  all_goals exact nextHas_next (KeepsApart.refl h)

/-! ### The answers of the other agents -/

/-- Only a master's operations sample `T0`. -/
theorem onClock_apart (h : s.JobSuits) (d : Word) : KeepsApart s (onClock d s) := by
  have hr := h
  unfold onClock
  unfold State.JobSuits at hr
  split
  · exact KeepsApart.after (deadlineCheck_apart (by exact h) _) (apart_of_eq h rfl rfl rfl)
  · exact KeepsApart.after (deadlineCheck_apart (by exact h) _) (apart_of_eq h rfl rfl rfl)
  · exact KeepsApart.refl h
  · exact KeepsApart.refl h
  · split <;> rename_i hj
    · rw [hj] at hr
      exact KeepsApart.after (sendCommand_apart (by exact hr) _ _ _ _) (apart_of_master hr h rfl rfl)
    · rw [hj] at hr
      exact KeepsApart.after (awaitResult_apart (by exact hr) _ _) (apart_of_master hr h rfl rfl)
    · exact KeepsApart.refl h

theorem onWrite_apart (h : s.JobSuits) (a : WriteAnswer) : KeepsApart s (onWrite a s) := by
  have hsent : KeepsApart s { s with tx := s.tx ++ sentBytes a s.frame } := apart_of_eq h rfl rfl rfl
  simp only [onWrite]
  split
  · exact hsent.trans (putSucceeded_apart h)
  · exact hsent.trans (attempt_apart h)

theorem setLast_apart (h : s.JobSuits) (f : Status) : KeepsApart s (setLast f s) := by
  unfold setLast
  split
  · exact apart_of_eq h rfl rfl rfl
  · exact KeepsApart.refl h

theorem onFrame_apart (h : s.JobSuits) (kind : Kind) (frame : List Byte) :
    NextHas (KeepsApart s) (onFrame kind frame s) := by
  unfold onFrame
  split
  · have hframe : KeepsApart s { s with frame := frame } := apart_of_eq h rfl rfl rfl
    exact (getSucceeded_apart hframe.suits _).apart_after hframe
  · have hlast := setLast_apart h
    exact nextHas_next ((hlast _).trans (attempt_apart (hlast _).suits))

theorem onArrive_apart (h : s.JobSuits) (bytes : List Byte) : NextHas (KeepsApart s) (onArrive bytes s) := by
  have hrx : ∀ rx, KeepsApart s { s with rx := rx } := fun _ => apart_of_eq h rfl rfl rfl
  unfold onArrive
  split
  · split
    · exact (onFrame_apart (hrx _).suits _ _).apart_after (hrx _)
    · exact nextHas_next (hrx _)
  · exact nextHas_next (hrx _)

theorem onExpire_apart (h : s.JobSuits) (eaten : Nat) : KeepsApart s (onExpire eaten s) := by
  have heaten : KeepsApart s { s with rx := s.rx.drop eaten } := apart_of_eq h rfl rfl rfl
  unfold onExpire
  split
  · have hlast := heaten.trans (setLast_apart heaten.suits .timeout)
    exact hlast.trans (attempt_apart hlast.suits)
  · exact KeepsApart.refl h

theorem onLink_apart (h : s.JobSuits) (e : LinkEvent) : NextHas (KeepsApart s) (onLink e s) := by
  cases e with
  | arrive bytes => exact onArrive_apart h bytes
  | expire eaten => exact nextHas_next (onExpire_apart h eaten)
  | lose count => exact nextHas_next (apart_of_eq h rfl rfl rfl)

theorem registerCallback_apart (hr : s.params.role = .slave) (h : s.JobSuits) (id : Word) (hd : Handler) :
    KeepsApart s (registerCallback id hd s) := by
  unfold registerCallback registerEntry
  split <;> exact apart_of_slave hr h rfl rfl

theorem scheduleCallback_apart (hr : s.params.role = .slave) (h : s.JobSuits) (hd : Handler) :
    KeepsApart s (scheduleCallback hd s) := apart_of_slave hr h rfl rfl

theorem handlerRequest_apart (hr : s.params.role = .slave) (h : s.JobSuits) (r : List Byte) :
    NextHas (KeepsApart s) (handlerRequest r s) := by
  have hrefuse : KeepsApart s (refuse s) := completeInPlace_apart h _ _
  unfold handlerRequest
  split
  · exact nextHas_next hrefuse
  · exact nextHas_next hrefuse
  · exact nextHas_refused
  · refine gate_has hrefuse fun _ _ _ => ?_
    split
    · exact nextHas_next (registerCallback_apart hr h _ _)
    · exact nextHas_next (scheduleCallback_apart hr h _)
    · exact nextHas_fault

end

theorem handlerRequests_apart (rs : List (List Byte)) {s : State} (hr : s.params.role = .slave) (h : s.JobSuits) :
    NextHas (KeepsApart s) (handlerRequests rs s) := by
  induction rs generalizing s with
  | nil => exact nextHas_next (KeepsApart.refl h)
  | cons r rs ih =>
    unfold handlerRequests
    split
    · next s1 hs =>
      have h1 := handlerRequest_apart hr h r s1 hs
      exact (ih (h1.role hr) h1.suits).apart_after h1
    · exact nextHas_fault
    · exact nextHas_refused

theorem handlerReturned_apart {s : State} (hr : s.params.role = .slave) (h : s.JobSuits) (code : Word) :
    NextHas (KeepsApart s) (handlerReturned code s) := by
  unfold handlerReturned
  split
  · split
    · exact nextHas_next ((clearDeferred_apart hr h).trans (finish_apart _ _ _))
    · split
      · exact nextHas_fault
      · exact nextHas_next (KeepsApart.after (putResult_apart (by exact hr) _ _) (apart_of_slave hr h rfl rfl))
  · exact nextHas_next (finish_apart _ _ _)
  · exact nextHas_next (KeepsApart.refl h)

/-- A handler's registrations and stores go to a slave's own registers. -/
theorem onHandler_apart {s : State} (hr : s.params.role = .slave) (h : s.JobSuits) (r : HandlerRun) :
    NextHas (KeepsApart s) (onHandler r s) := by
  unfold onHandler
  split
  · exact nextHas_fault
  · next requests stores code =>
    split
    · exact nextHas_fault
    · exact nextHas_refused
    · next s1 hs =>
      have h1 := handlerRequests_apart requests hr h s1 hs
      split
      · exact nextHas_fault
      · next s2 hw =>
        obtain ⟨-, rfl⟩ := bufStores_some hw
        have h2 : KeepsApart s1 { s1 with buf := writeCells s1.buf stores } :=
          apart_of_slave (h1.role hr) h1.suits rfl rfl
        have h12 := h1.trans h2
        exact (handlerReturned_apart (h12.role hr) h12.suits code).apart_after h12

/-! ### Requests -/

/-- The port starts a request of one role only on a block of that role (R113). -/
theorem begun_apart {i : Instr} {s : State} (ha : Accepted i s) (h : s.JobSuits) : KeepsApart s (begun i s) := by
  have hrole := ha.role
  cases i with
  | crc16 | encode => exact completeInPlace_apart h _ _
  | decode frame kind =>
    show KeepsApart s (decodeCompletion _ s)
    unfold decodeCompletion
    split <;> exact completeInPlace_apart h _ _
  | putPacket kind payload long =>
    have hjob : KeepsApart s { s with job := .putPacket } := apart_of_eq trivial rfl rfl rfl
    exact hjob.trans (putPacket_apart hjob.suits kind payload long)
  | getPacket kind n long =>
    have hjob : KeepsApart s { s with job := .getPacket } := apart_of_eq trivial rfl rfl rfl
    exact hjob.trans (getPacket_apart hjob.suits kind n long)
  | putCommand | getResult | call =>
    have hr : s.params.role = .master := of_decide_eq_true hrole
    exact apart_of_master hr hr rfl rfl
  | getCommand | loop => exact getCommand_apart (of_decide_eq_true hrole) _
  | findCallback rpcId =>
    show KeepsApart s (findCompletion _ s)
    unfold findCompletion
    split <;> exact completeInPlace_apart h _ _
  | putResult data => exact putResult_apart (of_decide_eq_true hrole) data false
  | registerCallback rpcId handler => exact registerCallback_apart (of_decide_eq_true hrole) h rpcId handler
  | scheduleCallback handler => exact scheduleCallback_apart (of_decide_eq_true hrole) h handler
  | ch | cd | rh | rd => exact KeepsApart.refl h

/-- Seen from a state `s`, all that the parts of a step lead to keeps the other role's registers. -/
theorem apart_keptByParts (s : State) : KeptByParts (KeepsApart s) where
  inputs _ _ _ _ _ _ _ h := h.trans (apart_of_eq h.suits rfl rfl rfl)
  clock _ d h := h.trans (onClock_apart h.suits d)
  write _ a _ h := h.trans (onWrite_apart h.suits a)
  link _ e h := (onLink_apart h.suits e).apart_after h
  handler _ r hwaiting h := (onHandler_apart (waiting_handler_slave hwaiting h.suits) h.suits r).apart_after h
  refuse _ h := h.trans (completeInPlace_apart h.suits _ _)
  begun _ _ _ ha h := h.trans (begun_apart ha h.suits)

end Sys2Proof.Machine

namespace Sys2Proof.Claims

open Sys2Proof Sys2Proof.Machine

/-- Settles O55: every part of a step keeps the roles apart where the operation in progress is one of its role. -/
theorem rolesKeepApart : Obligations.RolesKeepApart := by
  intro s t hinv hstep
  have hapart : KeepsApart s t := (apart_keptByParts s).step (KeepsApart.refl hinv.jobSuits) t hstep
  refine ⟨fun hr => ?_, fun hr => ?_⟩
  · simpa [slaveRegisters] using hapart.ofMaster hr
  · simpa [masterRegisters] using hapart.ofSlave hr

end Sys2Proof.Claims

/-! ## `20_memory.md`: the contents of byte arrays, and what the transport is asked -/

namespace Sys2Proof.Machine

open Sys2Proof.Claims

/-! ### What a write to a byte array leaves and what it writes (R61) -/

theorem readByte_writeBytes_outside {m : Memory} {a x : Nat} {v : List Byte} (h : rising m = true)
    (hx : x < a ∨ a + v.length ≤ x) : readByte (writeBytes m a v) x = readByte m x := by
  induction v generalizing m a with
  | nil => rfl
  | cons b v ih =>
    simp only [List.length_cons] at hx
    rw [writeBytes, ih (writeByte_rising a b h) (by omega), readByte_writeByte h, if_neg (by omega)]

/-- The bytes written read back: no later byte of the same write touches an earlier one. -/
theorem readBytes_writeBytes {m : Memory} {a : Nat} {v : List Byte} (h : rising m = true) :
    readBytes (writeBytes m a v) a v.length = v := by
  induction v generalizing m a with
  | nil => rfl
  | cons b v ih =>
    have hm : rising (writeByte m a b) = true := writeByte_rising a b h
    have hfirst : readByte (writeBytes (writeByte m a b) (a + 1) v) a = b := by
      rw [readByte_writeBytes_outside hm (by omega), readByte_writeByte h, if_pos rfl]
    rw [List.length_cons, writeBytes, readBytes, hfirst, ih hm]

/-! ### The canonical form determines the memory -/

theorem Memory.wf_cons {c : Host.Cell} {m : Memory} (h : Memory.wf (c :: m) = true) :
    c.2 ≠ unlistedByte ∧ (∀ d ∈ m, c.1 < d.1) ∧ Memory.wf m = true := by
  have hrising := Memory.wf_rising h
  simp only [Memory.wf, List.all_cons, Bool.and_eq_true, decide_eq_true_eq] at h ⊢
  obtain ⟨-, hc, hm⟩ := h
  exact ⟨hc, rising_head_lt hrising, rising_tail hrising, hm⟩

@[simp] theorem readByte_head (c : Host.Cell) (m : Memory) : readByte (c :: m) c.1 = c.2 := by
  simp [readByte]

/-- The first byte listed is no unlisted byte, which is what a memory with higher offsets only has there. -/
theorem readByte_head_ne_of_below {c : Host.Cell} {m m' : Memory} (h : Memory.wf (c :: m) = true)
    (hbelow : ∀ d ∈ m', c.1 < d.1) : readByte (c :: m) c.1 ≠ readByte m' c.1 := by
  obtain ⟨hc, -⟩ := Memory.wf_cons h
  rwa [readByte_head, readByte_below hbelow]

/-- An offset below the head of a rising memory is below every listed one. -/
theorem below_of_lt_head {a : Nat} {c : Host.Cell} {m : Memory} (h : Memory.wf (c :: m) = true) (ha : a < c.1) :
    ∀ d ∈ c :: m, a < d.1 := by
  obtain ⟨-, hlt, -⟩ := Memory.wf_cons h
  intro d hd
  rcases List.mem_cons.mp hd with rfl | hd
  · exact ha
  · exact ha.trans (hlt d hd)

/-- Without its head a memory reads as unlisted at the head's offset, and as before elsewhere. -/
theorem readByte_tail {c : Host.Cell} {m : Memory} (h : Memory.wf (c :: m) = true) (x : Nat) :
    readByte m x = if x = c.1 then unlistedByte else readByte (c :: m) x := by
  obtain ⟨-, hlt, -⟩ := Memory.wf_cons h
  split
  · next hx => subst hx; exact readByte_below hlt
  · next hx => rw [readByte, if_neg (Ne.symm hx)]

/-- Equal contents are equal memories: the heads agree, for the lower of two different ones would read as unlisted in the other memory,
and the tails read the same. -/
theorem Memory.ext_of_wf {m m' : Memory} (h : Memory.wf m = true) (h' : Memory.wf m' = true)
    (heq : ∀ x, readByte m x = readByte m' x) : m = m' := by
  induction m generalizing m' with
  | nil =>
    cases m' with
    | nil => rfl
    | cons d m' => exact absurd (heq d.1).symm (readByte_head_ne_of_below h' (by simp))
  | cons c m ih =>
    cases m' with
    | nil => exact absurd (heq c.1) (readByte_head_ne_of_below h (by simp))
    | cons d m' =>
      have hoffset : c.1 = d.1 := by
        rcases lt_trichotomy c.1 d.1 with hlt | he | hlt
        · exact absurd (heq c.1) (readByte_head_ne_of_below h (below_of_lt_head h' hlt))
        · exact he
        · exact absurd (heq d.1).symm (readByte_head_ne_of_below h' (below_of_lt_head h hlt))
      have hbyte : c.2 = d.2 := by
        have := heq c.1
        rwa [readByte_head, hoffset, readByte_head] at this
      have htails : ∀ x, readByte m x = readByte m' x := fun x => by
        rw [readByte_tail h, readByte_tail h', heq x, hoffset]
      obtain ⟨-, -, hm⟩ := Memory.wf_cons h
      obtain ⟨-, -, hm'⟩ := Memory.wf_cons h'
      rw [Prod.ext hoffset hbyte, ih hm hm' htails]

/-! ### The duration handed to the transport (R70) -/

/-- Every transport operation recorded was handed `SHORT_TIMEOUT_MS`. -/
def State.HandedShort (s : State) : Prop := s.calls.all (handedDuration s.params.shortTimeoutMs) = true

/-- The one fact R70 rests on: whatever the exchange and its long deadline, an attempt hands the transport the short timeout. -/
theorem attemptPrim_handedShort (s : State) (st : SeqState) (ph : Phase) :
    handedDuration s.params.shortTimeoutMs ⟨st, ph, attemptPrim s⟩ = true := by
  unfold attemptPrim
  split <;> simp [handedDuration]

section
variable {s : State}

theorem record_handedShort {p : Prim} (hp : handedDuration s.params.shortTimeoutMs ⟨s.state, s.phase, p⟩ = true)
    (h : s.HandedShort) : (record p s).HandedShort := by
  unfold State.HandedShort at h ⊢
  rw [record_calls, record_params, List.all_append, h]
  simpa using hp

theorem tick_handedShort (d : Word) (h : s.HandedShort) : (tick d s).HandedShort :=
  record_handedShort (s := { s with now := s.now + d, draws := s.draws + 1 }) rfl h

theorem invoke_handedShort (hd : Handler) (event n : Word) (h : s.HandedShort) : (invoke hd event n s).HandedShort :=
  record_handedShort rfl h

theorem issue_handedShort (h : s.HandedShort) : (issue s).HandedShort :=
  record_handedShort (s := { s with retryCnt := s.retryCnt - 1 }) (attemptPrim_handedShort s _ _) h

theorem exchangeFailed_handedShort (f : Status) (h : s.HandedShort) : (exchangeFailed f s).HandedShort := by
  rcases exchangeFailed_cases f s with e | e <;> rw [e] <;> exact h

theorem attempt_handedShort (h : s.HandedShort) : (attempt s).HandedShort := by
  rcases attempt_cases s with ⟨-, e⟩ | ⟨-, long, -, e⟩ | ⟨-, kind, n, long, last, -, e⟩ | ⟨-, e⟩ <;> rw [e]
  · exact exchangeFailed_handedShort _ h
  · exact h
  · exact h
  · exact issue_handedShort h

theorem deadlineCheck_handedShort (long : Word) (h : s.HandedShort) : (deadlineCheck long s).HandedShort := by
  rcases deadlineCheck_cases long s with ⟨-, e⟩ | ⟨-, e⟩ <;> rw [e]
  · exact exchangeFailed_handedShort _ h
  · exact issue_handedShort h

theorem putPacket_handedShort (kind : Kind) (payload : List Byte) (long : Option Word) (h : s.HandedShort) :
    (putPacket kind payload long s).HandedShort := attempt_handedShort h

theorem getPacket_handedShort (kind : Kind) (n : Word) (long : Option Word) (h : s.HandedShort) :
    (getPacket kind n long s).HandedShort := attempt_handedShort h

theorem afterReply_handedShort (h : s.HandedShort) : (afterReply s).HandedShort := by
  unfold afterReply
  split
  · exact invoke_handedShort _ _ _ h
  · exact h

theorem dispatch_handedShort (rpcId : Word) (h : s.HandedShort) : (dispatch rpcId s).HandedShort := by
  unfold dispatch dispatchFound
  split
  · exact h
  · exact invoke_handedShort _ _ _ h

theorem putSucceeded_handedShort (h : s.HandedShort) : (putSucceeded s).HandedShort := by
  unfold putSucceeded
  split
  · exact h
  · exact putPacket_handedShort _ _ _ h
  · exact h
  · exact h
  · exact putPacket_handedShort _ _ _ h
  · exact h
  · exact afterReply_handedShort h
  all_goals exact h

theorem commandReceived_handedShort (rpcId : Word) (inLoop : Bool) (d : List Byte) (h : s.HandedShort) :
    NextHas State.HandedShort (commandReceived rpcId inLoop d s) := by
  unfold commandReceived
  split
  · exact nextHas_fault
  · next s1 hw =>
    obtain ⟨-, rfl⟩ := bufWrite_some hw
    refine nextHas_next ?_
    split
    · exact dispatch_handedShort _ h
    · exact h

theorem getSucceeded_handedShort (payload : List Byte) (h : s.HandedShort) :
    NextHas State.HandedShort (getSucceeded payload s) := by
  unfold getSucceeded
  split
  · exact nextHas_next h
  · refine nextHas_next ?_
    split
    · exact h
    · exact getPacket_handedShort _ _ _ h
  · exact nextHas_next h
  · refine nextHas_next ?_
    split
    · exact h
    · exact getPacket_handedShort _ _ _ h
  · exact commandReceived_handedShort _ _ _ h
  all_goals exact nextHas_next h

theorem setLast_handedShort (f : Status) (h : s.HandedShort) : (setLast f s).HandedShort := by
  unfold setLast
  split <;> exact h

theorem onClock_handedShort (d : Word) (h : s.HandedShort) : (onClock d s).HandedShort := by
  have htick := tick_handedShort d h
  unfold onClock
  split
  · exact deadlineCheck_handedShort _ htick
  · exact deadlineCheck_handedShort _ htick
  · exact h
  · exact h
  · split
    · exact putPacket_handedShort _ _ _ htick
    · exact getPacket_handedShort _ _ _ htick
    · exact h

theorem onWrite_handedShort (a : WriteAnswer) (h : s.HandedShort) : (onWrite a s).HandedShort := by
  simp only [onWrite]
  split
  · exact putSucceeded_handedShort h
  · exact attempt_handedShort h

theorem onFrame_handedShort (kind : Kind) (frame : List Byte) (h : s.HandedShort) :
    NextHas State.HandedShort (onFrame kind frame s) := by
  unfold onFrame
  split
  · exact getSucceeded_handedShort _ h
  · exact nextHas_next (attempt_handedShort (setLast_handedShort _ h))

theorem onLink_handedShort (e : LinkEvent) (h : s.HandedShort) : NextHas State.HandedShort (onLink e s) := by
  cases e with
  | arrive bytes =>
    show NextHas _ (onArrive bytes s)
    unfold onArrive
    split
    · split
      · exact onFrame_handedShort _ _ h
      · exact nextHas_next h
    · exact nextHas_next h
  | expire eaten =>
    refine nextHas_next ?_
    unfold onExpire
    split
    · exact attempt_handedShort (setLast_handedShort _ h)
    · exact h
  | lose count => exact nextHas_next h

theorem registerCallback_handedShort (id : Word) (hd : Handler) (h : s.HandedShort) :
    (registerCallback id hd s).HandedShort := by
  unfold registerCallback registerEntry
  split <;> exact h

theorem handlerRequest_handedShort (r : List Byte) (h : s.HandedShort) :
    NextHas State.HandedShort (handlerRequest r s) := by
  unfold handlerRequest
  split
  · exact nextHas_next h
  · exact nextHas_next h
  · exact nextHas_refused
  · refine gate_has h fun _ _ _ => ?_
    split
    · exact nextHas_next (registerCallback_handedShort _ _ h)
    · exact nextHas_next h
    · exact nextHas_fault

end

theorem handlerRequests_handedShort (rs : List (List Byte)) {s : State} (h : s.HandedShort) :
    NextHas State.HandedShort (handlerRequests rs s) := by
  induction rs generalizing s with
  | nil => exact nextHas_next h
  | cons r rs ih =>
    unfold handlerRequests
    split
    · next s1 hr => exact ih (handlerRequest_handedShort r h s1 hr)
    · exact nextHas_fault
    · exact nextHas_refused

theorem handlerReturned_handedShort {s : State} (code : Word) (h : s.HandedShort) :
    NextHas State.HandedShort (handlerReturned code s) := by
  unfold handlerReturned
  split
  · split
    · exact nextHas_next h
    · split
      · exact nextHas_fault
      · exact nextHas_next (putPacket_handedShort _ _ _ h)
  · exact nextHas_next h
  · exact nextHas_next h

theorem onHandler_handedShort {s : State} (r : HandlerRun) (h : s.HandedShort) :
    NextHas State.HandedShort (onHandler r s) := by
  unfold onHandler
  split
  · exact nextHas_fault
  · next requests stores code =>
    split
    · exact nextHas_fault
    · exact nextHas_refused
    · next s1 hs =>
      split
      · exact nextHas_fault
      · next s2 hw =>
        obtain ⟨-, rfl⟩ := bufStores_some hw
        have h1 : s1.HandedShort := handlerRequests_handedShort requests h s1 hs
        exact handlerReturned_handedShort code h1

/-- A request makes its first attempt at most: every other beginning issues no transport operation. -/
theorem begun_handedShort {s : State} (i : Instr) (h : s.HandedShort) : (begun i s).HandedShort := by
  cases i with
  | putPacket kind payload long => exact putPacket_handedShort _ _ _ h
  | putResult data => exact putPacket_handedShort _ _ _ h
  | getPacket kind n long => exact getPacket_handedShort _ _ _ h
  | getCommand | loop => exact getPacket_handedShort _ _ _ h
  | registerCallback rpcId handler => exact registerCallback_handedShort _ _ h
  | decode frame kind =>
    show (decodeCompletion _ s).HandedShort
    unfold decodeCompletion
    split <;> exact h
  | findCallback rpcId =>
    show (findCompletion _ s).HandedShort
    unfold findCompletion
    split <;> exact h
  | crc16 | encode | putCommand | getResult | call | scheduleCallback | ch | cd | rh | rd => exact h

theorem handedShort_keptByParts : KeptByParts State.HandedShort where
  inputs _ _ _ _ _ _ _ h := h
  clock _ d h := onClock_handedShort d h
  write _ a _ h := onWrite_handedShort a h
  link _ e h := onLink_handedShort e h
  handler _ r _ h := onHandler_handedShort r h
  refuse _ h := h
  begun i _ _ _ h := begun_handedShort i h

/-! ### One `TRead` of a GET_PACKET (R64, R174) -/

/-- The host port runs a request of its role, with representable lengths, when no operation is in progress. -/
theorem gate_run {i : Instr} {s : State} {run : State → Out} (hbad : isBadOp s.params.role i = false)
    (hrest : s.inProgress = false) (hreg : isRegistration i = false) : gate i s run = run s := by
  simp [gate, hbad, hrest, hreg]

theorem retryReset_ne_zero (r : Role) : retryReset r ≠ 0 := by cases r <;> decide

/-- After one attempt another is left (R177). -/
theorem retryReset_pred_ne_zero (r : Role) : retryReset r - 1 ≠ 0 := by cases r <;> decide

theorem retryReset_pred_pred (r : Role) : retryReset r - 1 - 1 = retryReset r - 2 := by cases r <;> rfl

/-- Without a deadline, and with an attempt left, the head of the loop issues the `TRead` (R174). -/
theorem attempt_get_none {s : State} {kind : Kind} {n : Word} {last : Status} (hx : s.exch = .get kind n none last)
    (hleft : s.retryCnt ≠ 0) : attempt s = issue s := by
  simp only [attempt, if_neg hleft, hx]

/-- The `TRead` in progress takes what it asked for from the front of the stream, and the rest stays (R68). -/
theorem onArrive_enough {s : State} {kind : Kind} {n : Word} {long : Option Word} {last : Status} {b : List Byte}
    (hx : s.exch = .get kind n long last) (hlen : frameLength n ≤ (s.rx ++ b).length) :
    onArrive b s =
      onFrame kind ((s.rx ++ b).take (frameLength n)) { s with rx := (s.rx ++ b).drop (frameLength n) } := by
  simp only [onArrive, hx, if_pos hlen]

theorem onFrame_ok {kind : Kind} {frame payload : List Byte} {s : State}
    (h : decodePacket s.params kind frame = .ok payload) :
    onFrame kind frame s = getSucceeded payload { s with frame := frame } := by
  simp only [onFrame, h]

theorem onFrame_error {kind : Kind} {frame : List Byte} {f : Status} {s : State}
    (h : decodePacket s.params kind frame = .error f) : onFrame kind frame s = .next (attempt (setLast f s)) := by
  simp only [onFrame, h]

theorem setLast_get {f last : Status} {s : State} {kind : Kind} {n : Word} {long : Option Word}
    (hx : s.exch = .get kind n long last) : setLast f s = { s with exch := .get kind n long f } := by
  simp only [setLast, hx]

/-- A GET_PACKET of the host whose next frame validates completes with its payload. -/
theorem getSucceeded_getPacket {s : State} (payload : List Byte) (hj : s.job = .getPacket) :
    getSucceeded payload s = .next (finish .ok (.bytes payload) s) := by
  simp only [getSucceeded, hj]

/-- Blocked on the first `TRead` of a GET_PACKET without deadline, the request taken at rest. -/
def atFirstRead (kind : Kind) (n : Word) (s : State) : State :=
  { s with
    job := .getPacket
    exch := .get kind n none .timeout
    frame := []
    retryCnt := retryReset s.params.role - 1
    calls := s.calls ++ [⟨s.state, s.phase, .tread (n.toNat + 4) s.params.shortTimeoutMs⟩] }

theorem getPacket_atFirstRead (kind : Kind) (n : Word) (s : State) :
    getPacket kind n none { s with job := .getPacket } = atFirstRead kind n s :=
  attempt_get_none rfl (retryReset_ne_zero _)

section
variable {kind : Kind} {n : Word} {s : State} {b : List Byte}

theorem exec_getPacket (hrest : s.inProgress = false) (hn : n.toNat ≤ 2 ^ 32 - 5) :
    exec (.getPacket kind n none) s = runOn (atFirstRead kind n s) := by
  have hbad : isBadOp s.params.role (.getPacket kind n none) = false := by
    simp [isBadOp, roleAccepts, lengthRepresentable]; omega
  rw [← getPacket_atFirstRead]
  unfold exec execGetPacket
  exact gate_run hbad hrest rfl

/-- With one arrival listed that fills the request, the front of the stream is validated. -/
theorem runOn_atFirstRead (hlink : s.link = [.arrive b]) (hlen : n.toNat + 4 ≤ (s.rx ++ b).length) :
    runOn (atFirstRead kind n s) =
      runOnFrom (onFrame kind ((s.rx ++ b).take (n.toNat + 4))
        (atFirstRead kind n { s with link := [], rx := (s.rx ++ b).drop (n.toNat + 4) })) := by
  have hread : (atFirstRead kind n s).waiting = .read (n.toNat + 4) := rfl
  rw [runOn_read hread hlink]
  exact congrArg runOnFrom (onArrive_enough (s := { atFirstRead kind n s with link := [] }) rfl hlen)

/-- A frame that validates ends the operation. -/
theorem runOnFrom_valid {frame payload : List Byte} (h : decodePacket s.params kind frame = .ok payload) :
    runOnFrom (onFrame kind frame (atFirstRead kind n s)) =
      .next (finish .ok (.bytes payload) (atFirstRead kind n s)) := by
  rw [onFrame_ok (by exact h), getSucceeded_getPacket payload rfl]
  exact runOn_nobody rfl

/-- Of a frame that does not validate its failure remains, and with nothing more listed the next `TRead` waits. -/
theorem runOnFrom_invalid {frame : List Byte} {f : Status} (hlink : s.link = [])
    (h : decodePacket s.params kind frame = .error f) :
    runOnFrom (onFrame kind frame (atFirstRead kind n s)) =
      .next (issue { atFirstRead kind n s with exch := .get kind n none f }) := by
  rw [onFrame_error (by exact h), setLast_get rfl, runOnFrom_next,
    attempt_get_none rfl (by exact retryReset_pred_ne_zero _)]
  exact runOn_read_nil rfl hlink

end

/-! ### Running on takes the answer that is awaited -/

theorem waiting_write_put {s : State} (h : s.waiting = .write) : ∃ long, s.exch = .put long := by
  unfold State.waiting at h
  split at h
  · next long hx => exact ⟨long, hx⟩
  · cases h
  · cases h
  · cases h
  · split at h <;> cases h

theorem waiting_handler_job {s : State} (h : s.waiting = .handler) : ∃ hd, s.job = .handler hd ∨ s.job = .deferred hd := by
  unfold State.waiting at h
  split at h
  · cases h
  · cases h
  · cases h
  · cases h
  · split at h
    · cases h
    · cases h
    · next hd hj => exact ⟨hd, Or.inl hj⟩
    · next hd hj => exact ⟨hd, Or.inr hj⟩
    · cases h

/-- As `runFor_has`, with an answer taken only where the operation waits for it. -/
theorem runFor_has_awaited {P : State → Prop}
    (hc : ∀ s d rest, s.waiting = .clock → P s → P (onClock d { s with clock := rest }))
    (hw : ∀ s a rest, s.waiting = .write → P s → P (onWrite a { s with writes := rest }))
    (hl : ∀ s n e rest, s.waiting = .read n → P s → NextHas P (onLink e { s with link := rest }))
    (hh : ∀ s r rest, s.waiting = .handler → P s → NextHas P (onHandler r { s with handlers := rest }))
    (fuel : Nat) {s : State} (h : P s) : NextHas P (runFor fuel s) := by
  induction fuel generalizing s with
  | zero => exact nextHas_next h
  | succ fuel ih =>
    unfold runFor
    split
    · exact nextHas_next h
    · next hwaiting =>
      split
      · exact nextHas_next h
      · exact ih (hc _ _ _ hwaiting h)
    · next hwaiting =>
      split
      · exact nextHas_next h
      · exact ih (hw _ _ _ hwaiting h)
    · next hwaiting =>
      split
      · exact nextHas_next h
      · split
        · next t ht => exact ih (hl _ _ _ _ hwaiting h t ht)
        · exact nextHas_fault
        · exact nextHas_refused
    · next hwaiting =>
      split
      · exact nextHas_next h
      · split
        · next t ht => exact ih (hh _ _ _ hwaiting h t ht)
        · exact nextHas_fault
        · exact nextHas_refused

/-! ### CALL writes, then reads (R75 (c), R197)

Whatever answers come, a CALL is sending its command in Idle, or waiting for the result in AwaitingResult, or over. -/

/-- What was issued since `before` is writes made in Idle. -/
def WritesInIdle (before : List PortCall) (s : State) : Prop :=
  ∃ writes, transportCalls s = before ++ writes ∧ ∀ c ∈ writes, isWrite c = true ∧ c.state = .idle

/-- What was issued since `before` is writes made in Idle and then reads made in AwaitingResult. -/
def WritesThenReads (before : List PortCall) (s : State) : Prop :=
  ∃ writes reads, transportCalls s = before ++ writes ++ reads ∧
    (∀ c ∈ writes, isWrite c = true ∧ c.state = .idle) ∧ ∀ c ∈ reads, isRead c = true ∧ c.state = .awaitingResult

theorem WritesInIdle.thenReads {before : List PortCall} {s : State} (h : WritesInIdle before s) :
    WritesThenReads before s := by
  obtain ⟨writes, hcalls, hwrites⟩ := h
  exact ⟨writes, [], by rw [hcalls, List.append_nil], hwrites, by simp⟩

theorem transportCalls_record (p : Prim) (s : State) :
    transportCalls (record p s) = transportCalls s ++ [⟨s.state, s.phase, p⟩].filter isTransport :=
  List.filter_append ..

/-- A reading of the time source is no transport operation. -/
theorem transportCalls_tick (d : Word) (s : State) : transportCalls (tick d s) = transportCalls s := by
  rw [tick, transportCalls_record]
  exact List.append_nil _

theorem issue_writesInIdle {before : List PortCall} {s : State} {long : Option Word} (hx : s.exch = .put long)
    (hs : s.state = .idle) (h : WritesInIdle before s) : WritesInIdle before (issue s) := by
  obtain ⟨writes, hcalls, hwrites⟩ := h
  refine ⟨writes ++ [⟨s.state, s.phase, attemptPrim s⟩], ?_, ?_⟩
  · rw [issue, transportCalls_record, ← List.append_assoc, ← hcalls]
    simp [attemptPrim, hx, isTransport, transportCalls]
  · simpa [or_imp, forall_and, attemptPrim, hx, isWrite, hs] using hwrites

theorem issue_thenReads {before : List PortCall} {s : State} {kind : Kind} {n : Word} {long : Option Word} {last : Status}
    (hx : s.exch = .get kind n long last) (hs : s.state = .awaitingResult) (h : WritesThenReads before s) :
    WritesThenReads before (issue s) := by
  obtain ⟨writes, reads, hcalls, hwrites, hreads⟩ := h
  refine ⟨writes, reads ++ [⟨s.state, s.phase, attemptPrim s⟩], ?_, hwrites, ?_⟩
  · rw [issue, transportCalls_record, ← List.append_assoc, ← hcalls]
    simp [attemptPrim, hx, isTransport, transportCalls]
  · simpa [or_imp, forall_and, attemptPrim, hx, isRead, isTransport, isWrite, hs] using hreads

/-! ### The stages of a CALL -/

/-- PUT_COMMAND is in progress. -/
def Job.sendsCommand : Job → Prop
  | .commandStart _ _ _ _ | .commandHeader _ _ | .commandData _ => True
  | _ => False

/-- GET_RESULT is in progress. -/
def Job.getsResult : Job → Prop
  | .resultStart _ _ | .resultHeader _ | .resultData => True
  | _ => False

theorem Job.not_getsResult_of_sendsCommand {j : Job} (h : j.sendsCommand) : ¬ j.getsResult := by
  cases j with
  | commandStart | commandHeader | commandData => exact id
  | _ => exact h.elim

/-- Which way the frame of an exchange goes. -/
inductive Direction where
  | none
  | outgoing
  | incoming

/-- The direction of the exchange in progress, if there is one. -/
def Exchange.direction : Exchange → Direction
  | .idle => .none
  | .put _ | .putCheck _ => .outgoing
  | .get _ _ _ _ | .getCheck _ _ _ _ => .incoming

/-- The stage a CALL has reached, with what it issued since `before`. -/
inductive CallStage (before : List PortCall) (s : State) : Prop
  | sending (hs : s.state = .idle) (hj : s.job.sendsCommand) (hx : s.exch.direction ≠ .incoming) (h : WritesInIdle before s)
  | awaiting (hs : s.state = .awaitingResult) (hj : s.job.getsResult) (hx : s.exch.direction ≠ .outgoing)
    (h : WritesThenReads before s)
  | ended (hj : s.job = .idle) (hx : s.exch.direction = .none) (h : WritesThenReads before s)

/-- An attempt is in progress. -/
def Exchange.isAttempt : Exchange → Prop
  | .put _ | .get _ _ _ _ => True
  | _ => False

section
variable {before : List PortCall} {s : State}

theorem CallStage.thenReads (h : CallStage before s) : WritesThenReads before s := by
  cases h with
  | sending _ _ _ h => exact h.thenReads
  | awaiting _ _ _ h => exact h
  | ended _ _ h => exact h

/-- The stage is seen in these fields alone. -/
theorem CallStage.congr {t : State} (h : CallStage before s) (hs : t.state = s.state) (hj : t.job = s.job)
    (hx : t.exch = s.exch) (hc : transportCalls t = transportCalls s) : CallStage before t := by
  cases h with
  | sending h1 h2 h3 h => exact .sending (hs ▸ h1) (hj ▸ h2) (hx ▸ h3) (by rwa [WritesInIdle, hc])
  | awaiting h1 h2 h3 h => exact .awaiting (hs ▸ h1) (hj ▸ h2) (hx ▸ h3) (by rwa [WritesThenReads, hc])
  | ended h2 h3 h => exact .ended (hj ▸ h2) (hx ▸ h3) (by rwa [WritesThenReads, hc])

/-- Of the exchange it is the direction that counts. -/
theorem CallStage.congr_exch {x : Exchange} (h : CallStage before s) (hx : x.direction = s.exch.direction) :
    CallStage before { s with exch := x } := by
  cases h with
  | sending hs hj hne h => exact .sending hs hj (hx ▸ hne) h
  | awaiting hs hj hne h => exact .awaiting hs hj (hx ▸ hne) h
  | ended hj he h => exact .ended hj (hx.trans he) h

theorem finish_stage (st : Status) (r : Result) (h : WritesThenReads before s) : CallStage before (finish st r s) :=
  .ended rfl rfl h

theorem exchangeFailed_stage (f : Status) (h : WritesThenReads before s) : CallStage before (exchangeFailed f s) := by
  rcases exchangeFailed_cases f s with e | e <;> rw [e] <;> exact finish_stage _ _ h

/-- An attempt of a sending exchange is a write in Idle, one of a receiving exchange a read in AwaitingResult. -/
theorem issue_stage (hx : s.exch.isAttempt) (h : CallStage before s) : CallStage before (issue s) := by
  cases he : s.exch with
  | put long =>
    cases h with
    | sending hs hj hne h => exact .sending hs hj hne (issue_writesInIdle he hs h)
    | awaiting _ _ hne _ => rw [he] at hne; exact absurd rfl hne
    | ended _ hnone _ => rw [he] at hnone; cases hnone
  | get kind n long last =>
    cases h with
    | sending _ _ hne _ => rw [he] at hne; exact absurd rfl hne
    | awaiting hs hj hne h => exact .awaiting hs hj hne (issue_thenReads he hs h)
    | ended _ hnone _ => rw [he] at hnone; cases hnone
  | idle | putCheck | getCheck => rw [he] at hx; exact hx.elim

theorem attempt_stage (hx : s.exch.isAttempt) (h : CallStage before s) : CallStage before (attempt s) := by
  rcases attempt_cases s with ⟨-, e⟩ | ⟨-, long, he, e⟩ | ⟨-, kind, n, long, last, he, e⟩ | ⟨-, e⟩ <;> rw [e]
  · exact exchangeFailed_stage _ h.thenReads
  · exact h.congr_exch (by rw [he]; rfl)
  · exact h.congr_exch (by rw [he]; rfl)
  · exact issue_stage hx h

theorem deadlineCheck_stage (long : Word) (hx : s.exch.isAttempt) (h : CallStage before s) :
    CallStage before (deadlineCheck long s) := by
  rcases deadlineCheck_cases long s with ⟨-, e⟩ | ⟨-, e⟩ <;> rw [e]
  · exact exchangeFailed_stage _ h.thenReads
  · exact issue_stage hx h

theorem putPacket_stage (kind : Kind) (payload : List Byte) (long : Option Word) (hs : s.state = .idle)
    (hj : s.job.sendsCommand) (h : WritesInIdle before s) : CallStage before (putPacket kind payload long s) :=
  attempt_stage trivial (.sending hs hj nofun h)

theorem getPacket_stage (kind : Kind) (n : Word) (long : Option Word) (hs : s.state = .awaitingResult)
    (hj : s.job.getsResult) (h : WritesThenReads before s) : CallStage before (getPacket kind n long s) :=
  attempt_stage trivial (.awaiting hs hj nofun h)

theorem sendCommand_stage (rpcId : Word) (data : List Byte) (timeout : Word) (call : Option CallRest) (hs : s.state = .idle)
    (h : WritesInIdle before s) : CallStage before (sendCommand rpcId data timeout call s) :=
  putPacket_stage _ _ _ hs trivial h

theorem awaitResult_stage (cap timeout : Word) (hs : s.state = .awaitingResult) (h : WritesThenReads before s) :
    CallStage before (awaitResult cap timeout s) :=
  getPacket_stage _ _ _ hs trivial h

/-- While PUT_COMMAND is in progress nothing was read. -/
theorem CallStage.of_sendsCommand (h : CallStage before s) (hj : s.job.sendsCommand) :
    s.state = .idle ∧ WritesInIdle before s := by
  cases h with
  | sending hs _ _ h => exact ⟨hs, h⟩
  | awaiting _ hget _ _ => exact absurd hget (Job.not_getsResult_of_sendsCommand hj)
  | ended hidle _ _ => rw [hidle] at hj; exact hj.elim

theorem CallStage.of_getsResult (h : CallStage before s) (hj : s.job.getsResult) : s.state = .awaitingResult := by
  cases h with
  | sending _ hput _ _ => exact absurd hj (Job.not_getsResult_of_sendsCommand hput)
  | awaiting hs _ _ _ => exact hs
  | ended hidle _ _ => rw [hidle] at hj; exact hj.elim

/-- Only PUT_COMMAND sends. -/
theorem CallStage.sendsCommand_of_outgoing (h : CallStage before s) (hx : s.exch.direction = .outgoing) :
    s.job.sendsCommand := by
  cases h with
  | sending _ hj _ _ => exact hj
  | awaiting _ _ hne _ => exact absurd hx hne
  | ended _ hnone _ => rw [hnone] at hx; cases hx

/-- Only GET_RESULT receives. -/
theorem CallStage.getsResult_of_incoming (h : CallStage before s) (hx : s.exch.direction = .incoming) :
    s.job.getsResult := by
  cases h with
  | sending _ _ hne _ => exact absurd hx hne
  | awaiting _ hj _ _ => exact hj
  | ended _ hnone _ => rw [hnone] at hx; cases hx

/-! ### The answers of the other agents -/

theorem tick_stage (d : Word) (h : CallStage before s) : CallStage before (tick d s) :=
  h.congr rfl rfl rfl (transportCalls_tick d s)

theorem sampleT0_stage (d : Word) (h : CallStage before s) : CallStage before (sampleT0 d s) :=
  h.congr rfl rfl rfl (transportCalls_tick d s)

/-- A reading of the time source starts the exchange it was sampled for, or lets a checked attempt be made. -/
theorem onClock_stage (d : Word) (h : CallStage before s) : CallStage before (onClock d s) := by
  have htick := tick_stage d h
  have hsample := sampleT0_stage d h
  unfold onClock
  split
  · next he => exact deadlineCheck_stage _ trivial (htick.congr_exch (by rw [tick_exch, he]; rfl))
  · next he => exact deadlineCheck_stage _ trivial (htick.congr_exch (by rw [tick_exch, he]; rfl))
  · exact h
  · exact h
  · split
    · next hj =>
      obtain ⟨hs, hwrites⟩ := hsample.of_sendsCommand (by rw [sampleT0_job, hj]; trivial)
      exact sendCommand_stage _ _ _ _ hs hwrites
    · next hj =>
      have hs := hsample.of_getsResult (by rw [sampleT0_job, hj]; trivial)
      exact awaitResult_stage _ _ hs hsample.thenReads
    · exact h

/-- The command-header accepted, the command-data is sent; the command-data accepted, CALL turns to AwaitingResult (R196). -/
theorem putSucceeded_stage (hx : s.exch.direction = .outgoing) (h : CallStage before s) : CallStage before (putSucceeded s) := by
  have hjob := h.sendsCommand_of_outgoing hx
  obtain ⟨hs, hwrites⟩ := h.of_sendsCommand hjob
  unfold putSucceeded
  split
  · exact finish_stage _ _ h.thenReads
  · exact putPacket_stage _ _ _ hs trivial hwrites
  · exact finish_stage _ _ h.thenReads
  · exact .awaiting rfl trivial nofun h.thenReads
  · next e => rw [e] at hjob; exact hjob.elim
  · exact finish_stage _ _ h.thenReads
  · next e => rw [e] at hjob; exact hjob.elim
  all_goals exact h

theorem onWrite_stage (a : WriteAnswer) {long : Option Word} (hx : s.exch = .put long) (h : CallStage before s) :
    CallStage before (onWrite a s) := by
  have hsent : CallStage before { s with tx := s.tx ++ sentBytes a s.frame } := h.congr rfl rfl rfl rfl
  simp only [onWrite]
  split
  · exact putSucceeded_stage (by rw [hx]; rfl) hsent
  · exact attempt_stage (by rw [hx]; trivial) hsent

/-- The result-header validated, the result-data is read; the result-data validated, CALL ends. -/
theorem getSucceeded_stage (payload : List Byte) (hx : s.exch.direction = .incoming) (h : CallStage before s) :
    NextHas (CallStage before) (getSucceeded payload s) := by
  have hjob := h.getsResult_of_incoming hx
  have hs := h.of_getsResult hjob
  unfold getSucceeded
  split
  · exact nextHas_next (finish_stage _ _ h.thenReads)
  · refine nextHas_next ?_
    split
    · exact finish_stage _ _ h.thenReads
    · exact getPacket_stage _ _ _ hs trivial h.thenReads
  · exact nextHas_next (finish_stage _ _ h.thenReads)
  · next e => rw [e] at hjob; exact hjob.elim
  · next e => rw [e] at hjob; exact hjob.elim
  all_goals exact nextHas_next h

/-- A failure of an attempt is remembered, and the loop goes round. -/
theorem attempt_setLast_stage (f : Status) {kind : Kind} {n : Word} {long : Option Word} {last : Status}
    (hx : s.exch = .get kind n long last) (h : CallStage before s) : CallStage before (attempt (setLast f s)) := by
  simp only [setLast, hx]
  exact attempt_stage trivial (h.congr_exch (by rw [hx]; rfl))

theorem onFrame_stage (kind : Kind) (frame : List Byte) {k : Kind} {n : Word} {long : Option Word} {last : Status}
    (hx : s.exch = .get k n long last) (h : CallStage before s) : NextHas (CallStage before) (onFrame kind frame s) := by
  unfold onFrame
  split
  · exact getSucceeded_stage _ (by rw [hx]; rfl) (h.congr rfl rfl rfl rfl)
  · exact nextHas_next (attempt_setLast_stage _ hx h)

theorem onLink_stage (e : LinkEvent) (h : CallStage before s) : NextHas (CallStage before) (onLink e s) := by
  have hrx : ∀ rx, CallStage before { s with rx := rx } := fun _ => h.congr rfl rfl rfl rfl
  cases e with
  | arrive bytes =>
    show NextHas _ (onArrive bytes s)
    unfold onArrive
    split
    · next hx =>
      split
      · exact onFrame_stage _ _ hx (hrx _)
      · exact nextHas_next (hrx _)
    · exact nextHas_next (hrx _)
  | expire eaten =>
    refine nextHas_next ?_
    unfold onExpire
    split
    · next hx => exact attempt_setLast_stage _ hx (hrx _)
    · exact h
  | lose count => exact nextHas_next (hrx _)

/-- A CALL invokes no handler. -/
theorem CallStage.waiting_ne_handler (h : CallStage before s) : s.waiting ≠ .handler := by
  intro hw
  obtain ⟨hd, e | e⟩ := waiting_handler_job hw
  all_goals
    cases h with
    | sending _ hj _ _ => rw [e] at hj; exact hj
    | awaiting _ hj _ _ => rw [e] at hj; exact hj
    | ended hj _ _ => rw [e] at hj; cases hj

theorem runOn_stage (h : CallStage before s) : NextHas (CallStage before) (runOn s) := by
  refine runFor_has_awaited (P := CallStage before) ?clock ?write ?link ?handler _ h
  case clock =>
    intro u d rest _ hu
    have taken : CallStage before { u with clock := rest } := hu.congr rfl rfl rfl rfl
    exact onClock_stage d taken
  case write =>
    intro u a rest hw hu
    have taken : CallStage before { u with writes := rest } := hu.congr rfl rfl rfl rfl
    obtain ⟨long, hx⟩ := waiting_write_put hw
    exact onWrite_stage a hx taken
  case link =>
    intro u n e rest _ hu
    have taken : CallStage before { u with link := rest } := hu.congr rfl rfl rfl rfl
    exact onLink_stage e taken
  case handler =>
    intro u r rest hw hu
    exact absurd hw hu.waiting_ne_handler

end

end Sys2Proof.Machine

namespace Sys2Proof.Claims

open Sys2Proof Sys2Proof.Machine

/-- Settles O49: the bytes of a write do not touch each other, and the canonical form lists what differs from an unlisted
byte. -/
theorem memoryReadsBackWhatWasWritten : Obligations.MemoryReadsBackWhatWasWritten :=
  ⟨fun _ _ _ h => ⟨readBytes_writeBytes (Memory.wf_rising h), fun _ => readByte_writeBytes_outside (Memory.wf_rising h)⟩,
   fun _ _ => Memory.ext_of_wf⟩

/-- Settles O56: the parts of a step issue transport operations by `issue` alone, with the short timeout; no other
clause of the invariant is needed. -/
theorem transportIsHandedTheShortTimeout : Obligations.TransportIsHandedTheShortTimeout :=
  fun _ t _ hstep hshort => handedShort_keptByParts.step hshort t hstep

/-- Settles O20: the front of the stream is taken before it is validated, and the outcome decides between the end and a
second attempt. -/
theorem readsTakeTheFrontOfTheStream : Obligations.ReadsTakeTheFrontOfTheStream := by
  intro kind n s b hrest hn hlen hlink
  obtain ⟨hphase, hstate, hjob, hexch⟩ := inProgress_false hrest
  rw [exec_getPacket hrest hn, runOn_atFirstRead hlink hlen]
  refine ⟨fun payload hok => ?_, fun f herr => ?_⟩
  · rw [runOnFrom_valid (by exact hok)]
    simp [finish, atFirstRead, hphase, hstate, hjob, hexch]
  · rw [runOnFrom_invalid rfl (by exact herr)]
    simp [issue, record, attemptPrim, frameLength, frameOverhead, atFirstRead]
    exact retryReset_pred_pred _

/-- Settles O58: the operation starts with nothing issued, in Idle, and every answer keeps the stage it has reached. -/
theorem callWritesBeforeItReads : Obligations.CallWritesBeforeItReads := by
  intro id cap ts tr req s t ⟨hrole, hrest, _⟩ _ hexec
  obtain ⟨hstate, -, hexch⟩ := master_atRest hrole hrest
  have hnone : WritesInIdle (transportCalls s) s := ⟨[], by simp, by simp⟩
  have hstart : CallStage (transportCalls s) (putCommand id req ts (some ⟨cap, tr⟩) { s with respLen := cap }) :=
    .sending hstate trivial (by simp only [putCommand, hexch]; nofun) hnone
  have hall : NextHas (WritesThenReads (transportCalls s)) (execCall id req cap ts tr s) :=
    gate_has hnone.thenReads fun _ _ _ => (runOn_stage hstart).imp fun _ => CallStage.thenReads
  exact hall t hexec

end Sys2Proof.Claims

/-! ## `30_encoding.md`: instructions and their bytes -/

namespace Sys2Proof

/-! ### Requests (R112, R113) -/

@[simp] theorem except_ok_bind {α β : Type} (a : α) (f : α → Except DecodeError β) : (Except.ok a >>= f) = f a := rfl

@[simp] theorem except_pure {α : Type} (a : α) : (pure a : Except DecodeError α) = .ok a := rfl

/-- Each reader takes back one operand and leaves what was written behind it. That a byte sequence or a handler reference reads back
is what well-formedness is for; a number, a `kind` and a `long` always do. -/
theorem decodeRequest_encode {f : Formats} {i : Instr} (rest : List Byte) (hi : i.isRequest = true)
    (hw : i.wellFormed f = true) : decodeRequest f (encode f i ++ rest) = .ok i := by
  cases i with
  | crc16 | encode | decode | putPacket | putCommand | call | putResult =>
    simp [encode, decodeRequest, decodeOperands, takeSeq_seqBytes hw]
  | registerCallback | scheduleCallback =>
    simp [encode, decodeRequest, decodeOperands, takeHandler_operand hw]
  | getPacket | getResult | findCallback => simp [encode, decodeRequest, decodeOperands]
  | getCommand | loop => rfl
  | ch | cd | rh | rd => cases hi

/-! ### Frames (R100 to R107) -/

/-- R10: a marker tells its kind. -/
theorem magic_injective {m : Markers} (hm : m.distinct = true) : Function.Injective (magic m) := by
  have hall : ∀ k : Kind, k ∈ [Kind.ch, .cd, .rh, .rd] := fun k => by cases k <;> simp
  have hnodup : ([Kind.ch, .cd, .rh, .rd].map (magic m)).Nodup := of_decide_eq_true hm
  exact fun k k' h => List.inj_on_of_nodup_map hnodup (hall k) (hall k') h

theorem frameBytes_length (m : Markers) (kind : Kind) (payload : List Byte) (checksum : Half) :
    (frameBytes m kind payload checksum).length = payload.length + 4 := by
  simp [frameBytes]
  omega

/-- A 16-bit number behind other bytes reads as it does at the front. -/
theorem u16le_append (a b : List Byte) : u16le (a ++ b) a.length = u16le b 0 := by
  simp only [u16le]
  rw [List.getD_append_right _ _ _ _ (by omega), List.getD_append_right _ _ _ _ (by omega)]
  simp

theorem u16le_frameBytes_marker (m : Markers) (kind : Kind) (payload : List Byte) (checksum : Half) :
    u16le (frameBytes m kind payload checksum) 0 = magic m kind := by
  rw [frameBytes, List.append_assoc, u16le_le16]

theorem u16le_frameBytes_checksum (m : Markers) (kind : Kind) (payload : List Byte) (checksum : Half) :
    u16le (frameBytes m kind payload checksum) (payload.length + 2) = checksum := by
  have hbody : payload.length + 2 = (le16 (magic m kind) ++ payload).length := by simp; omega
  rw [frameBytes, hbody, u16le_append]
  exact u16le_le16 checksum []

theorem frameBytes_payload (m : Markers) (kind : Kind) (payload : List Byte) (checksum : Half) :
    ((frameBytes m kind payload checksum).drop 2).take payload.length = payload := by
  rw [frameBytes, List.append_assoc, List.drop_left' (le16_length _), List.take_left]

/-- The last two of at least two bytes are the number read there. -/
theorem le16_u16le_end {b : List Byte} (h : 2 ≤ b.length) : le16 (u16le b (b.length - 2)) = b.drop (b.length - 2) := by
  have hlen : (b.drop (b.length - 2)).length = 2 := by simp; omega
  obtain ⟨x, y, hxy⟩ := List.length_eq_two.mp hlen
  have hsplit : u16le b (b.length - 2) = u16le [x, y] 0 := by
    have happ := u16le_append (b.take (b.length - 2)) (b.drop (b.length - 2))
    rwa [List.take_append_drop, List.length_take, Nat.min_eq_left (by omega), hxy] at happ
  rw [hsplit, hxy, le16_u16le]

/-- Bytes long enough for a frame are their marker, their payload and their checksum. -/
theorem wire_parts {b : List Byte} (h : 4 ≤ b.length) :
    le16 (u16le b 0) ++ (b.drop 2).take (b.length - 4) ++ le16 (u16le b (b.length - 2)) = b := by
  rw [le16_u16le_end (by omega)]
  match b, h with
  | x :: y :: rest, h =>
    have hdrop : (x :: y :: rest).drop ((x :: y :: rest).length - 2) = rest.drop (rest.length - 2) := by
      rw [show (x :: y :: rest).length - 2 = (rest.length - 2) + 2 by simp at h ⊢; omega]
      rfl
    rw [le16_u16le, hdrop]
    simp

/-- What a frame of this kind stands for, its marker being known (R103 to R106). -/
def decodeFrame (h : HeaderLayout) (kind : Kind) (payload : List Byte) (checksum : Half) : Except DecodeError Instr :=
  match kind with
  | .ch => decodeCh h payload checksum
  | .cd => .ok (.cd payload checksum)
  | .rh => decodeRh h payload checksum
  | .rd => .ok (.rd payload checksum)

/-- The decoder finds the kind by its marker, the markers being distinct (R10). -/
theorem decodeWire_frameBytes {f : Formats} (hm : f.markers.distinct = true) (kind : Kind) (payload : List Byte)
    (checksum : Half) :
    decodeWire f (frameBytes f.markers kind payload checksum) = decodeFrame f.header kind payload checksum := by
  have hch : magic f.markers kind = f.markers.ch ↔ kind = .ch := (magic_injective hm).eq_iff (b := .ch)
  have hcd : magic f.markers kind = f.markers.cd ↔ kind = .cd := (magic_injective hm).eq_iff (b := .cd)
  have hrh : magic f.markers kind = f.markers.rh ↔ kind = .rh := (magic_injective hm).eq_iff (b := .rh)
  have hrd : magic f.markers kind = f.markers.rd ↔ kind = .rd := (magic_injective hm).eq_iff (b := .rd)
  simp only [decodeWire, frameBytes_length, Nat.add_sub_cancel, frameBytes_payload, u16le_frameBytes_marker,
    u16le_frameBytes_checksum, Nat.reduceSubDiff, if_neg (Nat.not_lt.mpr (Nat.le_add_left 4 payload.length)), hch, hcd, hrh,
    hrd]
  cases kind <;> simp [decodeFrame]

theorem decodeCh_chPayload {h : HeaderLayout} (hw : h.wf = true) (id n : Word) (checksum : Half) :
    decodeCh h (chPayload h id n) checksum = .ok (.ch id n checksum) := by
  simp [decodeCh, chPayload_length hw, chPayload_id hw, chPayload_len hw]

theorem decodeRh_rhPayload {h : HeaderLayout} (hw : h.wf = true) (n : Word) (checksum : Half) :
    decodeRh h (rhPayload h n) checksum = .ok (.rh n checksum) := by
  simp [decodeRh, rhPayload_length hw, rhPayload_len hw]

theorem decodeCh_payload {h : HeaderLayout} {payload : List Byte} {c : Half} {i : Instr} (hd : decodeCh h payload c = .ok i) :
    ∃ id n, i = .ch id n c ∧ chPayload h id n = payload := by
  unfold decodeCh at hd
  split at hd
  · cases hd
  · split at hd
    · cases hd
    · next hfiller => cases hd; exact ⟨_, _, rfl, (not_not.mp hfiller).symm⟩

theorem decodeRh_payload {h : HeaderLayout} {payload : List Byte} {c : Half} {i : Instr} (hd : decodeRh h payload c = .ok i) :
    ∃ n, i = .rh n c ∧ rhPayload h n = payload := by
  unfold decodeRh at hd
  split at hd
  · cases hd
  · split at hd
    · cases hd
    · next hfiller => cases hd; exact ⟨_, rfl, (not_not.mp hfiller).symm⟩

/-- A frame that stands for an instruction is that instruction's encoding. -/
theorem encode_of_decodeFrame {f : Formats} {kind : Kind} {payload : List Byte} {c : Half} {i : Instr}
    (hd : decodeFrame f.header kind payload c = .ok i) : encode f i = frameBytes f.markers kind payload c := by
  cases kind with
  | ch => obtain ⟨id, n, rfl, rfl⟩ := decodeCh_payload hd; rfl
  | rh => obtain ⟨n, rfl, rfl⟩ := decodeRh_payload hd; rfl
  | cd | rd => cases hd; rfl

/-- Bytes that decode are a frame of the kind whose marker they begin with. -/
theorem decodeWire_ok {f : Formats} {b : List Byte} {i : Instr} (hd : decodeWire f b = .ok i) :
    ∃ kind payload c, frameBytes f.markers kind payload c = b ∧ decodeFrame f.header kind payload c = .ok i := by
  unfold decodeWire at hd
  split at hd
  · cases hd
  · next hlen =>
    have hparts := wire_parts (Nat.le_of_not_lt hlen)
    dsimp only at hd
    split at hd
    · next hm => rw [hm] at hparts; exact ⟨.ch, _, _, hparts, hd⟩
    · split at hd
      · next hm => rw [hm] at hparts; exact ⟨.cd, _, _, hparts, hd⟩
      · split at hd
        · next hm => rw [hm] at hparts; exact ⟨.rh, _, _, hparts, hd⟩
        · split at hd
          · next hm => rw [hm] at hparts; exact ⟨.rd, _, _, hparts, hd⟩
          · cases hd

theorem decodeWire_encode {f : Formats} {i : Instr} (hm : f.markers.distinct = true) (hh : f.header.wf = true)
    (hi : i.isRequest = false) : decodeWire f (encode f i) = .ok i := by
  cases i with
  | ch id n c => exact (decodeWire_frameBytes hm .ch _ c).trans (decodeCh_chPayload hh id n c)
  | rh n c => exact (decodeWire_frameBytes hm .rh _ c).trans (decodeRh_rhPayload hh n c)
  | cd data c => exact decodeWire_frameBytes hm .cd data c
  | rd data c => exact decodeWire_frameBytes hm .rd data c
  | crc16 | encode | decode | findCallback | registerCallback | scheduleCallback => cases hi
  | putPacket | getPacket | putCommand | getResult | call | getCommand | putResult | loop => cases hi

end Sys2Proof

namespace Sys2Proof.Claims

open Sys2Proof Sys2Proof.Machine

/-- Settles O7: operand by operand, what was written is read back. -/
theorem requestsDecodeBack : Obligations.RequestsDecodeBack :=
  fun _ _ rest => decodeRequest_encode rest

/-- Settles O8: the marker tells the kind, the layout gives the control values back. -/
theorem framesDecodeBack : Obligations.FramesDecodeBack :=
  fun _ _ => decodeWire_encode

/-- Settles O9: bytes that decode are marker, payload and checksum of one kind, and a header's payload is the one its control
values write. -/
theorem wireBytesAreTheFramesBytes : Obligations.WireBytesAreTheFramesBytes := by
  intro f b i hd
  obtain ⟨kind, payload, c, hbytes, hframe⟩ := decodeWire_ok hd
  exact ⟨decodeWire_frame hd, (encode_of_decodeFrame hframe).trans hbytes⟩

/-- Settles O10: the decoders run on the bytes as written. -/
theorem writtenOutWordsDecode : Obligations.WrittenOutWordsDecode := by
  unfold Obligations.WrittenOutWordsDecode
  refine ⟨?_, ?_, ?_, ?_, ?_, ?_, ?_⟩ <;> decide

end Sys2Proof.Claims

/-! ## `30_encoding.md` R112, R114: the requests of the host port -/

namespace Sys2Proof.Machine

/-! ### Requests the port does not start (R114, R262) -/

theorem gate_refused {i : Instr} {s : State} {run : State → Out} (hbad : isBadOp s.params.role i = true) :
    gate i s run = .next (refuse s) := by
  rw [gate, if_pos hbad]

theorem isBadOp_of_role {r : Role} {i : Instr} (h : roleAccepts r i = false) : isBadOp r i = true := by
  simp [isBadOp, h]

theorem isBadOp_getPacket {r : Role} {kind : Kind} {n : Word} {long : Option Word} (h : 2 ^ 32 - 5 < n.toNat) :
    isBadOp r (.getPacket kind n long) = true := by
  have hn : lengthRepresentable (.getPacket kind n long) = false := decide_eq_false (Nat.not_le.mpr h)
  simp [isBadOp, hn]

/-- A request that the port does not start is refused, whatever the state. -/
theorem exec_refused {i : Instr} {s : State} (hi : i.isRequest = true) (hbad : isBadOp s.params.role i = true) :
    exec i s = .next (refuse s) := by
  rcases exec_request hi s with h | h <;> rw [h, gate_refused hbad]

/-- With no port primitive pending a step fetches the oldest request. -/
theorem step_request {s : State} {r : List Byte} {more : List (List Byte)} (hrest : s.waiting = .nobody)
    (hport : s.hostPort = r :: more) : step s = (fetchRequest r { s with hostPort := more }).out := by
  rw [step_eq_out, fetch_nobody hrest]
  simp only [fetchAtRest, hport]

theorem fetchRequest_ok {r : List Byte} {s : State} {i : Instr} (h : decodeRequest s.params.formats r = .ok i) :
    fetchRequest r s = .run i s := by
  simp only [fetchRequest, h]

/-- R114: an unknown OP and a bad `kind` are refused. -/
theorem fetchRequest_refused {r : List Byte} {s : State} {e : DecodeError} (h : decodeRequest s.params.formats r = .error e)
    (he : e = .unknownOp ∨ e = .badKind) : fetchRequest r s = .done (.next (refuse s)) := by
  rcases he with rfl | rfl <;> simp only [fetchRequest, h]

theorem step_refused {s : State} {r : List Byte} {more : List (List Byte)} {e : DecodeError} (hrest : s.waiting = .nobody)
    (hport : s.hostPort = r :: more) (hdecode : decodeRequest s.params.formats r = .error e)
    (he : e = .unknownOp ∨ e = .badKind) : step s = .next (refuse { s with hostPort := more }) := by
  rw [step_request hrest hport, fetchRequest_refused (by exact hdecode) he, Fetched.out]

end Sys2Proof.Machine

namespace Sys2Proof

@[simp] theorem except_error_bind {α β : Type} (e : DecodeError) (f : α → Except DecodeError β) :
    ((Except.error e : Except DecodeError α) >>= f) = .error e := rfl

/-- R114: no kind has a code above 3. -/
theorem kindOfCode_none {c : Byte} (h : 3 < c.toNat) : kindOfCode c = none := by
  have hne : ∀ k : Byte, k.toNat ≤ 3 → c ≠ k := fun k hk hc => by rw [hc] at h; omega
  simp [kindOfCode, hne]

theorem takeKind_bad {c : Byte} (h : 3 < c.toNat) (rest : List Byte) : takeKind (c :: rest) = .error .badKind := by
  simp [takeKind, kindOfCode_none h]

/-- R114: every row of the table has one of these numbers. -/
theorem decodeRequest_unknownOp {f : Formats} {op : Byte} (operands : List Byte)
    (h : op.toNat ∉ [0x01, 0x02, 0x03, 0x04, 0x05, 0x10, 0x11, 0x12, 0x20, 0x21, 0x22, 0x23, 0x24, 0x25]) :
    decodeRequest f (op :: operands) = .error .unknownOp := by
  simp only [List.mem_cons, List.not_mem_nil, not_or] at h
  unfold decodeRequest decodeOperands
  split <;> simp_all

/-- ENCODE, PUT_PACKET and GET_PACKET begin with their `kind`. -/
theorem decodeRequest_badKind_first {f : Formats} {op kind : Byte} (operands : List Byte)
    (hop : op = 0x02 ∨ op = 0x04 ∨ op = 0x05) (hk : 3 < kind.toNat) :
    decodeRequest f (op :: kind :: operands) = .error .badKind := by
  rcases hop with rfl | rfl | rfl <;> simp [decodeRequest, decodeOperands, takeKind_bad hk]

/-- DECODE has its `kind` behind the frame. -/
theorem decodeRequest_badKind_decode {f : Formats} {frame : List Byte} {kind : Byte} (rest : List Byte)
    (hl : fitsLength frame = true) (hk : 3 < kind.toNat) :
    decodeRequest f (0x03 :: (seqBytes frame ++ kind :: rest)) = .error .badKind := by
  simp [decodeRequest, decodeOperands, takeSeq_seqBytes hl, takeKind_bad hk]

end Sys2Proof

namespace Sys2Proof.Claims

open Sys2Proof Sys2Proof.Machine

/-- Settles O13: the gate refuses what the role or the length rules out, the fetch what no OP or `kind` stands for. -/
theorem illegalRequestsAreRefused : Obligations.IllegalRequestsAreRefused := by
  refine ⟨fun s hs => ?slave, fun s hm => ?master, fun s kind n long hn => ?length, ?op, ?kindFirst, ?kindOfDecode⟩
  case slave =>
    have refused : ∀ i : Instr, i.isRequest = true → roleAccepts .slave i = false → exec i s = .next (refuse s) :=
      fun i hi hr => exec_refused hi (isBadOp_of_role (by rwa [hs]))
    exact ⟨fun _ _ _ => refused _ rfl rfl, fun _ _ => refused _ rfl rfl, fun _ _ _ _ _ => refused _ rfl rfl⟩
  case master =>
    have refused : ∀ i : Instr, i.isRequest = true → roleAccepts .master i = false → exec i s = .next (refuse s) :=
      fun i hi hr => exec_refused hi (isBadOp_of_role (by rwa [hm]))
    exact ⟨refused _ rfl rfl, fun _ => refused _ rfl rfl, fun _ => refused _ rfl rfl, fun _ _ => refused _ rfl rfl,
      fun _ => refused _ rfl rfl, refused _ rfl rfl⟩
  case length => exact exec_refused rfl (isBadOp_getPacket hn)
  case op =>
    intro s op operands more hrest hport hop
    exact step_refused hrest hport (decodeRequest_unknownOp operands hop) (Or.inl rfl)
  case kindFirst =>
    intro s op kind operands more hrest hport hop hk
    exact step_refused hrest hport (decodeRequest_badKind_first operands hop hk) (Or.inr rfl)
  case kindOfDecode =>
    intro s frame kind rest more hrest hl hport hk
    exact step_refused hrest hport (decodeRequest_badKind_decode rest hl hk) (Or.inr rfl)

/-- Settles O11: the oldest request is fetched, and one that decodes is run. -/
theorem stepRunsTheHostsRequest : Obligations.StepRunsTheHostsRequest := by
  intro s r more i hrest hport hdecode
  rw [step_request hrest hport, fetchRequest_ok (by exact hdecode), Fetched.out]

end Sys2Proof.Claims

/-! ## `30_encoding.md` R103 to R107, R111: a frame that arrives at a `TRead` -/

namespace Sys2Proof.Machine

open Sys2Proof.Claims

/-! ### The codec on the frames of one kind (R152) -/

@[simp] theorem encodePacket_length (p : Params) (kind : Kind) (payload : List Byte) :
    (encodePacket p kind payload).length = payload.length + 4 := by
  simp [encodePacket, packetBody]
  omega

/-- A frame long enough for its kind validates against it. -/
theorem decodePacket_encodePacket {p : Params} {kind : Kind} {payload : List Byte} (h : minLen kind ≤ payload.length + 4) :
    decodePacket p kind (encodePacket p kind payload) = .ok payload := by
  have hbody : (encodePacket p kind payload).length - 2 = (packetBody p.markers kind payload).length := by
    simp [packetBody]; omega
  have hmarker : (encodePacket p kind payload).take 2 = le16 (magic p.markers kind) := by
    rw [encodePacket, packetBody, List.append_assoc, List.take_left' (le16_length _)]
  have hfront : (encodePacket p kind payload).take (packetBody p.markers kind payload).length =
      packetBody p.markers kind payload := List.take_left
  have hend : (encodePacket p kind payload).drop (packetBody p.markers kind payload).length =
      le16 (crc16 p.crc (packetBody p.markers kind payload)) := List.drop_left
  rw [decodePacket, if_neg (by simpa using h), if_neg (not_not.mpr hmarker), hbody, hfront, hend, if_neg (not_not.mpr rfl),
    packetBody, List.drop_left' (le16_length _)]

/-- A legal header length is the 32-bit number it is announced as. -/
theorem chPayloadLen_toNat {p : Params} (hw : p.header.wf = true) : (chPayloadLen p).toNat = p.header.chLen := by
  obtain ⟨-, -, -, -, h, -⟩ := HeaderLayout.wf_iff.mp hw
  simp [chPayloadLen]
  omega

theorem rhPayloadLen_toNat {p : Params} (hw : p.header.wf = true) : (rhPayloadLen p).toNat = p.header.rhLen := by
  obtain ⟨-, -, -, -, -, h⟩ := HeaderLayout.wf_iff.mp hw
  simp [rhPayloadLen]
  omega

theorem minLen_chPayload {h : HeaderLayout} (hw : h.wf = true) (id n : Word) :
    minLen .ch ≤ (chPayload h id n).length + 4 := by
  obtain ⟨hid, -⟩ := HeaderLayout.wf_iff.mp hw
  rw [chPayload_length hw, minLen]
  omega

theorem minLen_rhPayload {h : HeaderLayout} (hw : h.wf = true) (n : Word) : minLen .rh ≤ (rhPayload h n).length + 4 := by
  obtain ⟨-, -, -, hlen, -⟩ := HeaderLayout.wf_iff.mp hw
  rw [rhPayload_length hw, minLen]
  omega

theorem minLen_data (kind : Kind) (h : kind = .cd ∨ kind = .rd) (n : Nat) : minLen kind ≤ n + 4 := by
  rcases h with rfl | rfl <;> simp [minLen]

theorem encode_frame_marker {f : Formats} {i : Instr} {k : Kind} (hk : frameKind i = some k) :
    (encode f i).take 2 = le16 (magic f.markers k) := by
  have hfront : ∀ payload c, (frameBytes f.markers k payload c).take 2 = le16 (magic f.markers k) := fun payload c => by
    rw [frameBytes, List.append_assoc, List.take_left' (le16_length _)]
  cases i with
  | ch | cd | rh | rd => cases hk; exact hfront _ _
  | _ => cases hk

/-- R153: a frame of another kind, long enough, fails at its marker. -/
theorem decodePacket_otherKind {p : Params} {i : Instr} {k kind : Kind} (hm : p.markers.distinct = true)
    (hk : frameKind i = some k) (hne : k ≠ kind) (hlen : minLen kind ≤ (encode p.formats i).length) :
    decodePacket p kind (encode p.formats i) = .error .markerMismatch := by
  have hmarker : (encode p.formats i).take 2 ≠ le16 (magic p.markers kind) := fun h =>
    hne (magic_injective hm (le16_injective ((encode_frame_marker hk).symm.trans h)))
  rw [decodePacket, if_neg (Nat.not_lt.mpr hlen), if_pos hmarker]

/-! ### A frame of the awaited length (R68, R73) -/

theorem exec_frame_delivers {i : Instr} (hi : i.isRequest = false) (s : State) :
    exec i s = deliver (encode s.params.formats i) s := by
  cases i with
  | ch | cd | rh | rd => rfl
  | crc16 | encode | decode | findCallback | registerCallback | scheduleCallback => cases hi
  | putPacket | getPacket | putCommand | getResult | call | getCommand | putResult | loop => cases hi

section
variable {s : State} {kind : Kind} {n : Word} {long : Option Word} {last : Status} {b : List Byte}

/-- Taken whole from an empty stream, the frame leaves the stream empty. -/
theorem deliver_awaited (hx : s.exch = .get kind n long last) (hrx : s.rx = []) (hlen : b.length = frameLength n) :
    deliver b s = runOnFrom (onFrame kind b s) := by
  have hempty : { s with rx := [] } = s := by rw [← hrx]
  rw [deliver, onArrive_enough hx (by simp [hrx, hlen]), hrx, List.nil_append, ← hlen, List.take_length, List.drop_length,
    hempty]

/-- A frame of the awaited kind and length with the right checksum is accepted. -/
theorem deliver_accepted {payload : List Byte} (hx : s.exch = .get kind n long last) (hrx : s.rx = [])
    (hn : payload.length = n.toNat) (hmin : minLen kind ≤ payload.length + 4) :
    deliver (encodePacket s.params kind payload) s =
      runOnFrom (getSucceeded payload { s with frame := encodePacket s.params kind payload }) := by
  rw [deliver_awaited hx hrx (by simp [hn, frameLength, frameOverhead]), onFrame_ok (decodePacket_encodePacket hmin)]

/-- One that does not validate leaves its failure to the attempt loop. -/
theorem deliver_rejected {f : Status} (hx : s.exch = .get kind n long last) (hrx : s.rx = [])
    (hlen : b.length = frameLength n) (hf : decodePacket s.params kind b = .error f) :
    deliver b s = runOn (attempt { s with exch := .get kind n long f }) := by
  rw [deliver_awaited hx hrx hlen, onFrame_error hf, setLast_get hx, runOnFrom_next]

end

/-! ### The next attempt (R171, R174) -/

section
variable {s : State} {kind : Kind} {n ms d : Word} {last : Status} {later : List Word}

theorem issue_get {long : Option Word} (hx : s.exch = .get kind n long last) :
    issue s =
      { s with
        retryCnt := s.retryCnt - 1
        calls := s.calls ++ [⟨s.state, s.phase, .tread (n.toNat + 4) s.params.shortTimeoutMs⟩] } := by
  simp only [issue, attemptPrim, hx, record, frameLength, frameOverhead]

/-- With no deadline and an attempt left, the next `TRead` is issued and waits. -/
theorem runOn_attempt_none (hx : s.exch = .get kind n none last) (hleft : s.retryCnt ≠ 0) (hlink : s.link = []) :
    runOn (attempt s) = .next (issue s) := by
  rw [attempt_get_none hx hleft]
  have hread : (issue s).waiting = .read (frameLength n) := by simp [State.waiting, issue, hx]
  exact runOn_read_nil hread hlink

/-- With a deadline the time is asked for first. -/
theorem attempt_get_some (hx : s.exch = .get kind n (some ms) last) (hleft : s.retryCnt ≠ 0) :
    attempt s = { s with exch := .getCheck kind n ms last } := by
  simp only [attempt, if_neg hleft, hx]

/-- The reading listed next decides the check of R171. -/
theorem runOn_attempt_some (hx : s.exch = .get kind n (some ms) last) (hleft : s.retryCnt ≠ 0) (hc : s.clock = d :: later) :
    runOn (attempt s) = runOn (deadlineCheck ms (tick d { s with clock := later })) := by
  rw [attempt_get_some hx hleft, runOn_clock rfl (by exact hc)]
  simp only [onClock, tick, record, ← hx]

theorem runOn_attempt_passed (hx : s.exch = .get kind n (some ms) last) (hleft : s.retryCnt ≠ 0) (hc : s.clock = d :: later)
    (hlink : s.link = []) (hpass : deadlinePassed ms (tick d s) = false) :
    runOn (attempt s) = .next (issue (tick d { s with clock := later })) := by
  rw [runOn_attempt_some hx hleft hc, deadlineCheck, if_neg (by exact Bool.eq_false_iff.mp hpass)]
  have hread : (issue (tick d { s with clock := later })).waiting = .read (frameLength n) := by
    simp [State.waiting, issue, hx]
  exact runOn_read_nil hread hlink

theorem runOn_attempt_late (hx : s.exch = .get kind n (some ms) last) (hleft : s.retryCnt ≠ 0) (hc : s.clock = d :: later)
    (hlate : deadlinePassed ms (tick d s) = true) :
    runOn (attempt s) = runOn (exchangeFailed .timeout (tick d { s with clock := later })) := by
  rw [runOn_attempt_some hx hleft hc, deadlineCheck, if_pos (by exact hlate)]

theorem attempt_exhausted {long : Option Word} (hx : s.exch = .get kind n long last) (hnone : s.retryCnt = 0) :
    attempt s = exchangeFailed last s := by
  simp only [attempt, if_pos hnone, exhausted, hx]

/-- On a master the check of R171 is against `T0` (R31). -/
theorem deadlinePassed_master_false (hrole : s.params.role = .master) (hin : s.now - s.t0 < ms) :
    deadlinePassed ms s = false := by
  rw [deadlinePassed, deadlineBase, hrole]
  exact decide_eq_false (BitVec.not_le.mpr hin)

/-- No LOOP that replies awaits a frame. -/
theorem not_replying_of_receiving {long : Option Word} (hq : sequencerLegal s = true) (hx : s.exch = .get kind n long last) :
    (∀ data inLoop, s.job ≠ .replyHeader data inLoop) ∧ ∀ inLoop, s.job ≠ .replyData inLoop := by
  have hsend : sending s = false := by simp only [sending, hx]
  constructor
  · intro data inLoop hj
    simp [sequencerLegal, hj, hsend] at hq
  · intro inLoop hj
    simp [sequencerLegal, hj, hsend] at hq

end

theorem exchangeFailed_not_replying {f : Status} {s : State} (h : ∀ data inLoop, s.job ≠ .replyHeader data inLoop)
    (h' : ∀ inLoop, s.job ≠ .replyData inLoop) : exchangeFailed f s = finish f .nothing s := by
  unfold exchangeFailed
  split
  · next hj => exact absurd hj (h _ _)
  · next hj => exact absurd hj (h' _)
  · rfl

theorem runOn_finish (st : Status) (r : Result) (s : State) : runOn (finish st r s) = .next (finish st r s) :=
  runOn_nobody rfl

/-! ### What an accepted frame leads to -/

/-- R212: the identifier and the length are taken from the command-header. -/
theorem getSucceeded_recvHeader {s : State} {h : HeaderLayout} {inLoop : Bool} {id n : Word} (hh : s.params.header = h)
    (hw : h.wf = true) (hj : s.job = .recvHeader inLoop) (hn : n.toNat ≤ s.params.bufCap) :
    getSucceeded (chPayload h id n) s =
      .next (getPacket .cd n none { s with phase := .sGetCd, job := .recvData id inLoop }) := by
  simp only [getSucceeded, hj, hh, chPayload_id hw, chPayload_len hw, if_neg (Nat.not_lt.mpr hn)]

/-- R193: so is the length from the result-header. -/
theorem getSucceeded_resultHeader {s : State} {h : HeaderLayout} {cap n : Word} (hh : s.params.header = h)
    (hw : h.wf = true) (hj : s.job = .resultHeader cap) (hn : n ≤ cap) :
    getSucceeded (rhPayload h n) s =
      .next (getPacket .rd n (exchangeLong s) { s with phase := .mGetRd, job := .resultData }) := by
  simp only [getSucceeded, hj, hh, rhPayload_len hw, if_neg (BitVec.not_lt.mpr hn)]

theorem getSucceeded_resultData {s : State} (hj : s.job = .resultData) (payload : List Byte) :
    getSucceeded payload s =
      .next (finish .ok (.data payload (lengthWord payload)) (storeResponse payload (lengthWord payload) s)) := by
  simp only [getSucceeded, hj]

/-- R212: a request that fits is stored, and GET_COMMAND completes. -/
theorem getSucceeded_recvData_alone {s : State} {id : Word} {data : List Byte} (hj : s.job = .recvData id false)
    (hfit : data.length ≤ s.params.bufCap) :
    getSucceeded data s =
      .next (finish .ok (.rpcId id)
        { s with buf := writeBytes s.buf 0 data, bufLen := lengthWord data, curRpcId := id }) := by
  simp [getSucceeded, hj, commandReceived, bufWrite, hfit]

/-- R231: within LOOP it is dispatched. -/
theorem getSucceeded_recvData_inLoop {s : State} {id : Word} {data : List Byte} (hj : s.job = .recvData id true)
    (hfit : data.length ≤ s.params.bufCap) :
    getSucceeded data s =
      .next (dispatch id { s with buf := writeBytes s.buf 0 data, bufLen := lengthWord data, curRpcId := id }) := by
  simp [getSucceeded, hj, commandReceived, bufWrite, hfit]

theorem dispatch_found {s : State} {id : Word} {h : Handler} (hfound : lookup id s = some h) :
    dispatch id s =
      invoke h evCommand s.bufLen
        { s with state := .dispatching, phase := .sHandler, job := .handler h, exch := .idle, frame := [] } := by
  simp only [dispatch, hfound, dispatchFound]

end Sys2Proof.Machine

namespace Sys2Proof.Claims

open Sys2Proof Sys2Proof.Machine

/-- Settles O44: the frame validates, its payload gives back what it announces, and a fresh exchange makes its first attempt. -/
theorem commandHeaderIsAccepted : Obligations.CommandHeaderIsAccepted := by
  intro id n inLoop last s hrole hw hj hx hrx hlink hn
  have hlen := (chPayload_length hw id n).trans (chPayloadLen_toNat hw).symm
  have haccepted : exec (.ch id n (checksumOf s .ch (chPayload s.params.header id n))) s =
      runOnFrom (getSucceeded (chPayload s.params.header id n)
        { s with frame := encodePacket s.params .ch (chPayload s.params.header id n) }) :=
    deliver_accepted hx hrx hlen (minLen_chPayload hw id n)
  rw [haccepted, getSucceeded_recvHeader (by rfl) hw (by exact hj) (by exact hn), runOnFrom_next, getPacket,
    runOn_attempt_none rfl (retryReset_ne_zero _) (by exact hlink), issue_get rfl]
  simp [hrole, retryReset]

/-- Settles O45: the frame validates and its payload is stored; what is left is the end, or the lookup and the invocation. -/
theorem commandDataIsAccepted : Obligations.CommandDataIsAccepted := by
  intro id data last s hrole hx hrx hlink hl hfit
  have haccepted : exec (.cd data (checksumOf s .cd data)) s =
      runOnFrom (getSucceeded data { s with frame := encodePacket s.params .cd data }) :=
    deliver_accepted hx hrx (lengthWord_toNat hl).symm (minLen_data .cd (Or.inl rfl) _)
  refine ⟨fun hj => ?alone, fun h hj hfound hhandlers => ?inLoop⟩
  case alone =>
    rw [haccepted, getSucceeded_recvData_alone (by exact hj) (by exact hfit), runOnFrom_next, runOn_finish]
    simp [finish, hrole, restPhase, restState]
  case inLoop =>
    rw [haccepted, getSucceeded_recvData_inLoop (by exact hj) (by exact hfit), runOnFrom_next,
      dispatch_found (by exact hfound)]
    exact runOn_handler_nil rfl hhandlers

/-- Settles O46: as for the command-header, with the deadline's check before the first attempt. -/
theorem resultHeaderIsAccepted : Obligations.ResultHeaderIsAccepted := by
  intro n cap ms d later last s hrole hw hj hx hrx hlink hn hc hin
  have hlen := (rhPayload_length hw n).trans (rhPayloadLen_toNat hw).symm
  have haccepted : exec (.rh n (checksumOf s .rh (rhPayload s.params.header n))) s =
      runOnFrom (getSucceeded (rhPayload s.params.header n)
        { s with frame := encodePacket s.params .rh (rhPayload s.params.header n) }) :=
    deliver_accepted hx hrx hlen (minLen_rhPayload hw n)
  rw [haccepted, getSucceeded_resultHeader (by rfl) hw (by exact hj) hn, runOnFrom_next, getPacket, exchangeLong, hx,
    runOn_attempt_passed rfl (retryReset_ne_zero _) (by exact hc) (by exact hlink) ?_, issue_get rfl]
  · simp [hrole, retryReset]
  · exact deadlinePassed_master_false hrole hin

/-- Settles O47: the frame validates, its payload is the response, and nothing is awaited any more. -/
theorem resultDataIsAccepted : Obligations.ResultDataIsAccepted := by
  intro data long last s hrole hj hx hrx hl
  have haccepted : exec (.rd data (checksumOf s .rd data)) s =
      runOnFrom (getSucceeded data { s with frame := encodePacket s.params .rd data }) :=
    deliver_accepted hx hrx (lengthWord_toNat hl).symm (minLen_data .rd (Or.inr rfl) _)
  rw [haccepted, getSucceeded_resultData (by exact hj), runOnFrom_next, runOn_finish]
  simp [finish, storeResponse, hrole, restPhase, restState]

/-- Settles O48: the failure goes to the attempt loop, whose head goes one way with no deadline, one with a deadline and one with no
attempt left; a legal state that awaits a frame is in no reply, so a failed exchange ends it plainly. -/
theorem aRejectedFrameCostsOneAttempt : Obligations.ARejectedFrameCostsOneAttempt := by
  intro i kind n long last f s hq hi hx hrx hlink hlen hf
  have hrejected : exec i s = runOn (attempt { s with exch := .get kind n long f }) :=
    (exec_frame_delivers hi s).trans (deliver_rejected hx hrx hlen hf)
  obtain ⟨hheader, hdata⟩ := not_replying_of_receiving hq hx
  refine ⟨?noDeadline, ?deadline, ?exhausted, ?otherKind⟩
  case noDeadline =>
    rintro hleft rfl
    rw [hrejected, runOn_attempt_none rfl (by exact hleft) (by exact hlink), issue_get rfl]
  case deadline =>
    rintro ms d later hleft rfl hc
    refine ⟨fun hpass => ?_, fun hlate => ?_⟩
    · rw [hrejected, runOn_attempt_passed rfl (by exact hleft) (by exact hc) (by exact hlink) (by exact hpass), issue_get rfl]
      simp [tick, record]
    · rw [hrejected, runOn_attempt_late rfl (by exact hleft) (by exact hc) (by exact hlate),
        exchangeFailed_not_replying (by exact hheader) (by exact hdata), runOn_finish]
      rfl
  case exhausted =>
    intro hnone
    rw [hrejected, attempt_exhausted rfl (by exact hnone),
      exchangeFailed_not_replying (by exact hheader) (by exact hdata), runOn_finish]
    simp [finish]
  case otherKind =>
    intro k hk hne hm hmin
    have hother := decodePacket_otherKind hm hk hne (hmin.trans hlen.ge)
    exact Except.error.inj (hf.symm.trans hother)

end Sys2Proof.Claims

/-! ## `40_checksum.md`: the code of a byte sequence, and what a changed byte does to it -/

namespace Sys2Proof.Machine

/-! ### CRC16 as a request (R140) -/

/-- Both roles run CRC16, and its operand needs no length field. -/
theorem isBadOp_crc16 (r : Role) (bytes : List Byte) : isBadOp r (.crc16 bytes) = false := rfl

theorem exec_crc16 {s : State} (bytes : List Byte) (hrest : s.inProgress = false) :
    exec (.crc16 bytes) s = .next (completeInPlace .ok (.code (crc16 s.params.crc bytes)) s) := by
  rw [exec, execCrc16, gate_run (isBadOp_crc16 s.params.role bytes) hrest rfl]

/-! ### The register loses nothing: every step of R140 is injective when the polynomial is odd -/

section
variable {poly : Half} (hodd : poly.getLsbD 0 = true)
include hodd

/-- The bit shifted out of an inner step stays visible: the polynomial brings it in at the bottom. -/
theorem crcShift_bottom (crc : Half) : (crcShift poly crc).getLsbD 0 = crc.getLsbD 15 := by
  unfold crcShift
  split
  · next htop => rw [BitVec.getLsbD_xor, hodd, htop]; simp
  · next htop => rw [Bool.eq_false_iff.mpr htop]; simp

theorem crcShift_injective : Function.Injective (crcShift poly) := by
  intro x y h
  have htop : x.getLsbD 15 = y.getLsbD 15 := by rw [← crcShift_bottom hodd, ← crcShift_bottom hodd, h]
  have hshift : x <<< 1 = y <<< 1 := by
    unfold crcShift at h
    rw [htop] at h
    split at h
    · exact (BitVec.xor_left_inj poly).mp h
    · exact h
  refine BitVec.eq_of_getLsbD_eq fun i hi => ?_
  rcases Nat.lt_succ_iff_lt_or_eq.mp hi with hlow | rfl
  · have hbit := congrArg (·.getLsbD (i + 1)) hshift
    simpa [hi, Nat.succ_lt_succ hlow] using hbit
  · exact htop

theorem crcShift8_injective : Function.Injective (crcShift8 poly) :=
  (crcShift_injective hodd).iterate 8

end

theorem reverse_injective {w : Nat} : Function.Injective (BitVec.reverse (w := w)) :=
  Function.LeftInverse.injective fun _ => BitVec.reverse_reverse_eq

theorem crcInput_injective (c : CrcParams) : Function.Injective (crcInput c) := by
  intro a b h
  unfold crcInput at h
  split at h
  · exact reverse_injective h
  · exact h

theorem crcOutput_injective (c : CrcParams) : Function.Injective (crcOutput c) := by
  intro x y h
  have hreg := (BitVec.xor_left_inj c.xorOut).mp h
  split at hreg
  · exact reverse_injective hreg
  · exact hreg

/-- R143: the byte stands in bits 15 to 8 of the word it enters as. -/
theorem highByte_injective : Function.Injective fun b : Byte => b.setWidth 16 <<< 8 := by
  intro a b h
  refine BitVec.eq_of_getLsbD_eq fun i hi => ?_
  have hbit := congrArg (·.getLsbD (i + 8)) h
  simpa [hi, Nat.add_lt_add_right hi 8, Nat.lt_add_right 8 hi] using hbit

section
variable {c : CrcParams} (hodd : c.poly.getLsbD 0 = true)
include hodd

theorem crcByte_injective_register (b : Byte) : Function.Injective fun crc => crcByte c crc b :=
  fun _ _ h => (BitVec.xor_left_inj _).mp (crcShift8_injective hodd h)

theorem crcByte_injective_byte (crc : Half) : Function.Injective (crcByte c crc) :=
  fun _ _ h => crcInput_injective c (highByte_injective ((BitVec.xor_right_inj crc).mp (crcShift8_injective hodd h)))

/-- Registers that differ still differ after the same bytes. -/
theorem crcFold_injective (bytes : List Byte) : Function.Injective fun crc => crcFold c crc bytes := by
  induction bytes with
  | nil => exact fun _ _ h => h
  | cons b rest ih => exact ih.comp (crcByte_injective_register hodd b)

/-- The changed byte sets the registers apart, and the bytes behind it keep them apart. -/
theorem crcFold_set_ne {bytes : List Byte} {i : Nat} {v : Byte} (crc : Half) (hi : i < bytes.length)
    (hv : bytes[i]? ≠ some v) : crcFold c crc (bytes.set i v) ≠ crcFold c crc bytes := by
  induction bytes generalizing crc i with
  | nil => cases hi
  | cons b rest ih =>
    cases i with
    | zero =>
      intro h
      have hb : v = b := crcByte_injective_byte hodd crc (crcFold_injective hodd rest h)
      exact hv (by simp [hb])
    | succ i => exact ih (crcByte c crc b) (by simpa using hi) (by simpa using hv)

/-- R142, for any odd polynomial and any change of a single byte. -/
theorem crc16_set_ne {bytes : List Byte} {i : Nat} {v : Byte} (hi : i < bytes.length) (hv : bytes[i]? ≠ some v) :
    crc16 c (bytes.set i v) ≠ crc16 c bytes :=
  fun h => crcFold_set_ne hodd c.init hi hv (crcOutput_injective c h)

end

/-! ### The three tests of DECODE, one by one (`41_packet_codec.md` R153) -/

section
variable {p : Params} {kind : Kind} {frame payload : List Byte}

theorem decodePacket_ok (h : decodePacket p kind frame = .ok payload) :
    minLen kind ≤ frame.length ∧ frame.take 2 = le16 (magic p.markers kind) ∧
    frame.drop (frame.length - 2) = le16 (crc16 p.crc (frame.take (frame.length - 2))) := by
  unfold decodePacket at h
  split at h
  · cases h
  · next hlen =>
    split at h
    · cases h
    · next hmarker =>
      split at h
      · cases h
      · next hcode => exact ⟨Nat.le_of_not_lt hlen, not_not.mp hmarker, not_not.mp hcode⟩

theorem decodePacket_markerMismatch (hlen : minLen kind ≤ frame.length)
    (hmarker : frame.take 2 ≠ le16 (magic p.markers kind)) : decodePacket p kind frame = .error .markerMismatch := by
  rw [decodePacket, if_neg (Nat.not_lt.mpr hlen), if_pos hmarker]

theorem decodePacket_checksumMismatch (hlen : minLen kind ≤ frame.length)
    (hmarker : frame.take 2 = le16 (magic p.markers kind))
    (hcode : frame.drop (frame.length - 2) ≠ le16 (crc16 p.crc (frame.take (frame.length - 2)))) :
    decodePacket p kind frame = .error .checksumMismatch := by
  rw [decodePacket, if_neg (Nat.not_lt.mpr hlen), if_neg (not_not.mpr hmarker), if_pos hcode]

theorem four_le_minLen (kind : Kind) : 4 ≤ minLen kind := by cases kind <;> decide

/-! ### An accepted frame with one byte changed (R142, R153) -/

theorem set_ne_self {b : List Byte} {i : Nat} {v : Byte} (hi : i < b.length) (hv : b[i]? ≠ some v) : b.set i v ≠ b :=
  fun h => hv ((congrArg (·[i]?) h).symm.trans (List.getElem?_set_self hi))

variable {i : Nat} {v : Byte}

theorem decodePacket_set_marker (hok : decodePacket p kind frame = .ok payload) (hi : i < 2) (hv : frame[i]? ≠ some v) :
    decodePacket p kind (frame.set i v) = .error .markerMismatch := by
  obtain ⟨hlen, hmarker, -⟩ := decodePacket_ok hok
  have hmin := four_le_minLen kind
  refine decodePacket_markerMismatch (by simpa using hlen) ?_
  rw [List.take_set, ← hmarker]
  exact set_ne_self (by simp; omega) (by rwa [List.getElem?_take_of_lt hi])

/-- Before the last two bytes the code computed changes and the code carried stays; in them it is the other way round. -/
theorem decodePacket_set_behind_marker (hodd : p.crc.poly.getLsbD 0 = true)
    (hok : decodePacket p kind frame = .ok payload) (h2 : 2 ≤ i) (hi : i < frame.length) (hv : frame[i]? ≠ some v) :
    decodePacket p kind (frame.set i v) = .error .checksumMismatch := by
  obtain ⟨hlen, hmarker, hcode⟩ := decodePacket_ok hok
  refine decodePacket_checksumMismatch (by simpa using hlen) (by rwa [List.take_set_of_le h2]) ?_
  rw [List.length_set]
  rcases Nat.lt_or_ge i (frame.length - 2) with hpayload | hchecksum
  · rw [List.drop_set_of_lt hpayload, List.take_set, hcode]
    exact fun h => crc16_set_ne hodd (by simp; omega) (by rwa [List.getElem?_take_of_lt hpayload])
      (le16_injective h).symm
  · rw [List.take_set_of_le hchecksum, ← hcode, List.drop_set, if_neg (Nat.not_lt.mpr hchecksum)]
    exact set_ne_self (by simp; omega) (by rwa [List.getElem?_drop, Nat.add_sub_cancel' hchecksum])

end

end Sys2Proof.Machine

namespace Sys2Proof.Claims

open Sys2Proof Sys2Proof.Machine

theorem xor_bit_ne (b : Byte) {k : Nat} (hk : k < 8) : b ^^^ (1 <<< k) ≠ b := by
  intro h
  have hbit : (b ^^^ BitVec.ofNat 8 (1 <<< k)).getLsbD k = b.getLsbD k := congrArg (·.getLsbD k) h
  rw [BitVec.getLsbD_xor, BitVec.getLsbD_ofNat, Nat.one_shiftLeft, Nat.testBit_two_pow_self, decide_eq_true hk] at hbit
  simp at hbit

/-- Flipping a bit of a byte writes another value there. -/
theorem flipped_byte_ne {b : List Byte} {i k : Nat} (hi : i < b.length) (hk : k < 8) :
    b[i]? ≠ some (b.getD i 0 ^^^ (1 <<< k)) := by
  rw [List.getD_eq_getElem _ _ hi, List.getElem?_eq_getElem hi]
  exact fun h => xor_bit_ne b[i] hk (Option.some.inj h).symm

/-- Settles O3: a flipped bit is a changed byte, and the default polynomial is odd. -/
theorem singleBitFlipsAreDetected : Obligations.SingleBitFlipsAreDetected := by
  refine ⟨fun b i k hi hk => ?code, fun p kind frame payload i k hcrc hok hi hk => ?decode⟩
  case code => exact crc16_set_ne rfl hi (flipped_byte_ne hi hk)
  case decode =>
    have hv := flipped_byte_ne hi hk
    rw [flipBit]
    split
    · next hmarker => exact decodePacket_set_marker hok hmarker hv
    · next hbehind => exact decodePacket_set_behind_marker (by rw [hcrc]; rfl) hok (Nat.le_of_not_lt hbehind) hi hv

/-- Settles O1: nothing stops the request at the gate, and completing in place writes the status and the result only. -/
theorem crc16CompletesWithCode : Obligations.Crc16CompletesWithCode :=
  fun bytes _ hrest => exec_crc16 bytes hrest

/-- Settles O2: the model computes the values on these bytes. -/
theorem crc16ReferenceValues : Obligations.Crc16ReferenceValues := by
  refine ⟨?checkValue, ?empty, ?zeroRegister, ?entry, ?innerSteps, ?singleValues⟩
  case checkValue => decide +kernel
  case empty => rfl
  case zeroRegister => decide +kernel
  case entry => rfl
  case innerSteps => decide +kernel
  case singleValues => decide +kernel

end Sys2Proof.Claims

/-! ## `41_packet_codec.md`: ENCODE, DECODE and the round trip -/

namespace Sys2Proof.Machine

/-! ### The parts of an encoded packet (R150, R151) -/

section
variable (p : Params) (kind : Kind) (payload : List Byte)

theorem packetBody_length (m : Markers) : (packetBody m kind payload).length = 2 + payload.length := by
  rw [packetBody, List.length_append, le16_length]

theorem encodePacket_take_marker : (encodePacket p kind payload).take 2 = le16 (magic p.markers kind) := by
  rw [encodePacket, packetBody, List.append_assoc, List.take_left' (le16_length _)]

theorem encodePacket_take_body :
    (encodePacket p kind payload).take (2 + payload.length) = packetBody p.markers kind payload :=
  List.take_left' (packetBody_length kind payload p.markers)

theorem encodePacket_drop_body :
    (encodePacket p kind payload).drop (2 + payload.length) =
      le16 (crc16 p.crc (packetBody p.markers kind payload)) :=
  List.drop_left' (packetBody_length kind payload p.markers)

/-- What stands in the body behind the marker is the payload. -/
theorem encodePacket_payload : ((encodePacket p kind payload).drop 2).take payload.length = payload := by
  rw [List.take_drop, encodePacket_take_body, packetBody, List.drop_left' (le16_length _)]

end

/-! ### The tests of DECODE that `decodePacket_markerMismatch` and `decodePacket_checksumMismatch` leave out (R153) -/

section
variable {p : Params} {kind : Kind} {frame : List Byte}

theorem decodePacket_truncated (hlen : frame.length < minLen kind) : decodePacket p kind frame = .error .truncated := by
  rw [decodePacket, if_pos hlen]

/-- The bytes between marker and checksum are all but the two first and the two last. -/
theorem decodePacket_accepts (hlen : minLen kind ≤ frame.length)
    (hmarker : frame.take 2 = le16 (magic p.markers kind))
    (hcode : frame.drop (frame.length - 2) = le16 (crc16 p.crc (frame.take (frame.length - 2)))) :
    decodePacket p kind frame = .ok ((frame.drop 2).take (frame.length - 4)) := by
  rw [decodePacket, if_neg (Nat.not_lt.mpr hlen), if_neg (not_not.mpr hmarker), if_neg (not_not.mpr hcode),
    List.drop_take, Nat.sub_sub]

end

theorem minLen_header {kind : Kind} (h : kind = .ch ∨ kind = .rh) : minLen kind = 8 := by
  rcases h with rfl | rfl <;> rfl

/-- R154: markers that are pairwise distinct tell the kinds apart, whatever the payload is. -/
theorem decodePacket_encodePacket_otherKind {p : Params} {kind other : Kind} {payload : List Byte}
    (hm : p.markers.distinct = true) (hne : kind ≠ other) (hlen : minLen other ≤ (encodePacket p kind payload).length) :
    decodePacket p other (encodePacket p kind payload) = .error .markerMismatch := by
  refine decodePacket_markerMismatch hlen fun hmarker => hne ?_
  rw [encodePacket_take_marker] at hmarker
  exact magic_injective hm (le16_injective hmarker)

/-! ### ENCODE and DECODE as requests (R150, R152) -/

section
variable {s : State} {kind : Kind} {frame payload : List Byte} (hrest : s.inProgress = false)
include hrest

/-- Both roles run ENCODE, and its operands need no length field. -/
theorem exec_encode (kind : Kind) (payload : List Byte) :
    exec (.encode kind payload) s =
      .next { s with status := .ok, result := .bytes (encodePacket s.params kind payload) } := by
  rw [exec, execEncode, gate_run rfl hrest rfl, completeInPlace, if_pos rfl]

theorem exec_decode (frame : List Byte) (kind : Kind) :
    exec (.decode frame kind) s = .next (decodeCompletion (decodePacket s.params kind frame) s) := by
  rw [exec, execDecode, gate_run rfl hrest rfl]

theorem exec_decode_ok (h : decodePacket s.params kind frame = .ok payload) :
    exec (.decode frame kind) s = .next { s with status := .ok, result := .bytes payload } := by
  rw [exec_decode hrest, h, decodeCompletion, completeInPlace, if_pos rfl]

theorem exec_decode_error {f : Status} (h : decodePacket s.params kind frame = .error f) :
    exec (.decode frame kind) s = .next { s with status := f, result := .nothing } := by
  rw [exec_decode hrest, h, decodeCompletion, completeInPlace, ite_self]

end

end Sys2Proof.Machine

namespace Sys2Proof.Claims

open Sys2Proof Sys2Proof.Machine

/-- Settles O4: the frame is the encoded packet, whose parts are marker, payload and the checksum of its body. -/
theorem encodeLaysOutTheFrame : Obligations.EncodeLaysOutTheFrame := by
  intro kind payload s hrest
  refine ⟨encodePacket s.params kind payload, exec_encode hrest kind payload, encodePacket_length _ _ _,
    encodePacket_take_marker _ _ _, encodePacket_payload _ _ _, ?checksum⟩
  case checksum => rw [encodePacket_take_body, encodePacket_drop_body]

/-- Settles O5: each clause is one outcome of the three tests, and the completion writes `STATUS` and the result only. -/
theorem decodeReportsTheFirstFailure : Obligations.DecodeReportsTheFirstFailure := by
  intro frame kind s hrest
  refine ⟨fun hshort => ?truncated, fun hlen hmarker => ?markerMismatch, fun hlen hmarker hcode => ?checksumMismatch,
    fun hlen hmarker hcode => ?accepted⟩
  case truncated => exact exec_decode_error hrest (decodePacket_truncated hshort)
  case markerMismatch => exact exec_decode_error hrest (decodePacket_markerMismatch hlen hmarker)
  case checksumMismatch => exact exec_decode_error hrest (decodePacket_checksumMismatch hlen hmarker hcode)
  case accepted => exact exec_decode_ok hrest (decodePacket_accepts hlen hmarker hcode)

/-- Settles O6: the four bytes around the payload reach a data kind's minimum length; a header kind's needs four more. -/
theorem encodeThenDecodeReturnsThePayload : Obligations.EncodeThenDecodeReturnsThePayload := by
  intro p payload
  refine ⟨fun kind hk => ?data, fun kind hk hlong => ?header, fun kind hk hshort => ?shortHeader,
    fun _ _ hm hne hlen => ?otherKind⟩
  case data => exact decodePacket_encodePacket (minLen_data kind hk _)
  case header =>
    refine decodePacket_encodePacket ?_
    rw [minLen_header hk]
    omega
  case shortHeader =>
    refine decodePacket_truncated ?_
    rw [encodePacket_length, minLen_header hk]
    omega
  case otherKind => exact decodePacket_encodePacket_otherKind hm hne hlen

end Sys2Proof.Claims

/-! ## `42_timeout_retry.md`: the attempt loop of PUT_PACKET and GET_PACKET run to its end -/

namespace Sys2Proof.Machine

open Sys2Proof.Claims

/-! ### Attempts left (R177) -/

theorem retryCnt_sub_sub (c : BitVec 8) (j k : Nat) :
    c - BitVec.ofNat 8 j - BitVec.ofNat 8 k = c - BitVec.ofNat 8 (j + k) := by
  rw [BitVec.ofNat_add, ← BitVec.sub_sub]

theorem retryCnt_sub_ne_zero {c : BitVec 8} {k : Nat} (h : k < c.toNat) : c - BitVec.ofNat 8 k ≠ 0 := by
  have hc := c.isLt
  intro h0
  have := congrArg BitVec.toNat h0
  simp [BitVec.toNat_sub] at this
  omega

theorem retryCnt_sub_toNat (c : BitVec 8) : c - BitVec.ofNat 8 c.toNat = 0 := by simp

/-! ### PUT_PACKET and GET_PACKET of the host up to the attempt loop -/

/-- PUT_PACKET of the host at the head of its loop (R172). -/
def putStart (kind : Kind) (payload : List Byte) (long : Option Word) (s : State) : State :=
  { s with
    job := .putPacket
    frame := encodePacket s.params kind payload
    retryCnt := retryReset s.params.role
    exch := .put long }

/-- GET_PACKET of the host at the head of its loop (R174). -/
def getStart (kind : Kind) (n : Word) (long : Option Word) (s : State) : State :=
  { s with
    job := .getPacket
    frame := []
    retryCnt := retryReset s.params.role
    exch := .get kind n long .timeout }

theorem exec_putPacket {s : State} (hrest : s.inProgress = false) (kind : Kind) (payload : List Byte) (long : Option Word) :
    exec (.putPacket kind payload long) s = runOn (attempt (putStart kind payload long s)) := by
  rw [exec, execPutPacket, gate_run rfl hrest rfl]
  rfl

theorem exec_getPacket_start {s : State} {n : Word} (hrest : s.inProgress = false) (hn : n.toNat ≤ 2 ^ 32 - 5) (kind : Kind)
    (long : Option Word) : exec (.getPacket kind n long) s = runOn (attempt (getStart kind n long s)) := by
  have hbad : isBadOp s.params.role (.getPacket kind n long) = false := by
    simp [isBadOp, roleAccepts, lengthRepresentable]; omega
  rw [exec, execGetPacket, gate_run hbad hrest rfl]
  rfl

/-- An exchange of the host that fails ends its operation plainly: no reply of a LOOP is in progress. -/
theorem exchangeFailed_host {s : State} (f : Status) (hj : s.job = .putPacket ∨ s.job = .getPacket) :
    exchangeFailed f s = finish f .nothing s := by
  rcases hj with hj | hj <;> exact exchangeFailed_not_replying (by simp [hj]) (by simp [hj])

/-! ### The deadline check before an attempt (R171) -/

theorem Exchange.isAttempt_cases {x : Exchange} (h : x.isAttempt) :
    (∃ long, x = .put long) ∨ ∃ kind n long last, x = .get kind n long last := by
  cases x with
  | put long => exact Or.inl ⟨long, rfl⟩
  | get kind n long last => exact Or.inr ⟨kind, n, long, last, rfl⟩
  | idle | putCheck | getCheck => exact h.elim

section
variable {s : State} {ms d : Word} {later : List Word}

theorem attempt_put_some (hx : s.exch = .put (some ms)) (hleft : s.retryCnt ≠ 0) :
    attempt s = { s with exch := .putCheck ms } := by
  simp only [attempt, if_neg hleft, hx]

/-- Either exchange with a deadline asks for the time, and the reading listed next decides the check. -/
theorem runOn_attempt_deadline (hx : s.exch.isAttempt) (hlong : exchangeLong s = some ms) (hleft : s.retryCnt ≠ 0)
    (hc : s.clock = d :: later) :
    runOn (attempt s) = runOn (deadlineCheck ms (tick d { s with clock := later })) := by
  rcases Exchange.isAttempt_cases hx with ⟨long, he⟩ | ⟨kind, n, long, last, he⟩ <;>
    obtain rfl : long = some ms := by simpa only [exchangeLong, he] using hlong
  · rw [attempt_put_some he hleft, runOn_clock rfl (by exact hc)]
    simp only [onClock, tick, record, ← he]
  · exact runOn_attempt_some he hleft hc

theorem deadlineCheck_late (h : deadlinePassed ms s = true) : deadlineCheck ms s = exchangeFailed .timeout s := by
  rw [deadlineCheck, if_pos h]

theorem deadlineCheck_within (h : deadlinePassed ms s = false) : deadlineCheck ms s = issue s := by
  rw [deadlineCheck, h, if_neg Bool.false_ne_true]

/-- With `long = 0` the check fails, whatever it counts from. -/
theorem deadlinePassed_zero (s : State) : deadlinePassed 0 s = true := by
  exact decide_eq_true (BitVec.le_def.mpr (Nat.zero_le _))

theorem deadlinePassed_master (hrole : s.params.role = .master) (hlate : ms ≤ s.now - s.t0) :
    deadlinePassed ms s = true := by
  rw [deadlinePassed, deadlineBase, hrole]
  exact decide_eq_true hlate

/-- A check that fails ends the host's exchange with `Timeout`. -/
theorem runOn_attempt_host_late (hj : s.job = .putPacket ∨ s.job = .getPacket) (hx : s.exch.isAttempt)
    (hlong : exchangeLong s = some ms) (hleft : s.retryCnt ≠ 0) (hc : s.clock = d :: later)
    (hlate : deadlinePassed ms (tick d s) = true) :
    runOn (attempt s) = .next (finish .timeout .nothing (tick d { s with clock := later })) := by
  rw [runOn_attempt_deadline hx hlong hleft hc, deadlineCheck_late (by exact hlate), exchangeFailed_host _ (by exact hj),
    runOn_finish]

end

/-! ### The attempts of a PUT_PACKET (R172) -/

section
variable {s : State} {ms d : Word} {a : WriteAnswer} {later : List Word} {rest : List WriteAnswer}

theorem issue_put {long : Option Word} (hx : s.exch = .put long) :
    issue s =
      { s with
        retryCnt := s.retryCnt - 1
        calls := s.calls ++ [⟨s.state, s.phase, .twrite s.frame s.params.shortTimeoutMs⟩] } := by
  simp only [issue, attemptPrim, hx, record]

theorem runOn_issue_put {long : Option Word} (hx : s.exch = .put long) (hw : s.writes = a :: rest) :
    runOn (issue s) = runOn (onWrite a (issue { s with writes := rest })) := by
  have hwaiting : (issue s).waiting = .write := by simp [State.waiting, issue, hx]
  rw [runOn_write hwaiting (by exact hw)]
  simp only [issue_put hx, issue_put (s := { s with writes := rest }) hx]

/-- Without a deadline the attempt is made, and the answer listed next is taken. -/
theorem runOn_attempt_write (hx : s.exch = .put none) (hleft : s.retryCnt ≠ 0) (hw : s.writes = a :: rest) :
    runOn (attempt s) = runOn (onWrite a (issue { s with writes := rest })) := by
  have hissues : attempt s = issue s := by simp only [attempt, if_neg hleft, hx]
  rw [hissues, runOn_issue_put hx hw]

/-- With one the attempt is made where the check passes. -/
theorem runOn_attempt_checkedWrite (hx : s.exch = .put (some ms)) (hleft : s.retryCnt ≠ 0) (hc : s.clock = d :: later)
    (hw : s.writes = a :: rest) (hin : deadlinePassed ms (tick d s) = false) :
    runOn (attempt s) = runOn (onWrite a (issue (tick d { s with clock := later, writes := rest }))) := by
  rw [runOn_attempt_deadline (by rw [hx]; trivial) (by rw [exchangeLong, hx]) hleft hc, deadlineCheck_within (by exact hin),
    runOn_issue_put (by exact hx) (by exact hw)]
  rfl

theorem onWrite_refused (ha : a.ok = false) :
    onWrite a s = attempt { s with tx := s.tx ++ s.frame.take a.sent } := by
  simp [onWrite, sentBytes, ha]

/-- A write accepted completes a PUT_PACKET of the host. -/
theorem runOn_onWrite_accepted (ha : a.ok = true) (hj : s.job = .putPacket) :
    runOn (onWrite a s) = .next (finish .ok .nothing { s with tx := s.tx ++ s.frame }) := by
  have hends : onWrite a s = finish .ok .nothing { s with tx := s.tx ++ s.frame } := by
    simp [onWrite, sentBytes, ha, putSucceeded, hj]
  rw [hends, runOn_finish]

/-- Out of attempts, a PUT_PACKET of the host fails with `Timeout`. -/
theorem runOn_attempt_put_exhausted {long : Option Word} (hj : s.job = .putPacket) (hx : s.exch = .put long)
    (hnone : s.retryCnt = 0) : runOn (attempt s) = .next (finish .timeout .nothing s) := by
  have hends : attempt s = exchangeFailed .timeout s := by simp only [attempt, if_pos hnone, exhausted, hx]
  rw [hends, exchangeFailed_host _ (Or.inl hj), runOn_finish]

end

/-- After these refusals of an attempt made with no deadline, `rest` being what is listed behind them. -/
def afterRefusals (refused rest : List WriteAnswer) (s : State) : State :=
  { s with
    writes := rest
    retryCnt := s.retryCnt - BitVec.ofNat 8 refused.length
    tx := s.tx ++ refused.flatMap (fun r => s.frame.take r.sent)
    calls := s.calls ++ List.replicate refused.length ⟨s.state, s.phase, .twrite s.frame s.params.shortTimeoutMs⟩ }

theorem afterRefusals_nil {rest : List WriteAnswer} {s : State} (hw : s.writes = rest) : afterRefusals [] rest s = s := by
  simp [afterRefusals, ← hw]

theorem afterRefusals_cons (a : WriteAnswer) (refused rest more : List WriteAnswer) (s : State) :
    afterRefusals refused rest (afterRefusals [a] more s) = afterRefusals (a :: refused) rest s := by
  simp [afterRefusals, retryCnt_sub_sub, List.replicate_succ, Nat.add_comm]

/-- One refusal costs one attempt, and the loop goes round. -/
theorem runOn_attempt_refused {s : State} {a : WriteAnswer} {rest : List WriteAnswer} (hx : s.exch = .put none)
    (hleft : s.retryCnt ≠ 0) (hw : s.writes = a :: rest) (ha : a.ok = false) :
    runOn (attempt s) = runOn (attempt (afterRefusals [a] rest s)) := by
  rw [runOn_attempt_write hx hleft hw, onWrite_refused ha, issue_put (by exact hx)]
  simp [afterRefusals]

theorem runOn_attempt_refusals {refused rest : List WriteAnswer} {s : State} (hx : s.exch = .put none)
    (hall : ∀ r ∈ refused, r.ok = false) (hle : refused.length ≤ s.retryCnt.toNat) (hw : s.writes = refused ++ rest) :
    runOn (attempt s) = runOn (attempt (afterRefusals refused rest s)) := by
  induction refused generalizing s with
  | nil => rw [afterRefusals_nil (by exact hw)]
  | cons a refused ih =>
    obtain ⟨ha, hall⟩ := List.forall_mem_cons.mp hall
    rw [List.length_cons] at hle
    have hleft : s.retryCnt ≠ 0 := fun h => by simp [h] at hle
    have hless : refused.length ≤ (s.retryCnt - 1).toNat := by
      rw [retryCnt_pred hleft]; omega
    rw [runOn_attempt_refused (rest := refused ++ rest) hx hleft hw ha,
      ih (s := afterRefusals [a] (refused ++ rest) s) hx hall hless rfl, afterRefusals_cons]

/-! ### Attempts within the deadline -/

theorem checkedWrites_congr {s t : State} (hs : t.state = s.state) (hph : t.phase = s.phase)
    (hp : t.params = s.params) (frame : List Byte) (now : Word) (tried : List (Word × WriteAnswer)) :
    checkedWrites t frame now tried = checkedWrites s frame now tried := by
  induction tried generalizing now with
  | nil => rfl
  | cons r tried ih => rw [checkedWrites, checkedWrites, ih, hs, hph, hp]

/-- The last attempt is checked at the time the ones before it have come to. -/
theorem checkedWrites_append (s : State) (frame : List Byte) (now : Word) (tried : List (Word × WriteAnswer))
    (r : Word × WriteAnswer) :
    checkedWrites s frame now (tried ++ [r]) =
      checkedWrites s frame now tried ++
        [⟨s.state, s.phase, .now (timeAfter now tried + r.1)⟩, ⟨s.state, s.phase, .twrite frame s.params.shortTimeoutMs⟩] := by
  induction tried generalizing now with
  | nil => rfl
  | cons q tried ih => simp [checkedWrites, ih, timeAfter]

/-- After these attempts, each checked in time and refused; `later` and `rest` are what is listed behind them. -/
def afterChecked (tried : List (Word × WriteAnswer)) (later : List Word) (rest : List WriteAnswer) (s : State) : State :=
  { s with
    now := timeAfter s.now tried
    clock := later
    draws := s.draws + tried.length
    writes := rest
    retryCnt := s.retryCnt - BitVec.ofNat 8 tried.length
    tx := s.tx ++ tried.flatMap (fun r => s.frame.take r.2.sent)
    calls := s.calls ++ checkedWrites s s.frame s.now tried }

theorem afterChecked_nil {later : List Word} {rest : List WriteAnswer} {s : State} (hc : s.clock = later)
    (hw : s.writes = rest) : afterChecked [] later rest s = s := by
  simp [afterChecked, timeAfter, checkedWrites, ← hc, ← hw]

theorem afterChecked_cons (r : Word × WriteAnswer) (tried : List (Word × WriteAnswer)) (later later' : List Word)
    (rest rest' : List WriteAnswer) (s : State) :
    afterChecked tried later rest (afterChecked [r] later' rest' s) = afterChecked (r :: tried) later rest s := by
  have hcalls := checkedWrites_congr (s := s) (t := afterChecked [r] later' rest' s) rfl rfl rfl
  rw [afterChecked, hcalls]
  simp [afterChecked, timeAfter, checkedWrites, retryCnt_sub_sub, Nat.add_comm]
  omega

section
variable {s : State} {ms : Word}

/-- One attempt made in time and refused, the loop goes round. -/
theorem runOn_attempt_checkedRefusal {r : Word × WriteAnswer} {later : List Word} {rest : List WriteAnswer}
    (hrole : s.params.role = .master) (hx : s.exch = .put (some ms)) (hleft : s.retryCnt ≠ 0) (hc : s.clock = r.1 :: later)
    (hw : s.writes = r.2 :: rest) (ha : r.2.ok = false) (hin : s.now + r.1 - s.t0 < ms) :
    runOn (attempt s) = runOn (attempt (afterChecked [r] later rest s)) := by
  rw [runOn_attempt_checkedWrite hx hleft hc hw (deadlinePassed_master_false hrole hin), onWrite_refused ha,
    issue_put (by exact hx)]
  simp [afterChecked, tick, record, timeAfter, checkedWrites]

theorem runOn_attempt_checkedRefusals {tried : List (Word × WriteAnswer)} {later : List Word} {rest : List WriteAnswer}
    (hrole : s.params.role = .master) (hx : s.exch = .put (some ms)) (hall : ∀ r ∈ tried, r.2.ok = false)
    (hin : withinDeadline s.t0 ms s.now tried) (hle : tried.length ≤ s.retryCnt.toNat)
    (hc : s.clock = tried.map Prod.fst ++ later) (hw : s.writes = tried.map Prod.snd ++ rest) :
    runOn (attempt s) = runOn (attempt (afterChecked tried later rest s)) := by
  induction tried generalizing s with
  | nil => rw [afterChecked_nil (by exact hc) (by exact hw)]
  | cons r tried ih =>
    obtain ⟨ha, hall⟩ := List.forall_mem_cons.mp hall
    obtain ⟨hnow, hin⟩ := hin
    rw [List.length_cons] at hle
    have hleft : s.retryCnt ≠ 0 := fun h => by simp [h] at hle
    have hless : tried.length ≤ (s.retryCnt - 1).toNat := by
      rw [retryCnt_pred hleft]; omega
    rw [runOn_attempt_checkedRefusal (later := tried.map Prod.fst ++ later) (rest := tried.map Prod.snd ++ rest)
        hrole hx hleft hc hw ha hnow,
      ih (s := afterChecked [r] _ _ s) hrole hx hall hin hless rfl rfl, afterChecked_cons]

/-- A master's PUT_PACKET of the host at the head of its loop after these attempts. -/
def afterTried (kind : Kind) (payload : List Byte) (ms : Word) (tried : List (Word × WriteAnswer)) (later : List Word)
    (rest : List WriteAnswer) (s : State) : State :=
  { s with
    job := .putPacket
    exch := .put (some ms)
    frame := frameOf s kind payload
    now := timeAfter s.now tried
    clock := later
    draws := s.draws + tried.length
    writes := rest
    retryCnt := 3 - BitVec.ofNat 8 tried.length
    tx := s.tx ++ tried.flatMap (fun r => (frameOf s kind payload).take r.2.sent)
    calls := s.calls ++ checkedWrites s (frameOf s kind payload) s.now tried }

theorem exec_putPacket_tried {kind : Kind} {payload : List Byte} {tried : List (Word × WriteAnswer)} {later : List Word}
    {rest : List WriteAnswer} (hrest : s.inProgress = false) (hrole : s.params.role = .master)
    (hall : ∀ r ∈ tried, r.2.ok = false) (hin : withinDeadline s.t0 ms s.now tried) (hle : tried.length ≤ 3)
    (hc : s.clock = tried.map Prod.fst ++ later) (hw : s.writes = tried.map Prod.snd ++ rest) :
    exec (.putPacket kind payload (some ms)) s = runOn (attempt (afterTried kind payload ms tried later rest s)) := by
  have hthree : retryReset s.params.role = 3 := by rw [hrole]; rfl
  have hle' : tried.length ≤ (retryReset s.params.role).toNat := by rw [hthree]; exact hle
  have htried : afterChecked tried later rest (putStart kind payload (some ms) s) =
      afterTried kind payload ms tried later rest s := by
    have hcalls := checkedWrites_congr (s := s) (t := putStart kind payload (some ms) s) rfl rfl rfl
    rw [afterChecked, hcalls]
    simp [afterTried, putStart, frameOf, hthree]
  rw [exec_putPacket hrest, ← htried]
  exact runOn_attempt_checkedRefusals (s := putStart kind payload (some ms) s) hrole rfl hall hin hle' hc hw

end

/-! ### The attempts of a GET_PACKET (R174) -/

section
variable {s : State} {kind : Kind} {n : Word} {long : Option Word} {last f : Status} {e : LinkEvent} {rest : List LinkEvent}

theorem runOn_issue_get (hx : s.exch = .get kind n long last) (hl : s.link = e :: rest) :
    runOn (issue s) = runOnFrom (onLink e (issue { s with link := rest })) := by
  have hwaiting : (issue s).waiting = .read (frameLength n) := by simp [State.waiting, issue, hx]
  rw [runOn_read hwaiting (by exact hl), issue_get hx, issue_get (s := { s with link := rest }) hx]

theorem runOn_attempt_read (hx : s.exch = .get kind n none last) (hleft : s.retryCnt ≠ 0) (hl : s.link = e :: rest) :
    runOn (attempt s) = runOnFrom (onLink e (issue { s with link := rest })) := by
  rw [attempt_get_none hx hleft, runOn_issue_get hx hl]

/-- A `TRead` that times out on an empty stream consumes nothing. -/
theorem onExpire_get {k : Nat} (hx : s.exch = .get kind n long last) (hrx : s.rx = []) :
    onExpire k s = attempt { s with exch := .get kind n long .timeout } := by
  have hnothing : { s with rx := s.rx.drop k } = s := by rw [hrx, List.drop_nil, ← hrx]
  have hexpires : onExpire k s = attempt (setLast .timeout { s with rx := s.rx.drop k }) := by
    unfold onExpire; rw [hx]
  rw [hexpires, hnothing, setLast_get hx]

/-- A failed attempt leaves its failure, with the stream empty again, and the loop goes round. -/
theorem runOnFrom_onLink_failed (hx : s.exch = .get kind n long last) (hrx : s.rx = [])
    (h : FailedAttempt s.params kind n e f) :
    runOnFrom (onLink e s) = runOn (attempt { s with exch := .get kind n long f }) := by
  rcases h with ⟨k, rfl, rfl⟩ | ⟨b, rfl, hlen, hf⟩
  · rw [onLink, runOnFrom_next, onExpire_get hx hrx]
  · exact deliver_rejected hx hrx hlen hf

/-- Out of attempts, a GET_PACKET of the host reports the failure of its last attempt (R176). -/
theorem runOn_attempt_get_exhausted (hj : s.job = .getPacket) (hx : s.exch = .get kind n long last) (hnone : s.retryCnt = 0) :
    runOn (attempt s) = .next (finish last .nothing s) := by
  rw [attempt_exhausted hx hnone, exchangeFailed_host _ (Or.inr hj), runOn_finish]

/-- A frame that validates completes a GET_PACKET of the host. -/
theorem runOnFrom_onLink_valid {frame payload : List Byte} (hj : s.job = .getPacket) (hx : s.exch = .get kind n long last)
    (hrx : s.rx = []) (hlen : frame.length = frameLength n) (hok : decodePacket s.params kind frame = .ok payload) :
    runOnFrom (onLink (.arrive frame) s) = .next (finish .ok (.bytes payload) s) := by
  have haccepted : runOnFrom (onLink (.arrive frame) s) = runOnFrom (onFrame kind frame s) := deliver_awaited hx hrx hlen
  rw [haccepted, onFrame_ok hok, getSucceeded_getPacket payload (by exact hj)]
  exact runOn_finish _ _ _

end

/-- After `k` failed attempts made with no deadline, the last failure being `last`; `rest` is what is listed behind them. -/
def afterFailures (kind : Kind) (n : Word) (k : Nat) (last : Status) (rest : List LinkEvent) (s : State) : State :=
  { s with
    link := rest
    exch := .get kind n none last
    retryCnt := s.retryCnt - BitVec.ofNat 8 k
    calls := s.calls ++ List.replicate k ⟨s.state, s.phase, .tread (n.toNat + 4) s.params.shortTimeoutMs⟩ }

section
variable {s : State} {kind : Kind} {n : Word} {last : Status} {rest : List LinkEvent}

theorem afterFailures_zero (hx : s.exch = .get kind n none last) (hl : s.link = rest) :
    afterFailures kind n 0 last rest s = s := by
  simp [afterFailures, ← hx, ← hl]

theorem afterFailures_afterFailures (j k : Nat) (g : Status) (more : List LinkEvent) :
    afterFailures kind n k last rest (afterFailures kind n j g more s) = afterFailures kind n (j + k) last rest s := by
  simp [afterFailures, retryCnt_sub_sub]

theorem runOn_attempt_failure {e : LinkEvent} {f : Status} (hx : s.exch = .get kind n none last) (hrx : s.rx = [])
    (hleft : s.retryCnt ≠ 0) (hl : s.link = e :: rest) (h : FailedAttempt s.params kind n e f) :
    runOn (attempt s) = runOn (attempt (afterFailures kind n 1 f rest s)) := by
  rw [runOn_attempt_read hx hleft hl, runOnFrom_onLink_failed (s := issue { s with link := rest }) hx hrx h]
  simp [afterFailures, issue_get (s := { s with link := rest }) hx]

/-- Failed attempts in a row cost as many attempts; the failure of the last of them stays. -/
theorem runOn_attempt_failures {failed : List LinkEvent} (hx : s.exch = .get kind n none last) (hrx : s.rx = [])
    (hall : ∀ e ∈ failed, ∃ f, FailedAttempt s.params kind n e f) (hle : failed.length ≤ s.retryCnt.toNat)
    (hl : s.link = failed ++ rest) :
    ∃ last', runOn (attempt s) = runOn (attempt (afterFailures kind n failed.length last' rest s)) := by
  induction failed generalizing s last with
  | nil => exact ⟨last, by rw [List.length_nil, afterFailures_zero hx (by exact hl)]⟩
  | cons e failed ih =>
    obtain ⟨⟨f, hf⟩, hall⟩ := List.forall_mem_cons.mp hall
    rw [List.length_cons] at hle
    have hleft : s.retryCnt ≠ 0 := fun h => by simp [h] at hle
    have hless : failed.length ≤ (s.retryCnt - 1).toNat := by
      rw [retryCnt_pred hleft]; omega
    obtain ⟨last', hrest⟩ := ih (s := afterFailures kind n 1 f (failed ++ rest) s) rfl hrx hall hless rfl
    exact ⟨last', by
      rw [runOn_attempt_failure (rest := failed ++ rest) hx hrx hleft hl hf, hrest, afterFailures_afterFailures, List.length_cons,
        Nat.add_comm]⟩

end

end Sys2Proof.Machine

namespace Sys2Proof.Claims

open Sys2Proof Sys2Proof.Machine

/-- Settles O15: the refusals go round the loop one by one; what the next answer is, or that no attempt is left, ends it. -/
theorem putPacketRetriesUntilAccepted : Obligations.PutPacketRetriesUntilAccepted := by
  intro kind payload s refused rest hrest hall
  obtain ⟨hphase, hstate, hjob, hexch⟩ := inProgress_false hrest
  refine ⟨fun a hlt ha hw => ?accepted, fun hlen hw => ?exhausted⟩
  case accepted =>
    have hleft : retryReset s.params.role - BitVec.ofNat 8 refused.length ≠ 0 := retryCnt_sub_ne_zero hlt
    rw [exec_putPacket hrest, runOn_attempt_refusals (by rfl) hall hlt.le (by exact hw),
      runOn_attempt_write (by rfl) hleft (by rfl), runOn_onWrite_accepted ha rfl, issue_put (by rfl)]
    simp [finish, afterRefusals, putStart, frameOf, hphase, hstate, hjob, hexch, retryCnt_sub_sub, List.replicate_succ']
  case exhausted =>
    have hnone : retryReset s.params.role - BitVec.ofNat 8 refused.length = 0 := by rw [hlen, retryCnt_sub_toNat]
    rw [exec_putPacket hrest, runOn_attempt_refusals (by rfl) hall hlen.le (by exact hw),
      runOn_attempt_put_exhausted rfl (by rfl) hnone]
    simp [finish, afterRefusals, putStart, frameOf, hphase, hstate, hjob, hexch, hnone]

/-- Settles O16: the check before the first attempt fails, whatever it counts from. -/
theorem zeroDeadlineMakesNoAttempt : Obligations.ZeroDeadlineMakesNoAttempt := by
  intro kind s d later hrest hc
  obtain ⟨hphase, hstate, hjob, hexch⟩ := inProgress_false hrest
  refine ⟨fun payload => ?put, fun n hn => ?get⟩
  case put =>
    rw [exec_putPacket hrest,
      runOn_attempt_host_late (Or.inl rfl) (by trivial) (by rfl) (retryReset_ne_zero _) (by exact hc) (deadlinePassed_zero _)]
    simp [finish, tick, record, putStart, hphase, hstate, hjob, hexch]
  case get =>
    rw [exec_getPacket_start hrest hn,
      runOn_attempt_host_late (Or.inr rfl) (by trivial) (by rfl) (retryReset_ne_zero _) (by exact hc) (deadlinePassed_zero _)]
    simp [finish, tick, record, getStart, hphase, hstate, hjob, hexch]

/-- Settles O17: the attempts that were in time and refused go round the loop one by one; then the next check, the write it lets
through, or the spent counter ends it. -/
theorem deadlineIsCheckedBeforeEveryAttempt : Obligations.DeadlineIsCheckedBeforeEveryAttempt := by
  intro kind payload ms s tried ⟨hrole, hrest, _⟩ hall hin
  obtain ⟨hphase, hstate, hjob, hexch⟩ := inProgress_false hrest
  have hleft : tried.length < 3 → (3 : BitVec 8) - BitVec.ofNat 8 tried.length ≠ 0 := retryCnt_sub_ne_zero (c := 3)
  refine ⟨fun d later rest hlt hc hw hlate => ?late, fun d later a rest hlt hc hw ha hnext => ?accepted,
    fun later rest hlen hc hw => ?exhausted⟩
  case late =>
    rw [exec_putPacket_tried hrest hrole hall hin hlt.le hc hw,
      runOn_attempt_host_late (Or.inl rfl) (by trivial) (by rfl) (by exact hleft hlt) (by rfl)
        (deadlinePassed_master (by exact hrole) (by exact hlate))]
    simp [finish, tick, record, afterTried, hphase, hstate, hjob, hexch, Nat.add_assoc]
  case accepted =>
    rw [exec_putPacket_tried hrest hrole hall hin hlt.le hc hw,
      runOn_attempt_checkedWrite (by rfl) (by exact hleft hlt) (by rfl) (by rfl)
        (deadlinePassed_master_false (by exact hrole) (by exact hnext)),
      runOn_onWrite_accepted ha rfl, issue_put (by rfl)]
    have hspent : (3 : BitVec 8) - BitVec.ofNat 8 tried.length - 1#8 = 2#8 - BitVec.ofNat 8 tried.length := by
      rw [retryCnt_sub_sub, Nat.add_comm, ← retryCnt_sub_sub]; rfl
    simpa [finish, tick, record, afterTried, hphase, hstate, hjob, hexch, Nat.add_assoc, checkedWrites_append] using hspent
  case exhausted =>
    have hnone : (3 : BitVec 8) - BitVec.ofNat 8 tried.length = 0 := by rw [hlen]; rfl
    rw [exec_putPacket_tried hrest hrole hall hin hlen.le hc hw, runOn_attempt_put_exhausted rfl (by rfl) (by exact hnone)]
    simp [finish, afterTried, hphase, hstate, hjob, hexch, hlen]

/-- Settles O18: the failed attempts go round the loop one by one, and the frame that validates ends it. -/
theorem getPacketRetriesUntilValid : Obligations.GetPacketRetriesUntilValid := by
  intro kind n s failed frame payload rest hrest hn hrx hall hlt hlen hok hl
  obtain ⟨hphase, hstate, hjob, hexch⟩ := inProgress_false hrest
  obtain ⟨last, hfailed⟩ := runOn_attempt_failures (s := getStart kind n none s) rfl hrx hall hlt.le hl
  rw [exec_getPacket_start hrest hn, hfailed, runOn_attempt_read rfl (retryCnt_sub_ne_zero (by exact hlt)) (by rfl),
    runOnFrom_onLink_valid rfl (by rfl) (by exact hrx) hlen (by exact hok), issue_get (by rfl)]
  simp [finish, afterFailures, getStart, hphase, hstate, hjob, hexch, retryCnt_sub_sub, List.replicate_succ']

/-- Settles O19: the last failure is the one the loop is left with; the check of the deadline does not ask for it. -/
theorem getPacketReportsTheLastFailure : Obligations.GetPacketReportsTheLastFailure := by
  refine ⟨fun kind n s failed last f rest hrest hn hrx hall hlast hlen hl => ?exhausted,
    fun kind n ms s e f rest d d' later ⟨hrole, hrest, _⟩ hn hrx hfails hl hc hin hlate => ?deadline⟩
  case exhausted =>
    obtain ⟨hphase, hstate, hjob, hexch⟩ := inProgress_false hrest
    have hlt : failed.length < (retryReset s.params.role).toNat := by omega
    have hnone : retryReset s.params.role - BitVec.ofNat 8 (failed.length + 1) = 0 := by rw [hlen, retryCnt_sub_toNat]
    obtain ⟨last', hfailed⟩ := runOn_attempt_failures (s := getStart kind n none s) rfl hrx hall hlt.le hl
    rw [exec_getPacket_start hrest hn, hfailed,
      runOn_attempt_failure (by rfl) (by exact hrx) (retryCnt_sub_ne_zero (by exact hlt)) (by rfl) (by exact hlast),
      afterFailures_afterFailures, runOn_attempt_get_exhausted rfl (by rfl) (by exact hnone)]
    simp [finish, afterFailures, getStart, hphase, hstate, hjob, hexch, hnone]
  case deadline =>
    obtain ⟨hphase, hstate, hjob, hexch⟩ := inProgress_false hrest
    rw [exec_getPacket_start hrest hn,
      runOn_attempt_deadline (by trivial) (by rfl) (retryReset_ne_zero _) (by exact hc),
      deadlineCheck_within (deadlinePassed_master_false (by exact hrole) (by exact hin)),
      runOn_issue_get (by rfl) (by exact hl),
      runOnFrom_onLink_failed (by rfl) (by exact hrx) (by exact hfails),
      runOn_attempt_host_late (Or.inr rfl) (by trivial) (by rfl) (retryReset_pred_ne_zero _) (by rfl)
        (deadlinePassed_master (by exact hrole) (by exact hlate)), issue_get (by rfl)]
    simp [finish, tick, record, getStart, hphase, hstate, hjob, hexch, hrole, retryReset]

end Sys2Proof.Claims

/-! ## `42_timeout_retry.md` R173, `70_reset_and_hazards.md` R312: how many transport operations an operation can make -/

namespace Sys2Proof.Machine

open Sys2Proof.Claims

/-! ### The exchanges an operation has before it

An exchange makes as many attempts as `RETRY_CNT` counts, and each exchange behind it as many as `RETRY_RESET`. What was issued and what
can still be issued together never grow. -/

/-- CALL receives a result-header and a result-data behind its command. -/
def exchangesOfCall : Option CallRest → Nat
  | none => 0
  | some _ => 2

/-- LOOP sends a result-header and a result-data behind a command. -/
def exchangesOfLoop : Bool → Nat
  | false => 0
  | true => 2

/-- The exchanges that the operation makes at most behind the one in progress. -/
def Job.exchangesLeft : Job → Nat
  | .idle => 0
  | .putPacket => 0
  | .getPacket => 0
  | .commandStart _ _ _ call => 2 + exchangesOfCall call
  | .commandHeader _ call => 1 + exchangesOfCall call
  | .commandData call => exchangesOfCall call
  | .resultStart _ _ => 2
  | .resultHeader _ => 1
  | .resultData => 0
  | .recvHeader inLoop => 1 + exchangesOfLoop inLoop
  | .recvData _ inLoop => exchangesOfLoop inLoop
  | .handler _ => 2
  | .replyHeader _ _ => 1
  | .replyData _ => 0
  | .deferred _ => 0

/-- The attempts left to the exchange in progress. -/
def State.attemptsLeft (s : State) : Nat := if s.exch = .idle then 0 else s.retryCnt.toNat

/-- What was issued and `k` exchanges more are at most `total` transport operations. -/
def RoomFor (total k : Nat) (s : State) : Prop :=
  (transportCalls s).length + (retryReset s.params.role).toNat * k ≤ total

/-- What was issued and all that the operation in progress can still issue are at most `total` transport operations. -/
structure Bounded (total : Nat) (s : State) : Prop where
  spent : (transportCalls s).length + s.attemptsLeft + (retryReset s.params.role).toNat * s.job.exchangesLeft ≤ total
  checked : checking s = true → s.retryCnt ≠ 0

section
variable {total k : Nat} {s : State}

theorem RoomFor.mono {j : Nat} (h : RoomFor total k s) (hjk : j ≤ k) : RoomFor total j s :=
  (Nat.add_le_add_left (Nat.mul_le_mul_left _ hjk) _).trans h

theorem RoomFor.issued (h : RoomFor total k s) : (transportCalls s).length ≤ total := (Nat.le_add_right _ _).trans h

theorem Bounded.room (h : Bounded total s) : RoomFor total s.job.exchangesLeft s := by
  have := h.spent
  unfold RoomFor
  omega

/-- With no exchange in progress the exchanges to come are all there is. -/
theorem bounded_of_idle (hx : s.exch = .idle) (h : RoomFor total s.job.exchangesLeft s) : Bounded total s :=
  ⟨by simpa [RoomFor, State.attemptsLeft, hx] using h, by simp [checking_idle hx]⟩

/-- Of the exchange it counts only whether there is one. -/
theorem Bounded.congr {t : State} (h : Bounded total s) (hc : transportCalls t = transportCalls s) (hp : t.params = s.params)
    (hj : t.job = s.job) (hx : t.exch = .idle ↔ s.exch = .idle) (hr : t.retryCnt = s.retryCnt)
    (hcheck : checking t = true → s.retryCnt ≠ 0) : Bounded total t :=
  ⟨by simpa only [hc, hp, hj, hr, hx, State.attemptsLeft] using h.spent, hr ▸ hcheck⟩

/-- The bound depends on these fields only. -/
theorem Bounded.congr_same {t : State} (h : Bounded total s) (hc : t.calls = s.calls) (hp : t.params = s.params)
    (hj : t.job = s.job) (hx : t.exch = s.exch) (hr : t.retryCnt = s.retryCnt) : Bounded total t :=
  h.congr (by rw [transportCalls, hc]; rfl) hp hj (by rw [hx]) hr (by rw [checking_congr hx]; exact h.checked)

/-! ### Ending an operation, and the attempt loop -/

theorem finish_bounded (st : Status) (r : Result) (h : RoomFor total k s) : Bounded total (finish st r s) :=
  bounded_of_idle rfl (h.mono (Nat.zero_le k))

theorem exchangeFailed_bounded (f : Status) (h : RoomFor total k s) : Bounded total (exchangeFailed f s) := by
  rcases exchangeFailed_cases f s with e | e <;> rw [e]
  · exact finish_bounded _ _ h
  · exact finish_bounded _ _ (s := clearDeferred s) h

theorem issue_transportCalls (s : State) : (transportCalls (issue s)).length = (transportCalls s).length + 1 := by
  have hprim : isTransport ⟨s.state, s.phase, attemptPrim s⟩ = true := by
    unfold attemptPrim
    split <;> rfl
  rw [issue, transportCalls_record, List.length_append, List.filter_cons_of_pos (by exact hprim)]
  rfl

/-- An attempt is spent for the transport operation it issues. -/
theorem issue_bounded (hx : s.exch.isAttempt) (h0 : s.retryCnt ≠ 0) (h : Bounded total s) : Bounded total (issue s) := by
  have hbusy : s.exch ≠ .idle := by intro e; rw [e] at hx; exact hx
  have hcheck : checking (issue s) = false := by
    rcases Exchange.isAttempt_cases hx with ⟨_, e⟩ | ⟨_, _, _, _, e⟩
    · exact checking_put (s := issue s) e
    · exact checking_get (s := issue s) e
  refine ⟨?_, by simp [hcheck]⟩
  have hpos : s.retryCnt.toNat ≠ 0 := fun e => h0 (BitVec.eq_of_toNat_eq e)
  have hleft : (issue s).attemptsLeft = s.retryCnt.toNat - 1 := by
    rw [← retryCnt_pred h0]
    exact if_neg hbusy
  have hspent := h.spent
  rw [State.attemptsLeft, if_neg hbusy] at hspent
  rw [issue_transportCalls, hleft]
  show _ + (retryReset s.params.role).toNat * s.job.exchangesLeft ≤ total
  omega

theorem attempt_bounded (hx : s.exch.isAttempt) (h : Bounded total s) : Bounded total (attempt s) := by
  rcases attempt_cases s with ⟨-, e⟩ | ⟨h0, long, he, e⟩ | ⟨h0, kind, n, long, last, he, e⟩ | ⟨h0, e⟩ <;> rw [e]
  · exact exchangeFailed_bounded _ h.room
  · exact h.congr rfl rfl rfl (by simp [he]) rfl fun _ => h0
  · exact h.congr rfl rfl rfl (by simp [he]) rfl fun _ => h0
  · exact issue_bounded hx h0 h

theorem deadlineCheck_bounded (long : Word) (hx : s.exch.isAttempt) (h0 : s.retryCnt ≠ 0) (h : Bounded total s) :
    Bounded total (deadlineCheck long s) := by
  rcases deadlineCheck_cases long s with ⟨-, e⟩ | ⟨-, e⟩ <;> rw [e]
  · exact exchangeFailed_bounded _ h.room
  · exact issue_bounded hx h0 h

/-- A fresh exchange has `RETRY_RESET` attempts (R177). -/
theorem fresh_bounded (hx : s.exch.isAttempt) (hr : s.retryCnt = retryReset s.params.role)
    (h : RoomFor total (s.job.exchangesLeft + 1) s) : Bounded total (attempt s) := by
  refine attempt_bounded hx ⟨?_, fun _ => hr ▸ retryReset_ne_zero _⟩
  have hleft : s.attemptsLeft ≤ (retryReset s.params.role).toNat := by
    rw [← hr, State.attemptsLeft]
    split <;> omega
  rw [RoomFor, Nat.mul_succ] at h
  omega

theorem putPacket_bounded (kind : Kind) (payload : List Byte) (long : Option Word)
    (h : RoomFor total (s.job.exchangesLeft + 1) s) : Bounded total (putPacket kind payload long s) :=
  fresh_bounded trivial rfl h

theorem getPacket_bounded (kind : Kind) (n : Word) (long : Option Word)
    (h : RoomFor total (s.job.exchangesLeft + 1) s) : Bounded total (getPacket kind n long s) :=
  fresh_bounded trivial rfl h

/-! ### The sequences of exchanges -/

theorem sendCommand_bounded (rpcId : Word) (data : List Byte) (timeout : Word) (call : Option CallRest)
    (h : RoomFor total (2 + exchangesOfCall call) s) : Bounded total (sendCommand rpcId data timeout call s) :=
  putPacket_bounded _ _ _ (h.mono (by simp only [Job.exchangesLeft]; omega))

theorem awaitResult_bounded (cap timeout : Word) (h : RoomFor total 2 s) : Bounded total (awaitResult cap timeout s) :=
  getPacket_bounded _ _ _ h

theorem getCommand_bounded (inLoop : Bool) (h : RoomFor total (2 + exchangesOfLoop inLoop) s) :
    Bounded total (getCommand inLoop s) :=
  getPacket_bounded _ _ _ (h.mono (by simp only [Job.exchangesLeft]; omega))

theorem putResult_bounded (data : List Byte) (inLoop : Bool) (h : RoomFor total 2 s) :
    Bounded total (putResult data inLoop s) :=
  putPacket_bounded _ _ _ h

/-- The invocation of a handler is no transport operation. -/
theorem transportCalls_invoke (hd : Handler) (event n : Word) (s : State) :
    transportCalls (invoke hd event n s) = transportCalls s := by
  rw [invoke, transportCalls_record]
  exact List.append_nil _

theorem afterReply_bounded (h : RoomFor total k s) : Bounded total (afterReply s) := by
  unfold afterReply
  split
  · exact bounded_of_idle rfl (by rw [RoomFor, transportCalls_invoke]; exact h.mono (Nat.zero_le k))
  · exact finish_bounded _ _ (s := clearDeferred s) h

theorem dispatch_bounded (rpcId : Word) (h : RoomFor total 2 s) : Bounded total (dispatch rpcId s) := by
  unfold dispatch dispatchFound
  split
  · exact finish_bounded (k := 2) _ _ h
  · exact bounded_of_idle rfl (by rw [RoomFor, transportCalls_invoke]; exact h)

/-- The next exchange of the operation is one of those that were left. -/
theorem putSucceeded_bounded (h : Bounded total s) : Bounded total (putSucceeded s) := by
  have room := h.room
  unfold putSucceeded
  split <;> rename_i hj <;> rw [hj] at room
  · exact finish_bounded _ _ room
  · exact putPacket_bounded _ _ _ (room.mono (by simp only [Job.exchangesLeft]; omega))
  · exact finish_bounded _ _ room
  · exact bounded_of_idle rfl room
  · exact putPacket_bounded _ _ _ room
  · exact finish_bounded _ _ room
  · exact afterReply_bounded room
  all_goals exact h

theorem commandReceived_bounded (rpcId : Word) (inLoop : Bool) (d : List Byte)
    (h : RoomFor total (exchangesOfLoop inLoop) s) : NextHas (Bounded total) (commandReceived rpcId inLoop d s) := by
  unfold commandReceived
  split
  · exact nextHas_fault
  · next s1 hw =>
    obtain ⟨-, rfl⟩ := bufWrite_some hw
    refine nextHas_next ?_
    cases inLoop with
    | true => exact dispatch_bounded _ h
    | false => exact finish_bounded (k := 0) _ _ h

theorem getSucceeded_bounded (payload : List Byte) (h : Bounded total s) :
    NextHas (Bounded total) (getSucceeded payload s) := by
  have room := h.room
  unfold getSucceeded
  split <;> rename_i hj <;> rw [hj] at room
  · exact nextHas_next (finish_bounded _ _ room)
  · refine nextHas_next ?_
    split
    · exact finish_bounded _ _ room
    · exact getPacket_bounded _ _ _ room
  · exact nextHas_next (finish_bounded (k := 0) _ _ room)
  · refine nextHas_next ?_
    split
    · exact finish_bounded _ _ room
    · exact getPacket_bounded _ _ _ (room.mono (by simp only [Job.exchangesLeft]; omega))
  · exact commandReceived_bounded _ _ _ room
  all_goals exact nextHas_next h

/-! ### The answers of the other agents -/

theorem sampleT0_room (d : Word) (h : RoomFor total k s) : RoomFor total k (sampleT0 d s) := by
  have hcalls : transportCalls (sampleT0 d s) = transportCalls s := transportCalls_tick d s
  rw [RoomFor, hcalls]
  exact h

theorem onClock_bounded (d : Word) (h : Bounded total s) : Bounded total (onClock d s) := by
  have room := h.room
  unfold onClock
  split
  · next long hx =>
    have h0 := h.checked (by simp [checking, hx])
    exact deadlineCheck_bounded _ trivial h0
      (h.congr (transportCalls_tick d s) rfl rfl (by simp [hx]) rfl fun _ => h0)
  · next kind n long last hx =>
    have h0 := h.checked (by simp [checking, hx])
    exact deadlineCheck_bounded _ trivial h0
      (h.congr (transportCalls_tick d s) rfl rfl (by simp [hx]) rfl fun _ => h0)
  · exact h
  · exact h
  · split
    · next hj =>
      rw [hj] at room
      exact sendCommand_bounded _ _ _ _ (sampleT0_room d room)
    · next hj =>
      rw [hj] at room
      exact awaitResult_bounded _ _ (sampleT0_room d room)
    · exact h

theorem onWrite_bounded (a : WriteAnswer) {long : Option Word} (hx : s.exch = .put long) (h : Bounded total s) :
    Bounded total (onWrite a s) := by
  have hsent : Bounded total { s with tx := s.tx ++ sentBytes a s.frame } := h.congr_same rfl rfl rfl rfl rfl
  simp only [onWrite]
  split
  · exact putSucceeded_bounded hsent
  · exact attempt_bounded (by rw [hx]; trivial) hsent

theorem attempt_setLast_bounded (f : Status) {kind : Kind} {n : Word} {long : Option Word} {last : Status}
    (hx : s.exch = .get kind n long last) (h : Bounded total s) : Bounded total (attempt (setLast f s)) := by
  rw [setLast_get hx]
  exact attempt_bounded trivial (h.congr rfl rfl rfl (by simp [hx]) rfl nofun)

theorem onFrame_bounded (kind : Kind) (frame : List Byte) {k : Kind} {n : Word} {long : Option Word} {last : Status}
    (hx : s.exch = .get k n long last) (h : Bounded total s) : NextHas (Bounded total) (onFrame kind frame s) := by
  unfold onFrame
  split
  · exact getSucceeded_bounded _ (h.congr_same rfl rfl rfl rfl rfl)
  · exact nextHas_next (attempt_setLast_bounded _ hx h)

theorem onLink_bounded (e : LinkEvent) (h : Bounded total s) : NextHas (Bounded total) (onLink e s) := by
  have hrx : ∀ rx, Bounded total { s with rx := rx } := fun _ => h.congr_same rfl rfl rfl rfl rfl
  cases e with
  | arrive bytes =>
    show NextHas _ (onArrive bytes s)
    unfold onArrive
    split
    · next hx =>
      split
      · exact onFrame_bounded _ _ hx (hrx _)
      · exact nextHas_next (hrx _)
    · exact nextHas_next (hrx _)
  | expire eaten =>
    refine nextHas_next ?_
    unfold onExpire
    split
    · next hx => exact attempt_setLast_bounded _ hx (hrx _)
    · exact h
  | lose count => exact nextHas_next (hrx _)

theorem registerCallback_bounded (id : Word) (hd : Handler) (h : Bounded total s) :
    Bounded total (registerCallback id hd s) := by
  unfold registerCallback registerEntry
  split <;> exact h.congr_same rfl rfl rfl rfl rfl

/-- A handler's requests are no transport operations. -/
theorem handlerRequest_bounded (r : List Byte) (h : Bounded total s) : NextHas (Bounded total) (handlerRequest r s) := by
  have hrefuse : Bounded total (refuse s) := h.congr_same rfl rfl rfl rfl rfl
  unfold handlerRequest
  split
  · exact nextHas_next hrefuse
  · exact nextHas_next hrefuse
  · exact nextHas_refused
  · refine gate_has hrefuse fun _ _ _ => ?_
    split
    · exact nextHas_next (registerCallback_bounded _ _ h)
    · exact nextHas_next (h.congr_same rfl rfl rfl rfl rfl)
    · exact nextHas_fault

end

theorem handlerRequests_bounded {total : Nat} (rs : List (List Byte)) {s : State} (h : Bounded total s) :
    NextHas (Bounded total) (handlerRequests rs s) := by
  induction rs generalizing s with
  | nil => exact nextHas_next h
  | cons r rs ih =>
    unfold handlerRequests
    split
    · next s1 hr => exact ih (handlerRequest_bounded r h s1 hr)
    · exact nextHas_fault
    · exact nextHas_refused

section
variable {total : Nat} {s : State}

theorem handlerReturned_bounded (code : Word) (h : Bounded total s) :
    NextHas (Bounded total) (handlerReturned code s) := by
  have room := h.room
  unfold handlerReturned
  split
  · next hj =>
    rw [hj] at room
    split
    · exact nextHas_next (finish_bounded (k := 2) _ _ room)
    · split
      · exact nextHas_fault
      · exact nextHas_next (putResult_bounded _ _ room)
  · exact nextHas_next (finish_bounded _ _ room)
  · exact nextHas_next h

theorem onHandler_bounded (r : HandlerRun) (h : Bounded total s) : NextHas (Bounded total) (onHandler r s) := by
  unfold onHandler
  split
  · exact nextHas_fault
  · next requests stores code =>
    split
    · exact nextHas_fault
    · exact nextHas_refused
    · next s1 hs =>
      split
      · exact nextHas_fault
      · next s2 hw =>
        obtain ⟨-, rfl⟩ := bufStores_some hw
        have h1 : Bounded total s1 := handlerRequests_bounded requests h s1 hs
        exact handlerReturned_bounded code (h1.congr_same rfl rfl rfl rfl rfl)

/-- Running on, whatever is answered, keeps the bound. -/
theorem runOn_bounded (h : Bounded total s) : NextHas (Bounded total) (runOn s) := by
  refine runFor_has_awaited (P := Bounded total) ?clock ?write ?link ?handler _ h
  case clock =>
    intro u d rest _ hu
    have taken : Bounded total { u with clock := rest } := hu.congr_same rfl rfl rfl rfl rfl
    exact onClock_bounded d taken
  case write =>
    intro u a rest hw hu
    have taken : Bounded total { u with writes := rest } := hu.congr_same rfl rfl rfl rfl rfl
    obtain ⟨long, hx⟩ := waiting_write_put hw
    exact onWrite_bounded a hx taken
  case link =>
    intro u n e rest _ hu
    have taken : Bounded total { u with link := rest } := hu.congr_same rfl rfl rfl rfl rfl
    exact onLink_bounded e taken
  case handler =>
    intro u r rest _ hu
    have taken : Bounded total { u with handlers := rest } := hu.congr_same rfl rfl rfl rfl rfl
    exact onHandler_bounded r taken

/-! ### Requests -/

/-- The exchanges an accepted request makes at most. -/
def exchangesOf : Instr → Nat
  | .putPacket _ _ _ => 1
  | .getPacket _ _ _ => 1
  | .putCommand _ _ _ => 2
  | .getResult _ _ => 2
  | .call _ _ _ _ _ => 4
  | .getCommand => 2
  | .putResult _ => 2
  | .loop => 4
  | _ => 0

/-- R312 counts `RETRY_RESET` transport operations for each exchange. -/
theorem transportBound_eq {i : Instr} {r : Role} (h : roleAccepts r i = true) :
    transportBound r i = (retryReset r).toNat * exchangesOf i := by
  cases i with
  | putPacket | getPacket => exact (Nat.mul_one _).symm
  | putCommand | getResult | call =>
    have hr : r = .master := of_decide_eq_true h
    subst hr; rfl
  | getCommand | putResult | loop =>
    have hr : r = .slave := of_decide_eq_true h
    subst hr; rfl
  | crc16 | encode | decode | findCallback | registerCallback | scheduleCallback | ch | cd | rh | rd => rfl

/-- An accepted request has room for its exchanges when it begins. -/
theorem begun_bounded {i : Instr} (hrest : s.inProgress = false) (h : RoomFor total (exchangesOf i) s) :
    Bounded total (begun i s) := by
  obtain ⟨-, -, hjob, hexch⟩ := inProgress_false hrest
  have hidle : Bounded total s := bounded_of_idle hexch (h.mono (by rw [hjob]; exact Nat.zero_le _))
  cases i with
  | putPacket kind payload long => exact putPacket_bounded _ _ _ h
  | getPacket kind n long => exact getPacket_bounded _ _ _ h
  | putCommand | call => exact bounded_of_idle hexch h
  | getResult cap timeout => exact bounded_of_idle rfl h
  | getCommand | loop => exact getCommand_bounded _ h
  | putResult data => exact putResult_bounded _ _ h
  | registerCallback rpcId handler => exact registerCallback_bounded _ _ hidle
  | decode frame kind =>
    show Bounded total (decodeCompletion _ s)
    unfold decodeCompletion
    split <;> exact hidle.congr_same rfl rfl rfl rfl rfl
  | findCallback rpcId =>
    show Bounded total (findCompletion _ s)
    unfold findCompletion
    split <;> exact hidle.congr_same rfl rfl rfl rfl rfl
  | crc16 | encode | scheduleCallback => exact hidle.congr_same rfl rfl rfl rfl rfl
  | ch | cd | rh | rd => exact hidle

/-- An accepted request has room for what R312 counts, and running on keeps the bound; a refused one issues nothing. -/
theorem exec_transportCalls_le {i : Instr} (hi : i.isRequest = true) (hrest : s.inProgress = false) :
    NextHas (fun t => (transportCalls t).length ≤ (transportCalls s).length + transportBound s.params.role i) (exec i s) := by
  have hbegun : Accepted i s → Bounded ((transportCalls s).length + transportBound s.params.role i) (begun i s) := fun ha =>
    begun_bounded hrest (by rw [RoomFor, ← transportBound_eq ha.role])
  rcases exec_request hi s with e | e <;> rw [e] <;> refine gate_accepted (Nat.le_add_right _ _) fun ha => ?_
  · exact nextHas_next (hbegun ha).room.issued
  · exact (runOn_bounded (hbegun ha)).imp fun _ hu => hu.room.issued

end

end Sys2Proof.Machine

namespace Sys2Proof.Claims

open Sys2Proof Sys2Proof.Machine

/-- Settles O57: of the invariant nothing is needed but that no operation is in progress. -/
theorem transportOperationsAreBounded : Obligations.TransportOperationsAreBounded :=
  fun _ _ t _ hrest hi hexec => exec_transportCalls_le hi hrest t hexec

end Sys2Proof.Claims

/-! ## `43_master.md`: PUT_COMMAND, GET_RESULT and CALL run to their end -/

namespace Sys2Proof.Machine

open Sys2Proof.Claims

/-! ### The attempts of a master (R171, R172, R174) -/

/-- An exchange of a master's operation that fails ends it plainly. -/
theorem exchangeFailed_master {s : State} (f : Status) (hj : s.job.sendsCommand ∨ s.job.getsResult) :
    exchangeFailed f s = finish f .nothing s := by
  refine exchangeFailed_not_replying (fun data inLoop h => ?_) (fun inLoop h => ?_) <;> rw [h] at hj <;>
    exact hj.elim id id

/-- The `TWrite` accepted: the check, the attempt and the bytes of FRAME on the link. -/
def afterCheckedWrite (d : Word) (later : List Word) (rest : List WriteAnswer) (s : State) : State :=
  { s with
    now := s.now + d
    clock := later
    draws := s.draws + 1
    writes := rest
    retryCnt := s.retryCnt - 1
    tx := s.tx ++ s.frame
    calls := s.calls ++
      [⟨s.state, s.phase, .now (s.now + d)⟩, ⟨s.state, s.phase, .twrite s.frame s.params.shortTimeoutMs⟩] }

/-- The `TRead` of a payload of `n` bytes issued; `more` is what is listed behind its answer. -/
def atCheckedRead (n d : Word) (later : List Word) (more : List LinkEvent) (s : State) : State :=
  { s with
    now := s.now + d
    clock := later
    draws := s.draws + 1
    link := more
    retryCnt := s.retryCnt - 1
    calls := s.calls ++
      [⟨s.state, s.phase, .now (s.now + d)⟩, ⟨s.state, s.phase, .tread (n.toNat + 4) s.params.shortTimeoutMs⟩] }

section
variable {s : State} {ms d : Word} {later : List Word}

/-- Made in time and accepted, an attempt leads to what follows the exchange. -/
theorem runOn_attempt_writeAccepted {a : WriteAnswer} {rest : List WriteAnswer} (hrole : s.params.role = .master)
    (hx : s.exch = .put (some ms)) (hleft : s.retryCnt ≠ 0) (hc : s.clock = d :: later) (hw : s.writes = a :: rest)
    (ha : a.ok = true) (hin : s.now + d - s.t0 < ms) :
    runOn (attempt s) = runOn (putSucceeded (afterCheckedWrite d later rest s)) := by
  have haccepts : ∀ u : State, onWrite a u = putSucceeded { u with tx := u.tx ++ u.frame } := fun u => by
    simp [onWrite, sentBytes, ha]
  rw [runOn_attempt_checkedWrite hx hleft hc hw (deadlinePassed_master_false hrole hin), haccepts, issue_put (by exact hx)]
  simp [afterCheckedWrite, tick, record]

/-- Made in time, it waits for what comes next at the receive side. -/
theorem runOn_attempt_checkedRead {kind : Kind} {n : Word} {last : Status} {e : LinkEvent} {more : List LinkEvent}
    (hrole : s.params.role = .master) (hx : s.exch = .get kind n (some ms) last) (hleft : s.retryCnt ≠ 0)
    (hc : s.clock = d :: later) (hl : s.link = e :: more) (hin : s.now + d - s.t0 < ms) :
    runOn (attempt s) = runOnFrom (onLink e (atCheckedRead n d later more s)) := by
  rw [runOn_attempt_some hx hleft hc, deadlineCheck_within (deadlinePassed_master_false (by exact hrole) (by exact hin)),
    runOn_issue_get (by exact hx) (by exact hl), issue_get (by exact hx)]
  simp [atCheckedRead, tick, record]

/-- A check that fails ends the operation with `Timeout`. -/
theorem runOn_attempt_master_late (hj : s.job.sendsCommand ∨ s.job.getsResult) (hx : s.exch.isAttempt)
    (hlong : exchangeLong s = some ms) (hleft : s.retryCnt ≠ 0) (hc : s.clock = d :: later)
    (hlate : deadlinePassed ms (tick d s) = true) :
    runOn (attempt s) = .next (finish .timeout .nothing (tick d { s with clock := later })) := by
  rw [runOn_attempt_deadline hx hlong hleft hc, deadlineCheck_late (by exact hlate), exchangeFailed_master _ (by exact hj),
    runOn_finish]

/-- Out of attempts to send, so does the loop. -/
theorem runOn_attempt_master_exhausted {long : Option Word} (hj : s.job.sendsCommand) (hx : s.exch = .put long)
    (hnone : s.retryCnt = 0) : runOn (attempt s) = .next (finish .timeout .nothing s) := by
  have hends : attempt s = exchangeFailed .timeout s := by simp only [attempt, if_pos hnone, exhausted, hx]
  rw [hends, exchangeFailed_master _ (Or.inl hj), runOn_finish]

end

theorem finish_not_inProgress (st : Status) (r : Result) (s : State) : (finish st r s).inProgress = false := by
  simp [State.inProgress]

/-- Of the checked attempts the writes are the transport operations. -/
theorem checkedWrites_transport (s : State) (frame : List Byte) (now : Word) (tried : List (Word × WriteAnswer)) :
    (checkedWrites s frame now tried).filter isTransport =
      List.replicate tried.length ⟨s.state, s.phase, .twrite frame s.params.shortTimeoutMs⟩ := by
  induction tried generalizing now with
  | nil => rfl
  | cons r tried ih =>
    rw [checkedWrites, List.filter_cons_of_neg (by exact Bool.false_ne_true), List.filter_cons_of_pos rfl, ih]
    rfl

theorem transportCalls_afterChecked (tried : List (Word × WriteAnswer)) (later : List Word) (rest : List WriteAnswer) (s : State) :
    transportCalls (afterChecked tried later rest s) =
      transportCalls s ++ List.replicate tried.length ⟨s.state, s.phase, .twrite s.frame s.params.shortTimeoutMs⟩ := by
  rw [← checkedWrites_transport s s.frame s.now tried]
  exact List.filter_append ..

/-! ### PUT_COMMAND (R190) -/

/-- PUT_COMMAND with `T0` sampled, at the head of the loop that sends its command-header. -/
def commandHeaderStart (id : Word) (data : List Byte) (timeout : Word) (call : Option CallRest) (s : State) : State :=
  { s with
    phase := .mPutCh
    job := .commandHeader data call
    frame := chFrame s id (lengthWord data)
    retryCnt := retryReset s.params.role
    exch := .put (some timeout) }

/-- Sampling `T0` is no transport operation, so what was issued is the header as often as it was tried. -/
theorem transportCalls_headerTried (id : Word) (data : List Byte) (timeout : Word) (call : Option CallRest) (d : Word)
    (tried : List (Word × WriteAnswer)) (later : List Word) (rest : List WriteAnswer) (s : State) :
    transportCalls (afterChecked tried later rest (commandHeaderStart id data timeout call (sampleT0 d s))) =
      transportCalls s ++
        List.replicate tried.length ⟨s.state, .mPutCh, .twrite (chFrame s id (lengthWord data)) s.params.shortTimeoutMs⟩ := by
  rw [transportCalls_afterChecked]
  exact congrArg (· ++ _) (transportCalls_tick d s)

/-- PUT_COMMAND with both packets accepted, after these three readings of the time source. -/
def commandSent (id : Word) (data : List Byte) (timeout : Word) (call : Option CallRest) (d0 d1 d2 : Word)
    (later : List Word) (rest : List WriteAnswer) (s : State) : State :=
  { s with
    phase := .mPutCd
    job := .commandData call
    exch := .put (some timeout)
    frame := frameOf s .cd data
    retryCnt := 2
    t0 := s.now + d0
    now := s.now + d0 + d1 + d2
    clock := later
    draws := s.draws + 3
    writes := rest
    tx := s.tx ++ chFrame s id (lengthWord data) ++ frameOf s .cd data
    calls := s.calls ++
      [⟨s.state, s.phase, .now (s.now + d0)⟩,
       ⟨s.state, .mPutCh, .now (s.now + d0 + d1)⟩,
       ⟨s.state, .mPutCh, .twrite (chFrame s id (lengthWord data)) s.params.shortTimeoutMs⟩,
       ⟨s.state, .mPutCd, .now (s.now + d0 + d1 + d2)⟩,
       ⟨s.state, .mPutCd, .twrite (frameOf s .cd data) s.params.shortTimeoutMs⟩] }

section
variable {s : State} {id timeout d0 d1 d2 : Word} {data : List Byte} {call : Option CallRest} {later : List Word}

theorem exec_putCommand (hready : Ready .master s) (hfits : fitsLength data = true) :
    exec (.putCommand id data timeout) s = runOn (putCommand id data timeout none s) := by
  obtain ⟨hrole, hrest, -⟩ := hready
  have hgood : isBadOp s.params.role (.putCommand id data timeout) = false := by
    simp [isBadOp, roleAccepts, lengthRepresentable, hrole, hfits]
  rw [exec, execPutCommand, gate_run hgood hrest rfl]

/-- The first reading is `T0`. -/
theorem runOn_putCommand (hx : s.exch = .idle) (hc : s.clock = d0 :: later) :
    runOn (putCommand id data timeout call s) =
      runOn (attempt (commandHeaderStart id data timeout call (sampleT0 d0 { s with clock := later }))) := by
  have hwaiting : (putCommand id data timeout call s).waiting = .clock := by simp only [State.waiting, putCommand, hx]
  rw [runOn_clock hwaiting (by exact hc)]
  simp only [onClock, putCommand, hx]
  rfl

/-- The command-data has the deadline of the command-header. -/
theorem putSucceeded_commandHeader {long : Option Word} (hj : s.job = .commandHeader data call) (hx : s.exch = .put long) :
    putSucceeded s = putPacket .cd data long { s with phase := .mPutCd, job := .commandData call } := by
  simp only [putSucceeded, hj, exchangeLong, hx]

/-- The command-header accepted and then the command-data, both measured from the same `T0`. -/
theorem runOn_putCommand_accepted {a a' : WriteAnswer} {rest : List WriteAnswer} (hrole : s.params.role = .master)
    (hx : s.exch = .idle) (hw : s.writes = a :: a' :: rest) (ha : a.ok = true) (ha' : a'.ok = true)
    (hc : s.clock = d0 :: d1 :: d2 :: later) (h1 : d1 < timeout) (h2 : d1 + d2 < timeout) :
    runOn (putCommand id data timeout call s) =
      runOn (putSucceeded (commandSent id data timeout call d0 d1 d2 later rest s)) := by
  have hheader : s.now + d0 + d1 - (s.now + d0) < timeout := by rwa [add_sub_cancel_left]
  have hdata : s.now + d0 + d1 + d2 - (s.now + d0) < timeout := by rwa [add_assoc (s.now + d0), add_sub_cancel_left]
  rw [runOn_putCommand hx hc,
    runOn_attempt_writeAccepted (by exact hrole) (by rfl) (retryReset_ne_zero _) (by rfl) (by exact hw) ha (by exact hheader),
    putSucceeded_commandHeader (by rfl) (by rfl), putPacket,
    runOn_attempt_writeAccepted (by exact hrole) (by rfl) (retryReset_ne_zero _) (by rfl) (by rfl) ha' (by exact hdata)]
  simp [afterCheckedWrite, commandHeaderStart, commandSent, chFrame, frameOf, hrole, retryReset]

/-- With `timeout = 0` the check before the first attempt fails: PUT_COMMAND ends with no write made. -/
theorem runOn_putCommand_zero (hx : s.exch = .idle) (hc : s.clock = d0 :: d1 :: later) :
    runOn (putCommand id data 0 call s) =
      .next (finish .timeout .nothing
        (tick d1 (commandHeaderStart id data 0 call (sampleT0 d0 { s with clock := later })))) := by
  rw [runOn_putCommand hx hc,
    runOn_attempt_master_late (Or.inl (by trivial)) (by trivial) (by rfl) (retryReset_ne_zero _) (by rfl) (deadlinePassed_zero _)]
  rfl

/-- The command-header refused as often as it may be sent: PUT_COMMAND ends with the attempts made. -/
theorem runOn_putCommand_refused {tried : List (Word × WriteAnswer)} {rest : List WriteAnswer} (hrole : s.params.role = .master)
    (hx : s.exch = .idle) (hall : ∀ r ∈ tried, r.2.ok = false) (hlen : tried.length = 3)
    (hin : withinDeadline (s.now + d0) timeout (s.now + d0) tried) (hc : s.clock = d0 :: (tried.map Prod.fst ++ later))
    (hw : s.writes = tried.map Prod.snd ++ rest) :
    runOn (putCommand id data timeout call s) =
      .next (finish .timeout .nothing
        (afterChecked tried later rest
          (commandHeaderStart id data timeout call (sampleT0 d0 { s with clock := tried.map Prod.fst ++ later })))) := by
  have hthree : retryReset s.params.role = 3 := by rw [hrole]; rfl
  have hnone : retryReset s.params.role - BitVec.ofNat 8 tried.length = 0 := by rw [hthree, hlen]; rfl
  rw [runOn_putCommand hx hc,
    runOn_attempt_checkedRefusals (by exact hrole) (by rfl) hall (by exact hin)
      (by rw [hlen]; exact (congrArg BitVec.toNat hthree).ge) (by rfl) (by exact hw),
    runOn_attempt_master_exhausted (by trivial) (by rfl) (by exact hnone)]

end

/-! ### GET_RESULT (R193) -/

/-- GET_RESULT with `T0` sampled, at the head of the loop that receives its result-header. -/
def resultHeaderStart (cap timeout : Word) (s : State) : State :=
  { s with
    phase := .mGetRh
    job := .resultHeader cap
    frame := []
    retryCnt := retryReset s.params.role
    exch := .get .rh (rhPayloadLen s.params) (some timeout) .timeout }

/-- GET_RESULT at the first `TRead` of its result-header; `more` is what is still listed at the receive side. -/
def resultHeaderAwaited (cap timeout d0 d1 : Word) (later : List Word) (more : List LinkEvent) (s : State) : State :=
  { s with
    phase := .mGetRh
    job := .resultHeader cap
    frame := []
    retryCnt := 2
    exch := .get .rh (rhPayloadLen s.params) (some timeout) .timeout
    t0 := s.now + d0
    now := s.now + d0 + d1
    clock := later
    draws := s.draws + 2
    link := more
    calls := s.calls ++
      [⟨s.state, s.phase, .now (s.now + d0)⟩,
       ⟨s.state, .mGetRh, .now (s.now + d0 + d1)⟩,
       ⟨s.state, .mGetRh, .tread (s.params.header.rhLen + 4) s.params.shortTimeoutMs⟩] }

/-- What a GET_RESULT leaves that received the response after these three readings, but for the registers of the sequencer. -/
def responseReceived (data : List Byte) (d0 d1 d2 : Word) (later : List Word) (more : List LinkEvent) (s : State) : State :=
  { s with
    retryCnt := 2
    respBuf := writeBytes s.respBuf 0 data
    respLen := lengthWord data
    t0 := s.now + d0
    now := s.now + d0 + d1 + d2
    clock := later
    draws := s.draws + 3
    link := more
    calls := s.calls ++
      [⟨s.state, s.phase, .now (s.now + d0)⟩,
       ⟨s.state, .mGetRh, .now (s.now + d0 + d1)⟩,
       ⟨s.state, .mGetRh, .tread (s.params.header.rhLen + 4) s.params.shortTimeoutMs⟩,
       ⟨s.state, .mGetRd, .now (s.now + d0 + d1 + d2)⟩,
       ⟨s.state, .mGetRd, .tread (data.length + 4) s.params.shortTimeoutMs⟩] }

/-- The front of what arrives is the frame awaited; the rest stays in the stream (R68). -/
theorem onArrive_front {s : State} {kind : Kind} {n : Word} {long : Option Word} {last : Status} {payload after : List Byte}
    (hx : s.exch = .get kind n long last) (hrx : s.rx = []) (hn : payload.length = n.toNat)
    (hmin : minLen kind ≤ payload.length + 4) :
    onArrive (encodePacket s.params kind payload ++ after) s =
      getSucceeded payload { s with frame := encodePacket s.params kind payload, rx := after } := by
  have hlen : (encodePacket s.params kind payload).length = frameLength n := by simp [hn, frameLength, frameOverhead]
  rw [onArrive_enough hx (by simp [hrx, ← hlen]), hrx, List.nil_append, List.take_left' hlen, List.drop_left' hlen,
    onFrame_ok (by exact decodePacket_encodePacket hmin)]

/-- R193, R256: a length above `cap` ends the operation. -/
theorem getSucceeded_resultHeader_oversize {s : State} {h : HeaderLayout} {cap n : Word} (hh : s.params.header = h)
    (hw : h.wf = true) (hj : s.job = .resultHeader cap) (hn : cap < n) :
    getSucceeded (rhPayload h n) s = .next (finish .lenOverflow .nothing s) := by
  simp only [getSucceeded, hj, hh, rhPayload_len hw, if_pos hn]

section
variable {s : State} {cap n : Word} {long : Option Word} {last : Status} {frame : List Byte}

/-- The result-header of a response that fits arrives: the result-data is next, with the same deadline. -/
theorem runOnFrom_resultHeader_fits (hf : frame = rhFrame s n) (hw : s.params.header.wf = true) (hj : s.job = .resultHeader cap)
    (hx : s.exch = .get .rh (rhPayloadLen s.params) long last) (hrx : s.rx = []) (hn : n ≤ cap) :
    runOnFrom (onLink (.arrive frame) s) = runOn (getPacket .rd n long { s with phase := .mGetRd, job := .resultData }) := by
  have haccepted : runOnFrom (onLink (.arrive frame) s) =
      runOnFrom (getSucceeded (rhPayload s.params.header n) { s with frame := frame }) := by
    rw [hf]
    exact deliver_accepted hx hrx ((rhPayload_length hw n).trans (rhPayloadLen_toNat hw).symm) (minLen_rhPayload hw n)
  rw [haccepted, getSucceeded_resultHeader (by rfl) hw (by exact hj) hn, runOnFrom_next, exchangeLong, hx]
  rfl

/-- That of a response that does not fit ends the operation, and what arrived behind it stays in the stream. -/
theorem runOnFrom_resultHeader_oversize {after : List Byte} (hf : frame = rhFrame s n) (hw : s.params.header.wf = true)
    (hj : s.job = .resultHeader cap) (hx : s.exch = .get .rh (rhPayloadLen s.params) long last) (hrx : s.rx = [])
    (hn : cap < n) :
    runOnFrom (onLink (.arrive (frame ++ after)) s) =
      .next (finish .lenOverflow .nothing { s with frame := frame, rx := after }) := by
  have haccepted : onLink (.arrive (frame ++ after)) s =
      getSucceeded (rhPayload s.params.header n) { s with frame := frame, rx := after } := by
    rw [hf]
    exact onArrive_front hx hrx ((rhPayload_length hw n).trans (rhPayloadLen_toNat hw).symm) (minLen_rhPayload hw n)
  rw [haccepted, getSucceeded_resultHeader_oversize (by rfl) hw (by exact hj) hn, runOnFrom_next, runOn_finish]

/-- The result-data arrives: the response is delivered. -/
theorem runOnFrom_resultData {data : List Byte} (hf : frame = frameOf s .rd data) (hj : s.job = .resultData)
    (hx : s.exch = .get .rd n long last) (hrx : s.rx = []) (hn : data.length = n.toNat) :
    runOnFrom (onLink (.arrive frame) s) =
      .next (finish .ok (.data data (lengthWord data)) (storeResponse data (lengthWord data) s)) := by
  have haccepted : runOnFrom (onLink (.arrive frame) s) = runOnFrom (getSucceeded data { s with frame := frame }) := by
    rw [hf]
    exact deliver_accepted hx hrx hn (minLen_data .rd (Or.inr rfl) _)
  rw [haccepted, getSucceeded_resultData (by exact hj), runOnFrom_next, runOn_finish]
  rfl

end

section
variable {s : State} {cap timeout d0 d1 d2 : Word} {data : List Byte} {later : List Word} {more : List LinkEvent}

theorem exec_getResult (hready : Ready .master s) :
    exec (.getResult cap timeout) s = runOn (getResult cap timeout { s with respLen := cap }) := by
  obtain ⟨hrole, hrest, -⟩ := hready
  have hgood : isBadOp s.params.role (.getResult cap timeout) = false := by
    simp [isBadOp, roleAccepts, lengthRepresentable, hrole]
  rw [exec, execGetResult, gate_run hgood hrest rfl]

/-- The first reading is `T0`. -/
theorem runOn_getResult (hc : s.clock = d0 :: later) :
    runOn (getResult cap timeout s) =
      runOn (attempt (resultHeaderStart cap timeout (sampleT0 d0 { s with clock := later }))) := by
  rw [runOn_clock rfl (by exact hc)]
  rfl

/-- The check before the first attempt passed, the `TRead` of the result-header is issued. -/
theorem runOn_getResult_read {e : LinkEvent} (hrole : s.params.role = .master) (hw : s.params.header.wf = true)
    (hc : s.clock = d0 :: d1 :: later) (hl : s.link = e :: more) (h1 : d1 < timeout) :
    runOn (getResult cap timeout s) = runOnFrom (onLink e (resultHeaderAwaited cap timeout d0 d1 later more s)) := by
  have hin : s.now + d0 + d1 - (s.now + d0) < timeout := by rwa [add_sub_cancel_left]
  rw [runOn_getResult hc,
    runOn_attempt_checkedRead (by exact hrole) (by rfl) (retryReset_ne_zero _) (by rfl) (by exact hl) (by exact hin)]
  simp [atCheckedRead, resultHeaderStart, resultHeaderAwaited, hrole, retryReset, rhPayloadLen_toNat hw]

/-- Both result frames arrive in time, and the response fits. -/
theorem runOn_getResult_delivers (hrole : s.params.role = .master) (hw : s.params.header.wf = true) (hrx : s.rx = [])
    (hfits : data.length ≤ cap.toNat) (hc : s.clock = d0 :: d1 :: d2 :: later)
    (hl : s.link = .arrive (rhFrame s (lengthWord data)) :: .arrive (frameOf s .rd data) :: more)
    (h1 : d1 < timeout) (h2 : d1 + d2 < timeout) :
    runOn (getResult cap timeout s) =
      .next (finish .ok (.data data (lengthWord data)) (responseReceived data d0 d1 d2 later more s)) := by
  have hn : (lengthWord data).toNat = data.length := lengthWord_toNat (decide_eq_true (hfits.trans_lt cap.isLt))
  have hcap : lengthWord data ≤ cap := BitVec.le_def.mpr (hn.le.trans hfits)
  have hin : s.now + d0 + d1 + d2 - (s.now + d0) < timeout := by rwa [add_assoc (s.now + d0), add_sub_cancel_left]
  rw [runOn_getResult_read hrole hw hc hl h1,
    runOnFrom_resultHeader_fits (by rfl) (by exact hw) (by rfl) (by rfl) (by exact hrx) hcap, getPacket,
    runOn_attempt_checkedRead (by exact hrole) (by rfl) (retryReset_ne_zero _) (by rfl) (by rfl) (by exact hin),
    runOnFrom_resultData (by rfl) (by rfl) (by rfl) (by exact hrx) hn.symm]
  simp [finish, atCheckedRead, resultHeaderAwaited, responseReceived, storeResponse, hrole, retryReset, hn]

/-- With nothing listed at the receive side the `TRead` waits. -/
theorem runOn_getResult_waits (hrole : s.params.role = .master) (hw : s.params.header.wf = true)
    (hc : s.clock = d0 :: d1 :: later) (hl : s.link = []) (h1 : d1 < timeout) :
    runOn (getResult cap timeout s) = .next (resultHeaderAwaited cap timeout d0 d1 later [] s) := by
  have hin : s.now + d0 + d1 - (s.now + d0) < timeout := by rwa [add_sub_cancel_left]
  rw [runOn_getResult hc,
    runOn_attempt_passed (by rfl) (retryReset_ne_zero _) (by rfl) (by exact hl)
      (deadlinePassed_master_false (by exact hrole) (by exact hin)), issue_get (by rfl)]
  simp [tick, record, resultHeaderStart, resultHeaderAwaited, hrole, retryReset, rhPayloadLen_toNat hw, hl]

/-- Past the deadline at the first check, nothing is read. -/
theorem runOn_getResult_late (hrole : s.params.role = .master) (hc : s.clock = d0 :: d1 :: later) (h1 : timeout ≤ d1) :
    runOn (getResult cap timeout s) =
      .next (finish .timeout .nothing
        (tick d1 (resultHeaderStart cap timeout (sampleT0 d0 { s with clock := later })))) := by
  have hlate : timeout ≤ s.now + d0 + d1 - (s.now + d0) := by rwa [add_sub_cancel_left]
  rw [runOn_getResult hc,
    runOn_attempt_master_late (Or.inr (by trivial)) (by trivial) (by rfl) (retryReset_ne_zero _) (by rfl)
      (deadlinePassed_master (by exact hrole) (by exact hlate))]
  rfl

end

/-! ### CALL (R196) -/

section
variable {s : State} {id cap ts tr : Word} {req : List Byte}

theorem exec_call (hready : Ready .master s) (hfits : fitsLength req = true) :
    exec (.call id req cap ts tr) s = runOn (putCommand id req ts (some ⟨cap, tr⟩) { s with respLen := cap }) := by
  obtain ⟨hrole, hrest, -⟩ := hready
  have hgood : isBadOp s.params.role (.call id req cap ts tr) = false := by
    simp [isBadOp, roleAccepts, lengthRepresentable, hrole, hfits]
  rw [exec, execCall, gate_run hgood hrest rfl]

/-- CALL at its GET_RESULT, the command sent with these readings and the length operand holding the capacity. -/
def callSent (id : Word) (req : List Byte) (ts cap tr d0 d1 d2 : Word) (later : List Word) (rest : List WriteAnswer)
    (s : State) : State :=
  { commandSent id req ts (some ⟨cap, tr⟩) d0 d1 d2 later rest { s with respLen := cap } with state := .awaitingResult }

/-- The command accepted, CALL turns to AwaitingResult (R197). -/
theorem exec_call_sent {a a' : WriteAnswer} {rest : List WriteAnswer} {d0 d1 d2 : Word} {later : List Word}
    (hready : Ready .master s) (hfits : fitsLength req = true) (hw : s.writes = a :: a' :: rest) (ha : a.ok = true)
    (ha' : a'.ok = true) (hc : s.clock = d0 :: d1 :: d2 :: later) (h1 : d1 < ts) (h2 : d1 + d2 < ts) :
    exec (.call id req cap ts tr) s = runOn (getResult cap tr (callSent id req ts cap tr d0 d1 d2 later rest s)) := by
  have ⟨hrole, hrest, _⟩ := hready
  obtain ⟨-, -, hexch⟩ := master_atRest hrole hrest
  rw [exec_call hready hfits,
    runOn_putCommand_accepted (s := { s with respLen := cap }) hrole hexch hw ha ha' hc h1 h2]
  rfl

end

end Sys2Proof.Machine

namespace Sys2Proof.Claims

open Sys2Proof Sys2Proof.Machine

/-- Settles O21: both packets are accepted, and nothing is left to do. -/
theorem putCommandSendsHeaderThenData : Obligations.PutCommandSendsHeaderThenData := by
  intro id data timeout s a a' rest d0 d1 d2 later hready hfits hw ha ha' hc h1 h2
  have ⟨hrole, hrest, _⟩ := hready
  obtain ⟨hphase, hstate, hjob, hexch⟩ := inProgress_false hrest
  have hends : putSucceeded (commandSent id data timeout none d0 d1 d2 later rest s) =
      finish .ok .nothing (commandSent id data timeout none d0 d1 d2 later rest s) := rfl
  rw [exec_putCommand hready hfits, runOn_putCommand_accepted hrole hexch hw ha ha' hc h1 h2, hends, runOn_finish]
  simp [finish, commandSent, hrole, restState, restPhase, hphase, hstate, hjob, hexch]

/-- Settles O22: the loop goes round with each refusal, and with no attempt left PUT_COMMAND ends there. -/
theorem putCommandStopsAfterAFailedHeader : Obligations.PutCommandStopsAfterAFailedHeader := by
  intro id data timeout s a a' a'' rest d0 d1 d2 d3 later hready hfits hw ha ha' ha'' hc h1 h2 h3
  have ⟨hrole, hrest, _⟩ := hready
  obtain ⟨hstate, -, hexch⟩ := master_atRest hrole hrest
  have hin : withinDeadline (s.now + d0) timeout (s.now + d0) [(d1, a), (d2, a'), (d3, a'')] := by
    simp only [withinDeadline, add_assoc, add_sub_add_left_eq_sub, add_sub_cancel_left]
    exact ⟨h1, h2, by rwa [← add_assoc], trivial⟩
  refine ⟨_, (exec_putCommand hready hfits).trans
    (runOn_putCommand_refused (tried := [(d1, a), (d2, a'), (d3, a'')]) hrole hexch (by simp [ha, ha', ha'']) rfl hin hc hw),
    rfl, ?retryCnt, finish_not_inProgress _ _ _, rfl, rfl, rfl, ?tx, ?calls⟩
  case retryCnt => simp [afterChecked, commandHeaderStart, hrole, retryReset]
  case tx => simp [afterChecked, commandHeaderStart, chFrame, frameOf]
  case calls =>
    rw [← hstate]
    exact transportCalls_headerTried id data timeout none d0 [(d1, a), (d2, a'), (d3, a'')] later rest _

/-- Settles O23: the header announces what the data brings, and the response is delivered. -/
theorem getResultDeliversTheResponse : Obligations.GetResultDeliversTheResponse := by
  intro cap timeout data s rest d0 d1 d2 later hready hfits hrx hl hc h1 h2
  have ⟨hrole, hrest, hwf⟩ := hready
  obtain ⟨hphase, hstate, hjob, hexch⟩ := inProgress_false hrest
  rw [exec_getResult hready, runOn_getResult_delivers (s := { s with respLen := cap }) hrole hwf hrx hfits hc hl h1 h2]
  simp [finish, responseReceived, hrole, restState, restPhase, hphase, hstate, hjob, hexch]

/-- Settles O24: the header is validated, and the length it announces ends the operation. -/
theorem getResultRejectsAnOversizeResult : Obligations.GetResultRejectsAnOversizeResult := by
  intro cap timeout n after s rest d0 d1 later hready hn hrx hl hc h1
  have ⟨hrole, hrest, hwf⟩ := hready
  obtain ⟨hphase, hstate, hjob, hexch⟩ := inProgress_false hrest
  rw [exec_getResult hready, runOn_getResult_read (s := { s with respLen := cap }) hrole hwf hc hl h1,
    runOnFrom_resultHeader_oversize (by rfl) (by exact hwf) (by rfl) (by rfl) (by exact hrx) hn]
  simp [finish, resultHeaderAwaited, hrole, restState, restPhase, hphase, hstate, hjob, hexch]

/-- Settles O25: the command is sent as by PUT_COMMAND, and the response received as by GET_RESULT. -/
theorem callReturnsTheResponse : Obligations.CallReturnsTheResponse := by
  intro id cap ts tr req resp s a a' rest more d0 d1 d2 d3 d4 d5 later hready hfits hcap hrx hw ha ha' hl hc h1 h2 h4 h5
  have ⟨hrole, hrest, hwf⟩ := hready
  obtain ⟨hphase, hstate, hjob, hexch⟩ := inProgress_false hrest
  rw [exec_call_sent hready hfits hw ha ha' hc h1 h2,
    runOn_getResult_delivers (by exact hrole) (by exact hwf) (by exact hrx) hcap (by rfl) (by exact hl) h4 h5]
  simp [finish, responseReceived, callSent, commandSent, chFrame, frameOf, hrole, restState, restPhase, hphase, hstate, hjob,
    hexch]

/-- Settles O26: the first check of PUT_COMMAND fails, so CALL does not get to GET_RESULT. -/
theorem callWithZeroSendTimeoutFails : Obligations.CallWithZeroSendTimeoutFails := by
  intro id cap tr req s d0 d1 later hready hfits hc
  have ⟨hrole, hrest, _⟩ := hready
  obtain ⟨-, -, hexch⟩ := master_atRest hrole hrest
  refine ⟨_, (exec_call hready hfits).trans (runOn_putCommand_zero hexch hc), rfl, ?retryCnt, finish_not_inProgress _ _ _,
    rfl, rfl, rfl, rfl, ?calls, rfl, rfl, rfl, rfl⟩
  case retryCnt => simp [commandHeaderStart, hrole, retryReset]
  case calls => exact (transportCalls_tick _ _).trans (transportCalls_tick _ _)

/-- Settles O27: the command is sent, and the first check of the receive deadline decides whether the `TRead` is issued. -/
theorem callAwaitsTheResult : Obligations.CallAwaitsTheResult := by
  intro id cap ts tr req s a a' d0 d1 d2 d3 d4 later hready hfits hw ha ha' hl hc h1 h2
  have ⟨hrole, _, hwf⟩ := hready
  have hcall := exec_call_sent (id := id) (cap := cap) (tr := tr) hready hfits hw ha ha' hc h1 h2
  by_cases h4 : d4 < tr
  · refine ⟨_, hcall.trans (runOn_getResult_waits hrole hwf rfl hl h4), rfl, rfl, fun _ => ?waits, fun h0 => ?_⟩
    case waits => exact ⟨rfl, rfl, congrArg Wait.read (frameLength_rh hwf), rfl, rfl⟩
    · exact absurd (h0 ▸ h4) BitVec.not_lt_zero
  · refine ⟨_, hcall.trans (runOn_getResult_late hrole rfl (BitVec.not_lt.mp h4)), rfl, rfl, fun h => absurd h h4, fun _ => ?_⟩
    simp [State.waiting, resultHeaderStart, callSent, commandSent, hrole, retryReset, restState, restPhase]

end Sys2Proof.Claims

/-! ## `43_master.md` R192, `44_slave.md` R220: the senders read nothing -/

namespace Sys2Proof.Machine

open Sys2Proof.Claims

/-- PUT_COMMAND or PUT_RESULT issued alone is in progress, or nothing is: no exchange that receives follows. -/
def Job.sendsAlone : Job → Prop
  | .idle | .commandStart _ _ _ none | .commandHeader _ none | .commandData none | .replyHeader _ false | .replyData false => True
  | _ => False

/-- Since `s` nothing was read, and nothing will be: the receive side is as it was, no `TRead` was issued, and the operation only
sends. -/
structure ReadsNothing (s u : State) : Prop where
  rx : u.rx = s.rx
  link : u.link = s.link
  reads : u.calls.filter isRead = s.calls.filter isRead
  job : u.job.sendsAlone
  exch : u.exch.direction ≠ .incoming

theorem waiting_read_incoming {s : State} {n : Nat} (h : s.waiting = .read n) : s.exch.direction = .incoming := by
  unfold State.waiting at h
  split at h
  · cases h
  · next hx => rw [hx]; rfl
  · cases h
  · cases h
  · split at h <;> cases h

section
variable {s u : State}

/-- A port primitive that is no `TRead` may be issued, and the registers not named may change. -/
theorem ReadsNothing.congr {v : State} (h : ReadsNothing s u) (hrx : v.rx = u.rx) (hlink : v.link = u.link)
    (hreads : v.calls.filter isRead = u.calls.filter isRead) (hj : v.job.sendsAlone) (hx : v.exch.direction ≠ .incoming) :
    ReadsNothing s v :=
  ⟨hrx.trans h.rx, hlink.trans h.link, hreads.trans h.reads, hj, hx⟩

theorem record_reads {p : Prim} (hp : isRead ⟨u.state, u.phase, p⟩ = false) :
    (record p u).calls.filter isRead = u.calls.filter isRead := by
  rw [record_calls, List.filter_append, List.filter_cons_of_neg (by simp [hp])]
  exact List.append_nil _

theorem tick_reads (d : Word) : (tick d u).calls.filter isRead = u.calls.filter isRead :=
  record_reads (u := { u with now := u.now + d, draws := u.draws + 1 }) rfl

theorem finish_readsNothing (st : Status) (r : Result) (h : ReadsNothing s u) : ReadsNothing s (finish st r u) :=
  h.congr rfl rfl rfl trivial nofun

theorem exchangeFailed_readsNothing (f : Status) (h : ReadsNothing s u) : ReadsNothing s (exchangeFailed f u) := by
  rcases exchangeFailed_cases f u with e | e <;> rw [e]
  · exact finish_readsNothing _ _ h
  · exact finish_readsNothing _ _ (h.congr rfl rfl rfl h.job h.exch)

/-- The attempt of an exchange that does not receive is a `TWrite`. -/
theorem issue_readsNothing (h : ReadsNothing s u) : ReadsNothing s (issue u) := by
  have hwrite : isRead ⟨u.state, u.phase, attemptPrim u⟩ = false := by
    unfold attemptPrim
    split
    · next hx => exact absurd (by rw [hx]; rfl) h.exch
    · rfl
  exact h.congr rfl rfl (record_reads (u := { u with retryCnt := u.retryCnt - 1 }) hwrite) h.job h.exch

theorem attempt_readsNothing (h : ReadsNothing s u) : ReadsNothing s (attempt u) := by
  rcases attempt_cases u with ⟨-, e⟩ | ⟨-, long, -, e⟩ | ⟨-, kind, n, long, last, hx, e⟩ | ⟨-, e⟩ <;> rw [e]
  · exact exchangeFailed_readsNothing _ h
  · exact h.congr rfl rfl rfl h.job nofun
  · exact absurd (by rw [hx]; rfl) h.exch
  · exact issue_readsNothing h

theorem deadlineCheck_readsNothing (long : Word) (h : ReadsNothing s u) : ReadsNothing s (deadlineCheck long u) := by
  rcases deadlineCheck_cases long u with ⟨-, e⟩ | ⟨-, e⟩ <;> rw [e]
  · exact exchangeFailed_readsNothing _ h
  · exact issue_readsNothing h

theorem putPacket_readsNothing (kind : Kind) (payload : List Byte) (long : Option Word) (h : ReadsNothing s u) :
    ReadsNothing s (putPacket kind payload long u) :=
  attempt_readsNothing (h.congr rfl rfl rfl h.job nofun)

/-- A reading of the time source lets a checked attempt be made, or starts PUT_COMMAND. -/
theorem onClock_readsNothing (d : Word) (h : ReadsNothing s u) : ReadsNothing s (onClock d u) := by
  have hjob := h.job
  unfold onClock
  split
  · exact deadlineCheck_readsNothing _ (h.congr rfl rfl (tick_reads d) h.job nofun)
  · next hx => exact absurd (by rw [hx]; rfl) h.exch
  · exact h
  · exact h
  · split
    · next call hj =>
      rw [hj] at hjob
      cases call with
      | none => exact putPacket_readsNothing _ _ _ (h.congr rfl rfl (tick_reads d) trivial h.exch)
      | some c => exact hjob.elim
    · next hj => rw [hj] at hjob; exact hjob.elim
    · exact h

/-- Behind a header comes the data packet, behind that the end: not the GET_RESULT of a CALL, nor the deferred handler of a LOOP. -/
theorem putSucceeded_readsNothing (h : ReadsNothing s u) : ReadsNothing s (putSucceeded u) := by
  have hjob := h.job
  unfold putSucceeded
  split <;> rename_i hj <;> rw [hj] at hjob
  · exact finish_readsNothing _ _ h
  · next call =>
    cases call with
    | none => exact putPacket_readsNothing _ _ _ (h.congr rfl rfl rfl trivial h.exch)
    | some c => exact hjob.elim
  · exact finish_readsNothing _ _ h
  · exact hjob.elim
  · next inLoop =>
    cases inLoop with
    | false => exact putPacket_readsNothing _ _ _ (h.congr rfl rfl rfl trivial h.exch)
    | true => exact hjob.elim
  · exact finish_readsNothing _ _ h
  · exact hjob.elim
  all_goals exact h

theorem onWrite_readsNothing (a : WriteAnswer) (h : ReadsNothing s u) : ReadsNothing s (onWrite a u) := by
  have hsent : ReadsNothing s { u with tx := u.tx ++ sentBytes a u.frame } := h.congr rfl rfl rfl h.job h.exch
  simp only [onWrite]
  split
  · exact putSucceeded_readsNothing hsent
  · exact attempt_readsNothing hsent

/-- Running on asks for the time and writes: no `TRead` and no handler is waited for. -/
theorem runOn_readsNothing (h : ReadsNothing s u) : NextHas (ReadsNothing s) (runOn u) := by
  refine runFor_has_awaited (P := ReadsNothing s) ?clock ?write ?link ?handler _ h
  case clock =>
    intro v d rest _ hv
    have taken : ReadsNothing s { v with clock := rest } := hv.congr rfl rfl rfl hv.job hv.exch
    exact onClock_readsNothing d taken
  case write =>
    intro v a rest _ hv
    have taken : ReadsNothing s { v with writes := rest } := hv.congr rfl rfl rfl hv.job hv.exch
    exact onWrite_readsNothing a taken
  case link =>
    intro v n e rest hw hv
    exact absurd (waiting_read_incoming hw) hv.exch
  case handler =>
    intro v r rest hw hv
    have hjob := hv.job
    obtain ⟨hd, e | e⟩ := waiting_handler_job hw <;> rw [e] at hjob <;> exact hjob.elim

end

end Sys2Proof.Machine

namespace Sys2Proof.Claims

open Sys2Proof Sys2Proof.Machine

/-- Settles O59: each of the two starts with nothing read, and running on keeps that. -/
theorem sendersReadNothing : Obligations.SendersReadNothing := by
  intro s t i hrest _ hi hexec
  obtain ⟨-, -, hjob, hexch⟩ := inProgress_false hrest
  have hstart : ReadsNothing s s := ⟨rfl, rfl, rfl, by rw [hjob]; trivial, by rw [hexch]; nofun⟩
  have hrefused : ReadsNothing s (refuse s) := hstart.congr rfl rfl rfl hstart.job hstart.exch
  have hall : NextHas (ReadsNothing s) (exec i s) := by
    rcases hi with ⟨id, data, ms, rfl⟩ | ⟨data, rfl⟩
    · have hbegun : ReadsNothing s (putCommand id data ms none s) := hstart.congr rfl rfl rfl trivial hstart.exch
      rw [exec, execPutCommand]
      exact gate_has hrefused fun _ _ _ => runOn_readsNothing hbegun
    · have hbegun : ReadsNothing s { s with phase := .sPutRh, job := .replyHeader data false } :=
        hstart.congr rfl rfl rfl trivial hstart.exch
      rw [exec, execPutResult]
      exact gate_has hrefused fun _ _ _ => runOn_readsNothing (putPacket_readsNothing _ _ _ hbegun)
  have hend := hall t hexec
  exact ⟨hend.rx, hend.link, hend.reads⟩

end Sys2Proof.Claims

/-! ## `44_slave.md` R216, R225 to R228: the Callback Table and the deferred slot -/

namespace Sys2Proof.Machine

open Sys2Proof.Claims

/-! ### The lookup (R216) -/

/-- The first entry in use that has the identifier is the one found. -/
theorem lookup_first {id : Word} {s : State} {i : Nat} {e : CbEntry} (hi : i < s.cbCount.toNat) (he : s.cb[i]? = some e)
    (hid : e.id = id) (hfirst : ∀ j d, j < i → s.cb[j]? = some d → d.id ≠ id) : lookup id s = some e.handler := by
  obtain ⟨hlt, hget⟩ := List.getElem?_eq_some_iff.mp he
  have hfound : (entriesInUse s).find? (fun d => decide (d.id = id)) = some e := by
    refine List.find?_eq_some_iff_getElem.mpr ⟨decide_eq_true hid, i, ?_, ?_, fun j hj => ?_⟩
    · rw [entriesInUse, List.length_take]; omega
    · rw [← hget]; exact List.getElem_take
    · have hne := hfirst j s.cb[j] hj (List.getElem?_eq_getElem _)
      simpa [entriesInUse] using hne
  rw [lookup, hfound, Option.map_some]

theorem lookup_absent {id : Word} {s : State} (h : ∀ j d, j < s.cbCount.toNat → s.cb[j]? = some d → d.id ≠ id) :
    lookup id s = none := by
  refine lookup_none.mpr fun e he => ?_
  obtain ⟨j, hj, rfl⟩ := List.mem_take_iff_getElem.mp he
  exact h j _ (by omega) (List.getElem?_eq_getElem _)

theorem exec_findCallback {s : State} (id : Word) (hready : Ready .slave s) :
    exec (.findCallback id) s = .next (findCompletion (lookup id s) s) := by
  obtain ⟨hrole, hrest, -⟩ := hready
  have hgood : isBadOp s.params.role (.findCallback id) = false := by
    simp [isBadOp, roleAccepts, lengthRepresentable, hrole]
  rw [exec, execFindCallback, gate_run hgood hrest rfl]

/-! ### Registrations at the host port (R225, R261) -/

/-- A registration the role has is run at rest and from a running handler. -/
theorem gate_registration {i : Instr} {s : State} {run : State → Out} (hbad : isBadOp s.params.role i = false)
    (hreg : isRegistration i = true) (h : s.inProgress = false ∨ s.handlerRunning = true) : gate i s run = run s := by
  have hturn : (s.inProgress && !s.handlerRunning) = false := by
    rcases h with h | h <;> simp [h]
  simp [gate, hbad, hreg, hturn]

/-- Where a registration is accepted, the host port runs it. -/
theorem gate_registrationAccepted {i : Instr} {s : State} {run : State → Out} (h : RegistrationAccepted s)
    (hgood : isBadOp .slave i = false) (hreg : isRegistration i = true) : gate i s run = run s := by
  obtain ⟨hrole, hturn⟩ := h
  refine gate_registration (hrole ▸ hgood) hreg (hturn.imp_right fun hphase => ?_)
  exact decide_eq_true hphase

theorem exec_registerCallback {s : State} (id : Word) (h : Handler) (hacc : RegistrationAccepted s) :
    exec (.registerCallback id h) s = .next (registerCallback id h s) := by
  rw [exec, execRegisterCallback, gate_registrationAccepted hacc rfl rfl]

theorem exec_scheduleCallback {s : State} (h : Handler) (hacc : RegistrationAccepted s) :
    exec (.scheduleCallback h) s = .next (scheduleCallback h s) := by
  rw [exec, execScheduleCallback, gate_registrationAccepted hacc rfl rfl]

/-! ### The outcomes of REGISTER_CALLBACK (R226) -/

section
variable {id : Word} {s : State}

theorem registerStatus_duplicate (h : ∃ e ∈ entriesInUse s, e.id = id) : registerStatus id s = .duplicate := by
  obtain ⟨e, he, hid⟩ := h
  have hfound : lookup id s ≠ none := fun hnone => lookup_none.mp hnone e he hid
  rw [registerStatus, if_pos (Option.isSome_iff_ne_none.mpr hfound)]

theorem registerStatus_new (h : ∀ e ∈ entriesInUse s, e.id ≠ id) :
    registerStatus id s = if s.cbCount.toNat = s.params.maxCallbacks then .tableFull else .ok := by
  rw [registerStatus, lookup_none.mpr h, Option.isSome_none, if_neg Bool.false_ne_true]

/-- A registration that fails writes `STATUS` only. -/
theorem registerCallback_failed {f : Status} (h : Handler) (hf : registerStatus id s = f) (hne : f ≠ .ok) :
    registerCallback id h s = { s with status := f, result := .nothing } := by
  have hkept : registerEntry id h s = s := by
    unfold registerEntry
    split
    · next hok => exact absurd (hf.symm.trans hok) hne
    · rfl
  rw [registerCallback, hkept, hf, completeInPlace, if_neg hne]

theorem registerCallback_ok (h : Handler) (hok : registerStatus id s = .ok) :
    registerCallback id h s =
      { s with
        cb := s.cb.set s.cbCount.toNat ⟨id, h⟩, cbCount := s.cbCount + 1, status := .ok, result := .nothing } := by
  simp only [registerCallback, registerEntry, hok, completeInPlace, if_true]

end

end Sys2Proof.Machine

namespace Sys2Proof.Claims

open Sys2Proof Sys2Proof.Machine

/-- Settles O31: the lookup scans the entries in use from the front. -/
theorem findCallbackScansTheTable : Obligations.FindCallbackScansTheTable := by
  intro id s hready
  refine ⟨fun i e hi he hid hfirst => ?found, fun habsent => ?absent⟩
  case found =>
    rw [exec_findCallback id hready, lookup_first hi he hid hfirst]
    simp [findCompletion, completeInPlace]
  case absent =>
    rw [exec_findCallback id hready, lookup_absent habsent]
    simp [findCompletion, completeInPlace]

/-- Settles O33: the duplicate test comes first, then the capacity test. -/
theorem registerCallbackOutcomes : Obligations.RegisterCallbackOutcomes := by
  intro id h s hacc
  rw [exec_registerCallback id h hacc]
  refine ⟨fun hdup => ?duplicate, fun hnew hfull => ?full, fun hnew hroom => ?ok⟩
  case duplicate => rw [registerCallback_failed h (registerStatus_duplicate hdup) nofun]
  case full => rw [registerCallback_failed h ((registerStatus_new hnew).trans (if_pos hfull)) nofun]
  case ok => rw [registerCallback_ok h ((registerStatus_new hnew).trans (if_neg hroom))]

/-- Settles O35: the slot is written whole each time, and where one registration is accepted the next is. -/
theorem scheduleCallbackReplacesTheSlot : Obligations.ScheduleCallbackReplacesTheSlot := by
  intro h h' s hacc
  exact ⟨_, exec_scheduleCallback h hacc, rfl, exec_scheduleCallback h' hacc⟩

end Sys2Proof.Claims

/-! ## `44_slave.md` R227: the capacity of the Callback Table -/

namespace Sys2Proof.Machine

open Sys2Proof.Claims

/-- A slave of these parameters at rest whose table holds these entries, in this order. -/
structure TableHolds (p : Params) (es : List CbEntry) (s : State) : Prop where
  params : s.params = p
  rest : s.inProgress = false
  size : s.cb.length = p.maxCallbacks
  count : s.cbCount.toNat = es.length
  entries : entriesInUse s = es

theorem resetWith_tableHolds (p : Params) : TableHolds p [] (State.resetWith p) :=
  ⟨rfl, by simp [State.inProgress, State.resetWith], List.length_replicate, rfl, rfl⟩

section
variable {p : Params} {es : List CbEntry} {s : State} {id : Word}

theorem TableHolds.accepted (h : TableHolds p es s) (hslave : p.role = .slave) : RegistrationAccepted s :=
  ⟨h.params ▸ hslave, Or.inl h.rest⟩

/-- Room being left, a new identifier is accepted and stands behind the entries in use. -/
theorem TableHolds.register (h : TableHolds p es s) (hslave : p.role = .slave) (hp : p.wf = true) (hd : Handler)
    (hnew : id ∉ es.map CbEntry.id) (hroom : es.length < p.maxCallbacks) :
    ∃ t, exec (.registerCallback id hd) s = .next t ∧ t.ok = true ∧ TableHolds p (es ++ [⟨id, hd⟩]) t := by
  have hacc := h.accepted hslave
  obtain ⟨hparams, hrest, hsize, hcount, hentries⟩ := h
  have habsent : ∀ e ∈ entriesInUse s, e.id ≠ id := fun e he hid =>
    hnew (List.mem_map.mpr ⟨e, hentries ▸ he, hid⟩)
  have hfree : s.cbCount.toNat ≠ s.params.maxCallbacks := by rw [hparams, hcount]; exact hroom.ne
  obtain ⟨-, -, hsucceeds⟩ := registerCallbackOutcomes id hd s hacc
  have hsucc : (s.cbCount + 1).toNat = s.cbCount.toNat + 1 := by
    have hmax := maxCallbacks_le hp
    rw [BitVec.toNat_add]; simp; omega
  refine ⟨_, hsucceeds habsent hfree, rfl, hparams, hrest, by simpa using hsize, by simpa [hcount] using hsucc, ?_⟩
  have hkept : (s.cb.set s.cbCount.toNat ⟨id, hd⟩).take s.cbCount.toNat = es :=
    (List.take_set_of_le (Nat.le_refl _)).trans hentries
  have hlast : (s.cb.set s.cbCount.toNat ⟨id, hd⟩)[s.cbCount.toNat]? = some ⟨id, hd⟩ := by
    rw [List.getElem?_set_self (by omega)]
  simp only [entriesInUse, hsucc]
  rw [List.take_add_one, hkept, hlast, Option.toList_some]

/-- The registrations succeed one after the other while there is room. -/
theorem TableHolds.registerAll {regs : List (Word × Handler)} (h : TableHolds p es s) (hslave : p.role = .slave)
    (hp : p.wf = true) (hnew : (es.map CbEntry.id ++ regs.map Prod.fst).Nodup)
    (hroom : es.length + regs.length ≤ p.maxCallbacks) :
    ∃ t, registerAll regs s = some t ∧ TableHolds p (es ++ regs.map fun r => ⟨r.1, r.2⟩) t := by
  induction regs generalizing es s with
  | nil => exact ⟨s, rfl, by simpa using h⟩
  | cons r regs ih =>
    obtain ⟨id, hd⟩ := r
    have hfresh : id ∉ es.map CbEntry.id := fun hmem =>
      (List.nodup_append.mp hnew).2.2 id hmem id (by simp) rfl
    rw [List.length_cons] at hroom
    obtain ⟨t, hexec, hok, ht⟩ := h.register hslave hp hd hfresh (by omega)
    obtain ⟨u, hall, hu⟩ := ih ht (by simpa using hnew) (by simp; omega)
    exact ⟨u, by simp only [Claims.registerAll, hexec, hok, if_true, hall], by simpa using hu⟩

/-- A full table takes no further registration: what is present is reported before there being no room. -/
theorem TableHolds.register_full (h : TableHolds p es s) (hslave : p.role = .slave) (hfull : es.length = p.maxCallbacks)
    (id : Word) (hd : Handler) :
    exec (.registerCallback id hd) s =
      .next { s with
        status := if id ∈ es.map CbEntry.id then .duplicate else .tableFull, result := .nothing } := by
  obtain ⟨hduplicate, htableFull, -⟩ := registerCallbackOutcomes id hd s (h.accepted hslave)
  by_cases hmem : id ∈ es.map CbEntry.id
  · obtain ⟨e, he, hid⟩ := List.mem_map.mp hmem
    rw [if_pos hmem, hduplicate ⟨e, h.entries ▸ he, hid⟩]
  · have habsent : ∀ e ∈ entriesInUse s, e.id ≠ id := fun e he hid =>
      hmem (List.mem_map.mpr ⟨e, h.entries ▸ he, hid⟩)
    rw [if_neg hmem, htableFull habsent (by rw [h.params, h.count, hfull])]

end

end Sys2Proof.Machine

namespace Sys2Proof.Claims

open Sys2Proof Sys2Proof.Machine

/-- Settles O34, by induction on the registrations from the empty table of reset. -/
theorem theTableTakesExactlyMaxCallbacks : Obligations.TheTableTakesExactlyMaxCallbacks := by
  intro p regs hp hslave hdistinct hroom
  obtain ⟨t, hall, ht⟩ :=
    (resetWith_tableHolds p).registerAll (regs := regs) hslave hp (by simpa using hdistinct) (by simpa using hroom)
  refine ⟨t, hall, by simpa using ht.count, by simpa using ht.entries, fun hfull id hd => ?_⟩
  have hids : (regs.map fun r => (⟨r.1, r.2⟩ : CbEntry)).map CbEntry.id = regs.map Prod.fst := by
    rw [List.map_map]; rfl
  rw [ht.register_full hslave (by simpa using hfull), List.nil_append, hids]

end Sys2Proof.Claims

/-! ## `44_slave.md` R212, R219: GET_COMMAND and PUT_RESULT run to their end -/

namespace Sys2Proof.Machine

open Sys2Proof.Claims

theorem ready_slave_atRest {s : State} (hready : Ready .slave s) :
    s.state = .waitingForCommand ∧ s.phase = .sRest ∧ s.job = .idle ∧ s.exch = .idle := by
  obtain ⟨hrole, hrest, -⟩ := hready
  obtain ⟨hphase, hstate, hjob, hexch⟩ := inProgress_false hrest
  rw [hrole] at hphase hstate
  exact ⟨hstate, hphase, hjob, hexch⟩

/-! ### GET_COMMAND (R212) -/

/-- GET_COMMAND at the first `TRead` of its command-header; `more` is what is still listed at the receive side. -/
def commandHeaderAwaited (inLoop : Bool) (more : List LinkEvent) (s : State) : State :=
  { s with
    phase := .sGetCh
    job := .recvHeader inLoop
    frame := []
    retryCnt := 1
    exch := .get .ch (chPayloadLen s.params) none .timeout
    link := more
    calls := s.calls ++ [⟨s.state, .sGetCh, .tread (s.params.header.chLen + 4) s.params.shortTimeoutMs⟩] }

/-- What a GET_COMMAND leaves that received and stored this request, but for the registers of the sequencer. -/
def requestStored (id : Word) (data : List Byte) (more : List LinkEvent) (s : State) : State :=
  { s with
    retryCnt := 1
    buf := writeBytes s.buf 0 data
    bufLen := lengthWord data
    curRpcId := id
    link := more
    calls := s.calls ++
      [⟨s.state, .sGetCh, .tread (s.params.header.chLen + 4) s.params.shortTimeoutMs⟩,
       ⟨s.state, .sGetCd, .tread (data.length + 4) s.params.shortTimeoutMs⟩] }

/-- A slave at rest, its stream empty, to which the two frames of a command that fits come next. -/
structure CommandComes (id : Word) (data : List Byte) (more : List LinkEvent) (s : State) : Prop where
  ready : Ready .slave s
  fits : data.length ≤ s.params.bufCap
  length : fitsLength data = true
  empty : s.rx = []
  link : s.link = .arrive (chFrame s id (lengthWord data)) :: .arrive (frameOf s .cd data) :: more

section
variable {s : State} {id n : Word} {data frame : List Byte} {inLoop : Bool} {last : Status} {e : LinkEvent}
  {more : List LinkEvent}

theorem exec_getCommand (hready : Ready .slave s) : exec .getCommand s = runOn (getCommand false s) := by
  obtain ⟨hrole, hrest, -⟩ := hready
  have hgood : isBadOp s.params.role .getCommand = false := by simp [isBadOp, roleAccepts, lengthRepresentable, hrole]
  rw [exec, execGetCommand, gate_run hgood hrest rfl]

theorem exec_loop (hready : Ready .slave s) : exec .loop s = runOn (getCommand true s) := by
  obtain ⟨hrole, hrest, -⟩ := hready
  have hgood : isBadOp s.params.role .loop = false := by simp [isBadOp, roleAccepts, lengthRepresentable, hrole]
  rw [exec, execLoop, gate_run hgood hrest rfl]

/-- The `TRead` of the command-header is issued, and meets what is listed next. -/
theorem runOn_getCommand (hready : Ready .slave s) (hl : s.link = e :: more) :
    runOn (getCommand inLoop s) = runOnFrom (onLink e (commandHeaderAwaited inLoop more s)) := by
  obtain ⟨hrole, -, hw⟩ := hready
  rw [getCommand, getPacket, runOn_attempt_read (by rfl) (retryReset_ne_zero _) (by exact hl), issue_get (by rfl)]
  simp [commandHeaderAwaited, hrole, retryReset, chPayloadLen_toNat hw]

/-- R212, R256: a length above `BUF_CAP` ends the operation. -/
theorem getSucceeded_recvHeader_oversize {h : HeaderLayout} (hh : s.params.header = h) (hw : h.wf = true)
    (hj : s.job = .recvHeader inLoop) (hn : s.params.bufCap < n.toNat) :
    getSucceeded (chPayload h id n) s = .next (finish .lenOverflow .nothing s) := by
  simp only [getSucceeded, hj, hh, chPayload_len hw, if_pos hn]

/-- The command-header of a request that fits arrives: the command-data is next. -/
theorem runOnFrom_commandHeader_fits (hf : frame = chFrame s id n) (hw : s.params.header.wf = true)
    (hj : s.job = .recvHeader inLoop) (hx : s.exch = .get .ch (chPayloadLen s.params) none last) (hrx : s.rx = [])
    (hn : n.toNat ≤ s.params.bufCap) :
    runOnFrom (onLink (.arrive frame) s) =
      runOn (getPacket .cd n none { s with phase := .sGetCd, job := .recvData id inLoop }) := by
  have haccepted : runOnFrom (onLink (.arrive frame) s) =
      runOnFrom (getSucceeded (chPayload s.params.header id n) { s with frame := frame }) := by
    rw [hf]
    exact deliver_accepted hx hrx ((chPayload_length hw id n).trans (chPayloadLen_toNat hw).symm) (minLen_chPayload hw id n)
  rw [haccepted, getSucceeded_recvHeader (by rfl) hw (by exact hj) (by exact hn), runOnFrom_next]
  rfl

/-- That of a request that does not fit ends the operation, and what arrived behind it stays in the stream. -/
theorem runOnFrom_commandHeader_oversize {after : List Byte} (hf : frame = chFrame s id n) (hw : s.params.header.wf = true)
    (hj : s.job = .recvHeader inLoop) (hx : s.exch = .get .ch (chPayloadLen s.params) none last) (hrx : s.rx = [])
    (hn : s.params.bufCap < n.toNat) :
    runOnFrom (onLink (.arrive (frame ++ after)) s) =
      .next (finish .lenOverflow .nothing { s with frame := frame, rx := after }) := by
  have haccepted : onLink (.arrive (frame ++ after)) s =
      getSucceeded (chPayload s.params.header id n) { s with frame := frame, rx := after } := by
    rw [hf]
    exact onArrive_front hx hrx ((chPayload_length hw id n).trans (chPayloadLen_toNat hw).symm) (minLen_chPayload hw id n)
  rw [haccepted, getSucceeded_recvHeader_oversize (by rfl) hw (by exact hj) (by exact hn), runOnFrom_next, runOn_finish]

/-- The command-data arrives: its payload is the request. -/
theorem runOnFrom_commandData (hf : frame = frameOf s .cd data) (hx : s.exch = .get .cd n none last) (hrx : s.rx = [])
    (hn : data.length = n.toNat) :
    runOnFrom (onLink (.arrive frame) s) = runOnFrom (getSucceeded data { s with frame := frame }) := by
  rw [hf]
  exact deliver_accepted hx hrx hn (minLen_data .cd (Or.inl rfl) _)

/-- GET_COMMAND with both frames received, the request not yet stored. -/
def commandDataTaken (id : Word) (data : List Byte) (inLoop : Bool) (more : List LinkEvent) (s : State) : State :=
  { s with
    phase := .sGetCd
    job := .recvData id inLoop
    frame := frameOf s .cd data
    retryCnt := 1
    exch := .get .cd (lengthWord data) none .timeout
    link := more
    calls := s.calls ++
      [⟨s.state, .sGetCh, .tread (s.params.header.chLen + 4) s.params.shortTimeoutMs⟩,
       ⟨s.state, .sGetCd, .tread (data.length + 4) s.params.shortTimeoutMs⟩] }

theorem runOn_getCommand_received (h : CommandComes id data more s) :
    runOn (getCommand inLoop s) = runOnFrom (getSucceeded data (commandDataTaken id data inLoop more s)) := by
  obtain ⟨hready, hfit, hlength, hrx, hl⟩ := h
  have ⟨hrole, _, hw⟩ := hready
  have hn : (lengthWord data).toNat = data.length := lengthWord_toNat hlength
  rw [runOn_getCommand hready hl,
    runOnFrom_commandHeader_fits (by rfl) (by exact hw) (by rfl) (by rfl) (by exact hrx) (by rw [hn]; exact hfit), getPacket,
    runOn_attempt_read (by rfl) (retryReset_ne_zero _) (by rfl), issue_get (by rfl),
    runOnFrom_commandData (by rfl) (by rfl) (by exact hrx) hn.symm]
  simp [commandHeaderAwaited, commandDataTaken, hrole, retryReset, hn, frameOf]

/-- GET_COMMAND alone completes with the identifier. -/
theorem runOn_getCommand_stores (h : CommandComes id data more s) :
    runOn (getCommand false s) = .next (finish .ok (.rpcId id) (requestStored id data more s)) := by
  rw [runOn_getCommand_received h, getSucceeded_recvData_alone (by rfl) (by exact h.fits), runOnFrom_next, runOn_finish]
  simp [finish, commandDataTaken, requestStored]

end

/-! ### The attempts of a sending exchange without a deadline (R172) -/

/-- The `TWrite` accepted: the attempt and the bytes of FRAME on the link. -/
def afterWrite (rest : List WriteAnswer) (s : State) : State :=
  { s with
    writes := rest
    retryCnt := s.retryCnt - 1
    tx := s.tx ++ s.frame
    calls := s.calls ++ [⟨s.state, s.phase, .twrite s.frame s.params.shortTimeoutMs⟩] }

section
variable {s : State} {data : List Byte} {inLoop : Bool} {a a' : WriteAnswer} {rest : List WriteAnswer}

theorem onWrite_accepted (ha : a.ok = true) : onWrite a s = putSucceeded { s with tx := s.tx ++ s.frame } := by
  simp [onWrite, sentBytes, ha]

/-- Accepted, an attempt leads to what follows the exchange. -/
theorem runOn_attempt_accepted (hx : s.exch = .put none) (hleft : s.retryCnt ≠ 0) (hw : s.writes = a :: rest)
    (ha : a.ok = true) : runOn (attempt s) = runOn (putSucceeded (afterWrite rest s)) := by
  rw [runOn_attempt_write hx hleft hw, onWrite_accepted ha, issue_put (by exact hx)]
  rfl

/-- A slave's exchange has two attempts: with both refused it fails with `Timeout`. -/
theorem runOn_attempt_refusedTwice (hx : s.exch = .put none) (htwo : s.retryCnt = 2) (hw : s.writes = a :: a' :: rest)
    (ha : a.ok = false) (ha' : a'.ok = false) :
    runOn (attempt s) = runOn (exchangeFailed .timeout (afterRefusals [a, a'] rest s)) := by
  have hnone : (afterRefusals [a, a'] rest s).retryCnt = 0 := by simp [afterRefusals, htwo]
  have hexhausted : attempt (afterRefusals [a, a'] rest s) = exchangeFailed .timeout (afterRefusals [a, a'] rest s) := by
    rw [attempt, if_pos hnone]
    simp only [exhausted, afterRefusals, hx]
  rw [runOn_attempt_refusals (refused := [a, a']) (rest := rest) hx (by simp [ha, ha']) (by simp [htwo]) hw, hexhausted]

/-! ### PUT_RESULT (R219) -/

/-- PUT_RESULT at the head of the loop that sends its result-header. -/
def resultHeaderReady (data : List Byte) (inLoop : Bool) (s : State) : State :=
  { s with
    phase := .sPutRh
    job := .replyHeader data inLoop
    frame := rhFrame s (lengthWord data)
    retryCnt := retryReset s.params.role
    exch := .put none }

/-- PUT_RESULT with its result-header accepted, at the head of the loop that sends its result-data. -/
def resultHeaderSent (data : List Byte) (inLoop : Bool) (rest : List WriteAnswer) (s : State) : State :=
  { s with
    phase := .sPutRd
    job := .replyData inLoop
    frame := frameOf s .rd data
    retryCnt := 2
    exch := .put none
    writes := rest
    tx := s.tx ++ rhFrame s (lengthWord data)
    calls := s.calls ++ [⟨s.state, .sPutRh, .twrite (rhFrame s (lengthWord data)) s.params.shortTimeoutMs⟩] }

/-- PUT_RESULT with both packets accepted. -/
def resultSent (data : List Byte) (inLoop : Bool) (rest : List WriteAnswer) (s : State) : State :=
  { s with
    phase := .sPutRd
    job := .replyData inLoop
    frame := frameOf s .rd data
    retryCnt := 1
    exch := .put none
    writes := rest
    tx := s.tx ++ rhFrame s (lengthWord data) ++ frameOf s .rd data
    calls := s.calls ++
      [⟨s.state, .sPutRh, .twrite (rhFrame s (lengthWord data)) s.params.shortTimeoutMs⟩,
       ⟨s.state, .sPutRd, .twrite (frameOf s .rd data) s.params.shortTimeoutMs⟩] }

theorem exec_putResult (hready : Ready .slave s) (hfits : fitsLength data = true) :
    exec (.putResult data) s = runOn (putResult data false s) := by
  obtain ⟨hrole, hrest, -⟩ := hready
  have hgood : isBadOp s.params.role (.putResult data) = false := by
    simp [isBadOp, roleAccepts, lengthRepresentable, hrole, hfits]
  rw [exec, execPutResult, gate_run hgood hrest rfl]

theorem putResult_attempts : putResult data inLoop s = attempt (resultHeaderReady data inLoop s) := rfl

/-- Behind the result-header comes the result-data. -/
theorem putSucceeded_replyHeader (hj : s.job = .replyHeader data inLoop) :
    putSucceeded s = putPacket .rd data none { s with phase := .sPutRd, job := .replyData inLoop } := by
  simp only [putSucceeded, hj]

theorem runOn_putResult_headerAccepted (hrole : s.params.role = .slave) (hw : s.writes = a :: rest) (ha : a.ok = true) :
    runOn (putResult data inLoop s) = runOn (attempt (resultHeaderSent data inLoop rest s)) := by
  rw [putResult_attempts, runOn_attempt_accepted (by rfl) (retryReset_ne_zero _) (by exact hw) ha,
    putSucceeded_replyHeader (by rfl), putPacket]
  simp [resultHeaderSent, afterWrite, resultHeaderReady, frameOf, rhFrame, hrole, retryReset]

/-- The result-header accepted and then the result-data. -/
theorem runOn_putResult_accepted (hrole : s.params.role = .slave) (hw : s.writes = a :: a' :: rest) (ha : a.ok = true)
    (ha' : a'.ok = true) :
    runOn (putResult data inLoop s) = runOn (putSucceeded (resultSent data inLoop rest s)) := by
  rw [runOn_putResult_headerAccepted hrole hw ha, runOn_attempt_accepted (by rfl) (by exact nofun) (by rfl) ha']
  simp [afterWrite, resultHeaderSent, resultSent, frameOf, rhFrame]

theorem runOn_putResult_headerRefused (hrole : s.params.role = .slave) (hw : s.writes = a :: a' :: rest) (ha : a.ok = false)
    (ha' : a'.ok = false) :
    runOn (putResult data inLoop s) =
      runOn (exchangeFailed .timeout (afterRefusals [a, a'] rest (resultHeaderReady data inLoop s))) := by
  have htwo : retryReset s.params.role = 2 := by rw [hrole]; rfl
  rw [putResult_attempts, runOn_attempt_refusedTwice (by rfl) (by exact htwo) (by exact hw) ha ha']

end

end Sys2Proof.Machine

namespace Sys2Proof.Claims

open Sys2Proof Sys2Proof.Machine

/-- Settles O28: the header announces what the data brings, and the request is stored. -/
theorem getCommandStoresTheRequest : Obligations.GetCommandStoresTheRequest := by
  intro id data s rest hready hfit hlength hrx hl
  obtain ⟨hstate, hphase, hjob, hexch⟩ := ready_slave_atRest hready
  rw [exec_getCommand hready, runOn_getCommand_stores ⟨hready, hfit, hlength, hrx, hl⟩]
  simp [finish, requestStored, restState, restPhase, hready.1, hstate, hphase, hjob, hexch]

/-- Settles O30: the header is validated, and the length it announces ends the operation. -/
theorem getCommandRejectsAnOversizeCommand : Obligations.GetCommandRejectsAnOversizeCommand := by
  intro id n after s rest hready hn hrx hl
  obtain ⟨hstate, hphase, hjob, hexch⟩ := ready_slave_atRest hready
  have ⟨hrole, _, hw⟩ := hready
  rw [exec_getCommand hready, runOn_getCommand hready hl,
    runOnFrom_commandHeader_oversize (by rfl) (by exact hw) (by rfl) (by rfl) (by exact hrx) (by exact hn)]
  simp [finish, commandHeaderAwaited, restState, restPhase, hrole, hstate, hphase, hjob, hexch]

/-- Settles O32: both packets accepted end it, and so does the header refused as often as it may be sent. -/
theorem putResultSendsHeaderThenData : Obligations.PutResultSendsHeaderThenData := by
  intro data s a a' rest hready hfits hw
  obtain ⟨hstate, hphase, hjob, hexch⟩ := ready_slave_atRest hready
  have ⟨hrole, _, _⟩ := hready
  refine ⟨fun ha ha' => ?accepted, fun ha ha' => ?refused⟩
  case accepted =>
    have hends : putSucceeded (resultSent data false rest s) = finish .ok .nothing (resultSent data false rest s) := rfl
    rw [exec_putResult hready hfits, runOn_putResult_accepted hrole hw ha ha', hends, runOn_finish]
    simp [finish, resultSent, rhFrame, frameOf, restState, restPhase, hrole, hstate, hphase, hjob, hexch]
  case refused =>
    have hends : ∀ u : State, u.job = .replyHeader data false → exchangeFailed .timeout u = finish .timeout .nothing u :=
      fun u hj => by simp only [exchangeFailed, hj]
    rw [exec_putResult hready hfits, runOn_putResult_headerRefused hrole hw ha ha', hends _ rfl, runOn_finish]
    simp [finish, resultHeaderReady, afterRefusals, rhFrame, frameOf, retryReset, restState, restPhase, hrole, hstate, hphase,
      hjob, hexch]

end Sys2Proof.Claims

/-! ## `44_slave.md` R231 to R235: LOOP run to its end -/

namespace Sys2Proof.Machine

open Sys2Proof.Claims

/-! ### A command comes (R231) -/

/-- LOOP in S_HANDLER, the command's handler invoked. -/
def handlerInvoked (h : Handler) (s : State) : State :=
  { s with
    state := .dispatching
    phase := .sHandler
    job := .handler h
    exch := .idle
    frame := []
    calls := s.calls ++ [⟨.dispatching, .sHandler, .invoke h evCommand s.bufLen⟩] }

section
variable {s : State} {id : Word} {h : Handler} {data : List Byte} {more : List LinkEvent}

theorem dispatch_notFound (hnone : lookup id s = none) :
    dispatch id s = finish .notFound .nothing (clearDeferred { s with state := .dispatching, phase := .sFind }) := by
  simp only [dispatch, hnone, dispatchFound]

/-- The request stored, LOOP turns to the lookup. -/
theorem exec_loop_received (hc : CommandComes id data more s) :
    exec .loop s =
      runOn (dispatch id
        { commandDataTaken id data true more s with
          buf := writeBytes s.buf 0 data, bufLen := lengthWord data, curRpcId := id }) := by
  rw [exec_loop hc.ready, runOn_getCommand_received hc, getSucceeded_recvData_inLoop (by rfl) (by exact hc.fits),
    runOnFrom_next]
  rfl

theorem exec_loop_found (hc : CommandComes id data more s) (hfound : lookup id s = some h) :
    exec .loop s = runOn (handlerInvoked h (requestStored id data more s)) := by
  rw [exec_loop_received hc, dispatch_found (by exact hfound)]
  rfl

theorem exec_loop_notFound (hc : CommandComes id data more s) (hnone : lookup id s = none) :
    exec .loop s = .next (finish .notFound .nothing (clearDeferred (requestStored id data more s))) := by
  rw [exec_loop_received hc, dispatch_notFound (by exact hnone), runOn_finish]
  rfl

end

/-! ### A handler runs (R222) -/

section
variable {s s' : State} {h : Handler} {code : Word} {requests : List (List Byte)} {stores : List (Nat × Byte)}
  {runs : List HandlerRun}

@[simp] theorem handlerRequests_nil (s : State) : handlerRequests [] s = .next s := rfl

/-- A running handler's SCHEDULE_CALLBACK completes, and control returns to it (R261). -/
theorem handlerRequests_schedule {work : Handler} (hrole : s.params.role = .slave)
    (hrunning : s.phase = .sHandler ∨ s.phase = .sDeferred) (hfits : Handler.fits s.params.handlerW work = true) :
    handlerRequests [encode s.params.formats (.scheduleCallback work)] s = .next (scheduleCallback work s) := by
  have hdecodes : decodeRequest s.params.formats (encode s.params.formats (.scheduleCallback work)) =
      .ok (.scheduleCallback work) := by
    simpa using decodeRequest_encode (f := s.params.formats) (i := .scheduleCallback work) [] rfl hfits
  simp only [handlerRequests, handlerRequest, hdecodes,
    gate_registrationAccepted (i := .scheduleCallback work) ⟨hrole, Or.inr hrunning⟩ rfl rfl]

/-- The requests served and the stores made, the handler returns its code. -/
theorem onHandler_returns (hrequests : handlerRequests requests s = .next s')
    (hstores : ∀ c ∈ stores, c.1 < s'.params.bufCap) :
    onHandler (.returns requests stores code) s = handlerReturned code { s' with buf := writeCells s'.buf stores } := by
  have hinside : stores.all (fun c => decide (c.1 < s'.params.bufCap)) = true := by simpa using hstores
  simp only [onHandler, hrequests, bufStores, if_pos hinside]

theorem runOn_handler_returns (hwaits : s.waiting = .handler) (hruns : s.handlers = .returns requests stores code :: runs)
    (hrequests : handlerRequests requests { s with handlers := runs } = .next s')
    (hstores : ∀ c ∈ stores, c.1 < s'.params.bufCap) :
    runOn s = runOnFrom (handlerReturned code { s' with buf := writeCells s'.buf stores }) := by
  rw [runOn_handler hwaits hruns, onHandler_returns hrequests hstores]

/-- R232: a code above `BUF_CAP` ends LOOP. -/
theorem handlerReturned_oversize (hj : s.job = .handler h) (hcode : s.params.bufCap < code.toNat) :
    handlerReturned code s = .next (finish .lenOverflow .nothing (clearDeferred s)) := by
  simp only [handlerReturned, hj, if_pos hcode]

/-- R223: of a code that fits as many bytes of `BUF` are the reply. -/
theorem handlerReturned_replies (hj : s.job = .handler h) (hcode : code.toNat ≤ s.params.bufCap) :
    handlerReturned code s = .next (putResult (readBytes s.buf 0 code.toNat) true { s with bufLen := code }) := by
  simp [handlerReturned, hj, bufRead, hcode, Nat.not_lt.mpr hcode]

/-- R233: the code of a deferred handler is ignored. -/
theorem handlerReturned_deferred (hj : s.job = .deferred h) : handlerReturned code s = .next (finish .ok .nothing s) := by
  simp only [handlerReturned, hj]

end

/-! ### The reply and what comes after it (R233) -/

/-- The command's handler has served its requests, which led to `s`, made these stores and returned this code. -/
def handlerDone (stores : List (Nat × Byte)) (code : Word) (s : State) : State :=
  { s with buf := writeCells s.buf stores, bufLen := code }

section
variable {s s' : State} {id code : Word} {h : Handler} {data : List Byte} {requests : List (List Byte)}
  {stores : List (Nat × Byte)} {more : List LinkEvent} {runs : List HandlerRun}

/-- The length of a reply is the code (R223). -/
theorem lengthWord_readBytes (m : Memory) (code : Word) : lengthWord (readBytes m 0 code.toNat) = code := by
  simp [lengthWord]

/-- The command's handler returns a code that fits: LOOP goes on to send the reply. -/
theorem runOn_handler_replies (hwaits : s.waiting = .handler) (hruns : s.handlers = .returns requests stores code :: runs)
    (hrequests : handlerRequests requests { s with handlers := runs } = .next s') (hj : s'.job = .handler h)
    (hstores : ∀ c ∈ stores, c.1 < s'.params.bufCap) (hcode : code.toNat ≤ s'.params.bufCap) :
    runOn s = runOn (putResult (readBytes (writeCells s'.buf stores) 0 code.toNat) true (handlerDone stores code s')) := by
  rw [runOn_handler_returns hwaits hruns hrequests hstores, handlerReturned_replies (by exact hj) (by exact hcode),
    runOnFrom_next]
  rfl

/-- The requests of the command's handler led to `s'`, and its code fits. -/
theorem exec_loop_replies (hc : CommandComes id data more s)
    (hfound : lookup id s = some h) (hruns : s.handlers = .returns requests stores code :: runs)
    (hrequests : handlerRequests requests { handlerInvoked h (requestStored id data more s) with handlers := runs } = .next s')
    (hj : s'.job = .handler h) (hstores : ∀ c ∈ stores, c.1 < s'.params.bufCap) (hcode : code.toNat ≤ s'.params.bufCap) :
    exec .loop s =
      runOn (putResult (readBytes (writeCells s'.buf stores) 0 code.toNat) true (handlerDone stores code s')) := by
  rw [exec_loop_found hc hfound, runOn_handler_replies (by rfl) (by exact hruns) hrequests hj hstores hcode]

/-- A failed reply ends LOOP and discards the slot. -/
theorem exchangeFailed_reply (f : Status) (hj : (∃ reply, s.job = .replyHeader reply true) ∨ s.job = .replyData true) :
    exchangeFailed f s = finish f .nothing (clearDeferred s) := by
  rcases hj with ⟨reply, hj⟩ | hj <;> simp only [exchangeFailed, hj]

/-- LOOP in S_DEFERRED, the slot taken and its handler invoked. -/
def deferredInvoked (s : State) : State :=
  { s with
    phase := .sDeferred
    job := .deferred s.defHandler
    exch := .idle
    frame := []
    defValid := false
    calls := s.calls ++ [⟨s.state, .sDeferred, .invoke s.defHandler evDeferred 0⟩] }

theorem putSucceeded_reply (hj : s.job = .replyData true) : putSucceeded s = afterReply s := by
  simp only [putSucceeded, hj]

/-- With an empty slot LOOP is over. -/
theorem runOn_afterReply_empty (hslot : s.defValid = false) :
    runOn (afterReply s) = .next (finish .ok .nothing (clearDeferred s)) := by
  rw [afterReply, hslot, if_neg Bool.false_ne_true, runOn_finish]

/-- With a full one its handler runs, and LOOP is over when it returns. -/
theorem runOn_afterReply_deferred (hslot : s.defValid = true) (hruns : s.handlers = .returns requests stores code :: runs)
    (hrequests : handlerRequests requests { deferredInvoked s with handlers := runs } = .next s')
    (hj : s'.job = .deferred h) (hstores : ∀ c ∈ stores, c.1 < s'.params.bufCap) :
    runOn (afterReply s) = .next (finish .ok .nothing { s' with buf := writeCells s'.buf stores }) := by
  have hinvokes : afterReply s = deferredInvoked s := by rw [afterReply, if_pos hslot]; rfl
  rw [hinvokes, runOn_handler_returns (by rfl) (by exact hruns) hrequests hstores, handlerReturned_deferred (by exact hj),
    runOnFrom_next, runOn_finish]

/-- The whole answer: the command's requests led to `s'`, and both packets of the reply were accepted. -/
theorem exec_loop_replied {a a' : WriteAnswer} {rest : List WriteAnswer} (hc : CommandComes id data more s)
    (hfound : lookup id s = some h) (hruns : s.handlers = .returns requests stores code :: runs)
    (hrequests : handlerRequests requests { handlerInvoked h (requestStored id data more s) with handlers := runs } = .next s')
    (hrole : s'.params.role = .slave) (hj : s'.job = .handler h) (hstores : ∀ c ∈ stores, c.1 < s'.params.bufCap)
    (hcode : code.toNat ≤ s'.params.bufCap) (hw : s'.writes = a :: a' :: rest) (ha : a.ok = true) (ha' : a'.ok = true) :
    exec .loop s =
      runOn (afterReply
        (resultSent (readBytes (writeCells s'.buf stores) 0 code.toNat) true rest (handlerDone stores code s'))) := by
  rw [exec_loop_replies hc hfound hruns hrequests hj hstores hcode,
    runOn_putResult_accepted (by exact hrole) (by exact hw) ha ha', putSucceeded_reply (by rfl)]

end

/-! ### No command comes (R212) -/

/-- A `TRead` that times out leaves the failure of its attempt, and the loop goes round. -/
theorem runOnFrom_expire {s : State} {kind : Kind} {n : Word} {long : Option Word} {last : Status} {k : Nat}
    (hx : s.exch = .get kind n long last) :
    runOnFrom (onLink (.expire k) s) = runOn (attempt { s with rx := s.rx.drop k, exch := .get kind n long .timeout }) := by
  have hexpires : onExpire k s = attempt (setLast .timeout { s with rx := s.rx.drop k }) := by
    unfold onExpire; rw [hx]
  rw [onLink, runOnFrom_next, hexpires, setLast_get (by exact hx)]

end Sys2Proof.Machine

namespace Sys2Proof.Claims

open Sys2Proof Sys2Proof.Machine

/-- Settles O36: the handler's code and stores make the reply, and with an empty slot nothing follows it. -/
theorem loopAnswersACommand : Obligations.LoopAnswersACommand := by
  intro id code data h stores s more runs a a' rest hready hfit hlength hrx hl hfound hruns hstores hcode hslot hw ha ha'
  obtain ⟨hstate, hphase, hjob, hexch⟩ := ready_slave_atRest hready
  have ⟨hrole, _, _⟩ := hready
  rw [exec_loop_replied ⟨hready, hfit, hlength, hrx, hl⟩ hfound hruns (handlerRequests_nil _) hrole rfl hstores hcode hw ha ha',
    runOn_afterReply_empty (by exact hslot)]
  simp [finish, clearDeferred, resultSent, handlerDone, handlerInvoked, requestStored, lengthWord_readBytes, evCommand, rhFrame,
    frameOf, restState, restPhase, hrole, hstate, hphase, hjob, hexch, hslot]

/-- Settles O37: the request of the command's handler replaces what the slot held, and the slot is taken after the reply. -/
theorem loopRunsWorkItsHandlerScheduled : Obligations.LoopRunsWorkItsHandlerScheduled := by
  intro id code code' data h work stores stores' s more runs a a' rest hready hfit hlength hrx hl hfound hwork hruns hstores
    hstores' hcode hw ha ha'
  obtain ⟨hstate, hphase, hjob, hexch⟩ := ready_slave_atRest hready
  have ⟨hrole, _, _⟩ := hready
  rw [exec_loop_replied ⟨hready, hfit, hlength, hrx, hl⟩ hfound hruns
      (handlerRequests_schedule (by exact hrole) (Or.inl rfl) (by exact hwork)) hrole rfl hstores hcode hw ha ha',
    runOn_afterReply_deferred (by rfl) (by rfl) (handlerRequests_nil _) (by rfl) (by exact hstores')]
  simp [finish, scheduleCallback, completeInPlace, deferredInvoked, resultSent, handlerDone, handlerInvoked, requestStored,
    lengthWord_readBytes, evCommand, evDeferred, rhFrame, frameOf, restState, restPhase, hrole, hstate, hphase, hjob, hexch]

/-- Settles O38: the slot is cleared when its handler is invoked, so what that handler schedules stays. -/
theorem loopRunsTheDeferredHandlerOnce : Obligations.LoopRunsTheDeferredHandlerOnce := by
  intro id code code' data h again stores s more runs a a' rest hready hfit hlength hrx hl hfound hslot hagain hruns hstores
    hcode hw ha ha'
  obtain ⟨hstate, hphase, hjob, hexch⟩ := ready_slave_atRest hready
  have ⟨hrole, _, _⟩ := hready
  rw [exec_loop_replied ⟨hready, hfit, hlength, hrx, hl⟩ hfound hruns (handlerRequests_nil _) hrole rfl hstores hcode hw ha ha',
    runOn_afterReply_deferred (by exact hslot) (by rfl)
      (handlerRequests_schedule (by exact hrole) (Or.inr rfl) (by exact hagain)) (by rfl) (by simp)]
  simp [finish, scheduleCallback, completeInPlace, deferredInvoked, resultSent, handlerDone, handlerInvoked, requestStored,
    writeCells, lengthWord_readBytes, evCommand, evDeferred, rhFrame, frameOf, restState, restPhase, hrole, hstate, hphase,
    hjob, hexch]

/-- Settles O39: the lookup finds nothing, and LOOP ends there. -/
theorem loopDropsAnUnregisteredCommand : Obligations.LoopDropsAnUnregisteredCommand := by
  intro id data s more hready hfit hlength hrx hl habsent
  obtain ⟨hstate, hphase, hjob, hexch⟩ := ready_slave_atRest hready
  rw [exec_loop_notFound ⟨hready, hfit, hlength, hrx, hl⟩ (lookup_none.mpr habsent)]
  simp [finish, clearDeferred, requestStored, restState, restPhase, hready.1, hstate, hphase, hjob, hexch]

/-- Settles O40: each of the two reads times out, whatever it consumed, and no attempt is left. -/
theorem loopWithoutACommandKeepsTheSlot : Obligations.LoopWithoutACommandKeepsTheSlot := by
  intro s k k' more hready hl
  obtain ⟨hstate, hphase, hjob, hexch⟩ := ready_slave_atRest hready
  have ⟨hrole, _, hw⟩ := hready
  rw [exec_loop hready, runOn_getCommand hready hl, runOnFrom_expire (by rfl),
    runOn_attempt_read (by rfl) (by exact nofun) (by rfl), issue_get (by rfl), runOnFrom_expire (by rfl),
    attempt_exhausted (by rfl) (by exact BitVec.sub_self 1),
    exchangeFailed_not_replying (by exact nofun) (by exact nofun), runOn_finish]
  simp [finish, commandHeaderAwaited, restState, restPhase, hrole, hstate, hphase, hjob, hexch, chPayloadLen_toNat hw]

/-- Settles O41: the code is tested before anything is sent. -/
theorem loopRejectsAnOversizeCode : Obligations.LoopRejectsAnOversizeCode := by
  intro id code data h stores s more runs hready hfit hlength hrx hl hfound hruns hstores hcode
  obtain ⟨hstate, hphase, hjob, hexch⟩ := ready_slave_atRest hready
  rw [exec_loop_found ⟨hready, hfit, hlength, hrx, hl⟩ hfound, runOn_handler_returns (by rfl) (by exact hruns) (handlerRequests_nil _) (by exact hstores),
    handlerReturned_oversize (by rfl) (by exact hcode), runOnFrom_next, runOn_finish]
  simp [finish, clearDeferred, handlerInvoked, requestStored, evCommand, restState, restPhase, hready.1, hstate, hphase, hjob,
    hexch]

/-- Settles O42: at either packet two refusals are all the attempts there are, and a failed reply ends LOOP. -/
theorem loopDiscardsTheSlotWhenTheReplyFails : Obligations.LoopDiscardsTheSlotWhenTheReplyFails := by
  intro id code data h s more runs a a' rest hready hfit hlength hrx hl hfound hruns hcode ha ha'
  obtain ⟨hstate, hphase, hjob, hexch⟩ := ready_slave_atRest hready
  have ⟨hrole, _, _⟩ := hready
  have hreplying := exec_loop_replies ⟨hready, hfit, hlength, hrx, hl⟩ hfound hruns (handlerRequests_nil _) rfl (by simp) hcode
  refine ⟨fun hw => ?header, fun first reply hfirst hw hreply => ?data⟩
  case header =>
    rw [hreplying, runOn_putResult_headerRefused (by exact hrole) (by exact hw) ha ha', exchangeFailed_reply _ (Or.inl ⟨_, rfl⟩),
      runOn_finish]
    simp [finish, clearDeferred, afterRefusals, resultHeaderReady, handlerDone, handlerInvoked, requestStored, writeCells,
      lengthWord_readBytes, evCommand, rhFrame, frameOf, retryReset, restState, restPhase, hrole, hstate, hphase, hjob, hexch]
  case data =>
    rw [hreplying, runOn_putResult_headerAccepted (by exact hrole) (by exact hw) hfirst,
      runOn_attempt_refusedTwice (by rfl) (by rfl) (by rfl) ha ha', exchangeFailed_reply _ (Or.inr rfl), runOn_finish, hreply]
    simp [finish, clearDeferred, afterRefusals, resultHeaderSent, handlerDone, handlerInvoked, requestStored, writeCells,
      lengthWord_readBytes, evCommand, rhFrame, frameOf, restState, restPhase, hrole, hstate, hphase, hjob, hexch]

end Sys2Proof.Claims

/-! ## `44_slave.md` R210, R213, R214: what a GET_COMMAND that fails leaves alone, and frames between operations -/

namespace Sys2Proof.Machine

open Sys2Proof.Claims

/-! ### A GET_COMMAND on its way (R213, R214)

Until the request is stored, which is the end of the operation, `BUF`, `BUF_LEN` and `CUR_RPC_ID` are as they were. -/

/-- GET_COMMAND issued alone is in progress. -/
def Job.getsCommandAlone : Job → Prop
  | .recvHeader false | .recvData _ false => True
  | _ => False

/-- Since `s` nothing was sent and no `TWrite` issued. -/
structure SentNothing (s u : State) : Prop where
  tx : u.tx = s.tx
  writes : u.calls.filter isWrite = s.calls.filter isWrite

/-- The registers of the request are as in `s`. -/
structure RequestKept (s u : State) : Prop where
  buf : u.buf = s.buf
  bufLen : u.bufLen = s.bufLen
  curRpcId : u.curRpcId = s.curRpcId

/-- GET_COMMAND issued alone in `s` is receiving, without a deadline. -/
structure Receiving (s u : State) : Prop where
  job : u.job.getsCommandAlone
  exch : ∃ kind n last, u.exch = .get kind n none last
  sent : SentNothing s u
  kept : RequestKept s u

/-- The stage a GET_COMMAND issued alone in `s` has reached. -/
inductive CommandStage (s u : State) : Prop
  | receiving (h : Receiving s u)
  | ended (hrest : u.inProgress = false) (hsent : SentNothing s u) (hkept : u.status ≠ .ok → RequestKept s u)

section
variable {s u : State}

/-- Where the request is stored, success is what the operation ends with. -/
theorem finish_ok_commandStage (r : Result) (hsent : SentNothing s u) : CommandStage s (finish .ok r u) :=
  .ended (finish_not_inProgress _ _ _) ⟨hsent.tx, hsent.writes⟩ fun hne => absurd rfl hne

theorem finish_commandStage (st : Status) (r : Result) (h : Receiving s u) : CommandStage s (finish st r u) := by
  obtain ⟨-, -, ⟨htx, hwrites⟩, ⟨hbuf, hlen, hid⟩⟩ := h
  exact .ended (finish_not_inProgress _ _ _) ⟨htx, hwrites⟩ fun _ => ⟨hbuf, hlen, hid⟩

theorem exchangeFailed_commandStage (f : Status) (h : Receiving s u) : CommandStage s (exchangeFailed f u) := by
  have hjob := h.job
  have hheader : ∀ data inLoop, u.job ≠ .replyHeader data inLoop := fun data inLoop hj => by rw [hj] at hjob; exact hjob
  have hdata : ∀ inLoop, u.job ≠ .replyData inLoop := fun inLoop hj => by rw [hj] at hjob; exact hjob
  rw [exchangeFailed_not_replying hheader hdata]
  exact finish_commandStage _ _ h

/-- An attempt of a receiving exchange is a `TRead`. -/
theorem issue_receiving (h : Receiving s u) : Receiving s (issue u) := by
  obtain ⟨hjob, ⟨kind, n, last, hx⟩, ⟨htx, hwrites⟩, ⟨hbuf, hlen, hid⟩⟩ := h
  have hread : (issue u).calls.filter isWrite = u.calls.filter isWrite := by
    rw [issue_get hx, List.filter_append, List.filter_cons_of_neg (by exact Bool.false_ne_true)]
    exact List.append_nil _
  exact ⟨hjob, ⟨kind, n, last, hx⟩, ⟨htx, hread.trans hwrites⟩, ⟨hbuf, hlen, hid⟩⟩

theorem attempt_commandStage (h : Receiving s u) : CommandStage s (attempt u) := by
  obtain ⟨kind, n, last, hx⟩ := h.exch
  by_cases hnone : u.retryCnt = 0
  · rw [attempt_exhausted hx hnone]
    exact exchangeFailed_commandStage _ h
  · rw [attempt_get_none hx hnone]
    exact .receiving (issue_receiving h)

/-- Another exchange of GET_COMMAND starts. -/
theorem getPacket_commandStage {phase : Phase} {job : Job} (kind : Kind) (n : Word) (hj : job.getsCommandAlone)
    (hsent : SentNothing s u) (hkept : RequestKept s u) :
    CommandStage s (getPacket kind n none { u with phase := phase, job := job }) := by
  obtain ⟨htx, hwrites⟩ := hsent
  obtain ⟨hbuf, hlen, hid⟩ := hkept
  exact attempt_commandStage ⟨hj, ⟨kind, n, .timeout, rfl⟩, ⟨htx, hwrites⟩, ⟨hbuf, hlen, hid⟩⟩

/-- The command-header validated, GET_COMMAND ends or reads the command-data; the command-data validated, it stores the request and
ends. -/
theorem getSucceeded_commandStage (payload : List Byte) (h : Receiving s u) :
    NextHas (CommandStage s) (getSucceeded payload u) := by
  have hjob := h.job
  cases hj : u.job with
  | recvHeader inLoop =>
    cases inLoop with
    | true => rw [hj] at hjob; exact hjob.elim
    | false =>
      simp only [getSucceeded, hj]
      refine nextHas_next ?_
      split
      · exact finish_commandStage _ _ h
      · exact getPacket_commandStage _ _ trivial h.sent h.kept
  | recvData id inLoop =>
    cases inLoop with
    | true => rw [hj] at hjob; exact hjob.elim
    | false =>
      simp only [getSucceeded, hj, commandReceived]
      split
      · exact nextHas_fault
      · next s1 hw =>
        obtain ⟨-, rfl⟩ := bufWrite_some hw
        exact nextHas_next (finish_ok_commandStage _ ⟨h.sent.tx, h.sent.writes⟩)
  | _ => rw [hj] at hjob; exact hjob.elim

/-- Of the receiving state, the stream, FRAME and the inputs may change. -/
theorem Receiving.congr {v : State} (h : Receiving s u) (hj : v.job = u.job) (hx : v.exch = u.exch) (htx : v.tx = u.tx)
    (hcalls : v.calls = u.calls) (hbuf : v.buf = u.buf) (hlen : v.bufLen = u.bufLen) (hid : v.curRpcId = u.curRpcId) :
    Receiving s v :=
  ⟨hj ▸ h.job, hx ▸ h.exch, ⟨htx.trans h.sent.tx, hcalls ▸ h.sent.writes⟩,
    ⟨hbuf.trans h.kept.buf, hlen.trans h.kept.bufLen, hid.trans h.kept.curRpcId⟩⟩

/-- A failure of an attempt is remembered, and the loop goes round. -/
theorem attempt_setLast_commandStage (f : Status) (h : Receiving s u) : CommandStage s (attempt (setLast f u)) := by
  obtain ⟨hjob, ⟨kind, n, last, hx⟩, ⟨htx, hwrites⟩, ⟨hbuf, hlen, hid⟩⟩ := h
  rw [setLast_get hx]
  exact attempt_commandStage ⟨hjob, ⟨kind, n, f, rfl⟩, ⟨htx, hwrites⟩, ⟨hbuf, hlen, hid⟩⟩

theorem onFrame_commandStage (kind : Kind) (frame : List Byte) (h : Receiving s u) :
    NextHas (CommandStage s) (onFrame kind frame u) := by
  unfold onFrame
  split
  · exact getSucceeded_commandStage _ (h.congr rfl rfl rfl rfl rfl rfl rfl)
  · exact nextHas_next (attempt_setLast_commandStage _ h)

theorem onLink_commandStage (e : LinkEvent) (h : Receiving s u) : NextHas (CommandStage s) (onLink e u) := by
  have hrx : ∀ rx, Receiving s { u with rx := rx } := fun _ => h.congr rfl rfl rfl rfl rfl rfl rfl
  cases e with
  | arrive bytes =>
    show NextHas _ (onArrive bytes u)
    unfold onArrive
    split
    · split
      · exact onFrame_commandStage _ _ (hrx _)
      · exact nextHas_next (.receiving (hrx _))
    · exact nextHas_next (.receiving (hrx _))
  | expire eaten =>
    refine nextHas_next ?_
    unfold onExpire
    split
    · exact attempt_setLast_commandStage _ (hrx _)
    · exact .receiving h
  | lose count => exact nextHas_next (.receiving (hrx _))

theorem Receiving.waiting (h : Receiving s u) : ∃ n, u.waiting = .read n := by
  obtain ⟨kind, n, last, hx⟩ := h.exch
  exact ⟨frameLength n, by simp only [State.waiting, hx]⟩

/-- What a GET_COMMAND waits for is a `TRead`; when it has ended it waits for nobody. -/
theorem CommandStage.receiving_of_waiting (h : CommandStage s u) (hw : u.waiting ≠ .nobody) : Receiving s u := by
  cases h with
  | receiving h => exact h
  | ended hrest _ _ =>
    obtain ⟨-, -, hjob, hexch⟩ := inProgress_false hrest
    exact absurd (by simp only [State.waiting, hjob, hexch]) hw

theorem CommandStage.waiting_cases (h : CommandStage s u) : u.waiting = .nobody ∨ ∃ n, u.waiting = .read n := by
  by_cases hw : u.waiting = .nobody
  · exact Or.inl hw
  · exact Or.inr (h.receiving_of_waiting hw).waiting

theorem runOn_commandStage (h : CommandStage s u) : NextHas (CommandStage s) (runOn u) := by
  refine runFor_has_awaited (P := CommandStage s) ?clock ?write ?link ?handler _ h
  case clock =>
    intro v d rest hw hv
    rcases hv.waiting_cases with hn | ⟨n, hn⟩ <;> exact nomatch hn.symm.trans hw
  case write =>
    intro v a rest hw hv
    rcases hv.waiting_cases with hn | ⟨n, hn⟩ <;> exact nomatch hn.symm.trans hw
  case link =>
    intro v n e rest hw hv
    have hreceiving := hv.receiving_of_waiting (by rw [hw]; nofun)
    exact onLink_commandStage e (hreceiving.congr rfl rfl rfl rfl rfl rfl rfl)
  case handler =>
    intro v r rest hw hv
    rcases hv.waiting_cases with hn | ⟨n, hn⟩ <;> exact nomatch hn.symm.trans hw

/-- While it is in progress, and when it has failed, GET_COMMAND has stored nothing. -/
theorem CommandStage.kept (h : CommandStage s u) (hu : u.inProgress = true ∨ u.status ≠ .ok) : RequestKept s u := by
  cases h with
  | receiving h => exact h.kept
  | ended hrest _ hkept => exact hkept (hu.resolve_left (by rw [hrest]; nofun))

theorem CommandStage.sent (h : CommandStage s u) : SentNothing s u := by
  cases h with
  | receiving h => exact h.sent
  | ended _ hsent _ => exact hsent

end

end Sys2Proof.Machine

namespace Sys2Proof.Claims

open Sys2Proof Sys2Proof.Machine

/-- Settles O29: GET_COMMAND starts with nothing sent and nothing stored, and every answer keeps the stage it has reached. -/
theorem failedGetCommandLeavesTheBuffer : Obligations.FailedGetCommandLeavesTheBuffer := by
  intro s t hready hexec
  have hstart : CommandStage s (getCommand false s) := getPacket_commandStage _ _ trivial ⟨rfl, rfl⟩ ⟨rfl, rfl, rfl⟩
  have hend : CommandStage s t := runOn_commandStage hstart t ((exec_getCommand hready).symm.trans hexec)
  obtain ⟨htx, hwrites⟩ := hend.sent
  refine ⟨fun hfailed => ?_, htx, hwrites⟩
  obtain ⟨hbuf, hlen, hid⟩ := hend.kept hfailed
  exact ⟨hbuf, hlen, hid⟩

/-- Settles O43: with no `TRead` in progress what arrives is appended to the stream, and nothing waits for it. -/
theorem framesBetweenOperationsStayInTheStream : Obligations.FramesBetweenOperationsStayInTheStream := by
  intro i s hi hrest
  obtain ⟨-, -, hjob, hexch⟩ := inProgress_false hrest
  have hstays : onArrive (encode s.params.formats i) s = .next { s with rx := s.rx ++ encode s.params.formats i } := by
    simp only [onArrive, hexch]
  have hnobody : State.waiting { s with rx := s.rx ++ encode s.params.formats i } = .nobody := by
    simp only [State.waiting, hexch, hjob]
  rw [exec_frame_delivers hi, deliver, hstays, runOnFrom_next, runOn_nobody hnobody]

end Sys2Proof.Claims

/-! ## `60_exceptions.md` R263: requests with no meaning, and what can stop a step -/

namespace Sys2Proof.Machine

/-! ### What the gate stops (R263) -/

/-- R263 (a). -/
theorem gate_requestInProgress {i : Instr} {s : State} {run : State → Out} (hbad : isBadOp s.params.role i = false)
    (hreg : isRegistration i = false) (hp : s.inProgress = true) : gate i s run = .fault .requestInProgress := by
  simp [gate, hbad, hreg, hp]

/-- R263 (b). -/
theorem gate_registrationOutOfTurn {i : Instr} {s : State} {run : State → Out} (hbad : isBadOp s.params.role i = false)
    (hreg : isRegistration i = true) (hp : s.inProgress = true) (hturn : s.handlerRunning = false) :
    gate i s run = .fault .registrationOutOfTurn := by
  simp [gate, hbad, hreg, hp, hturn]

/-- The slave has both registrations (R113). -/
theorem isBadOp_registration {i : Instr} (h : isRegistration i = true) : isBadOp .slave i = false ∧ i.isRequest = true := by
  cases i with
  | registerCallback | scheduleCallback => exact ⟨rfl, rfl⟩
  | _ => cases h

/-- Only an operation in progress is at a port primitive. -/
theorem inProgress_of_waiting {s : State} (h : s.waiting ≠ .nobody) : s.inProgress = true := by
  by_contra hrest
  obtain ⟨-, -, hjob, hexch⟩ := inProgress_false (Bool.eq_false_iff.mpr hrest)
  exact h (by simp only [State.waiting, hjob, hexch])

/-- The listed run of the invoked handler takes place. -/
theorem step_handler {s : State} {r : HandlerRun} {more : List HandlerRun} (hwaits : s.waiting = .handler)
    (hruns : s.handlers = r :: more) : step s = runOnFrom (onHandler r { s with handlers := more }) := by
  rw [step_eq_out, fetch_handler hwaits]
  simp only [fetchHandler, hruns, Fetched.out]

/-- A run whose first request faults faults with it. -/
theorem onHandler_firstFault {r : List Byte} {rs : List (List Byte)} {stores : List (Nat × Byte)} {code : Word} {s : State}
    {f : Fault} (h : handlerRequest r s = .fault f) : onHandler (.returns (r :: rs) stores code) s = .fault f := by
  simp only [onHandler, handlerRequests, h]

end Sys2Proof.Machine

namespace Sys2Proof.Claims

open Sys2Proof Sys2Proof.Machine

/-- Settles O14: the gate stops both kinds of request, whoever issues them; a handler that hangs stops the step itself. -/
theorem requestsWithoutMeaningFault : Obligations.RequestsWithoutMeaningFault := by
  refine ⟨?host, ?handler, ?registration, ?hangs⟩
  case host =>
    intro i s hi hreg hbad hp
    rcases exec_request hi s with e | e <;> rw [e, gate_requestInProgress hbad hreg hp]
  case handler =>
    intro i s r rs stores code more hwaits hruns hdecode hreg hbad
    have hp : State.inProgress { s with handlers := more } = true := inProgress_of_waiting (s := s) (by rw [hwaits]; nofun)
    have hfault : handlerRequest r { s with handlers := more } = .fault .requestInProgress := by
      simp only [handlerRequest, hdecode]
      exact gate_requestInProgress hbad hreg hp
    rw [step_handler hwaits hruns, onHandler_firstFault hfault, runOnFrom_fault]
  case registration =>
    intro i s hreg hslave hp hcommand hdeferred
    obtain ⟨hgood, hi⟩ := isBadOp_registration hreg
    have hturn : s.handlerRunning = false := decide_eq_false (not_or.mpr ⟨hcommand, hdeferred⟩)
    rcases exec_request hi s with e | e <;> rw [e, gate_registrationOutOfTurn (hslave ▸ hgood) hreg hp hturn]
  case hangs =>
    intro s more hwaits hruns
    rw [step_handler hwaits hruns]
    rfl

end Sys2Proof.Claims

/-! ## `60_exceptions.md` R263: from a state with the invariant only a handler stops a step -/

namespace Sys2Proof

/-! ### Why a request does not decode (R114, log 14) -/

/-- A reader of a request fails for one of these reasons; the other reasons are those of frames. -/
def FailsAsRequest {α : Type} (x : Except DecodeError α) : Prop :=
  ∀ e, x = .error e → e = .unknownOp ∨ e = .badKind ∨ e = .malformed

section
variable {α β : Type}

theorem failsAsRequest_ok (a : α) : FailsAsRequest (.ok a) := nofun

theorem failsAsRequest_pure (a : α) : FailsAsRequest (pure a) := nofun

theorem failsAsRequest_malformed : FailsAsRequest (.error .malformed : Except DecodeError α) := by
  rintro e ⟨⟩; exact Or.inr (Or.inr rfl)

theorem FailsAsRequest.bind {x : Except DecodeError α} {f : α → Except DecodeError β} (hx : FailsAsRequest x)
    (hf : ∀ a, FailsAsRequest (f a)) : FailsAsRequest (x >>= f) := by
  cases x with
  | ok a => exact hf a
  | error d => rintro e ⟨⟩; exact hx _ rfl

end

theorem takeByte_fails (b : List Byte) : FailsAsRequest (takeByte b) := by
  cases b with
  | nil => exact failsAsRequest_malformed
  | cons c r => exact failsAsRequest_ok _

theorem takeWord_fails (b : List Byte) : FailsAsRequest (takeWord b) := by
  unfold takeWord
  split
  · exact failsAsRequest_malformed
  · exact failsAsRequest_ok _

theorem takeSeq_fails (b : List Byte) : FailsAsRequest (takeSeq b) := by
  have hword := takeWord_fails b
  unfold takeSeq
  split
  · next he => rintro e ⟨⟩; exact hword _ he
  · split
    · exact failsAsRequest_malformed
    · exact failsAsRequest_ok _

theorem takeKind_fails (b : List Byte) : FailsAsRequest (takeKind b) := by
  have hbyte := takeByte_fails b
  unfold takeKind
  split
  · next he => rintro e ⟨⟩; exact hbyte _ he
  · split
    · exact failsAsRequest_ok _
    · rintro e ⟨⟩; exact Or.inr (Or.inl rfl)

theorem takeLong_fails (b : List Byte) : FailsAsRequest (takeLong b) := by
  have hbyte := takeByte_fails b
  unfold takeLong
  split
  · next he => rintro e ⟨⟩; exact hbyte _ he
  · next c r _ =>
    have hword := takeWord_fails r
    split
    · exact failsAsRequest_ok _
    · split
      · split
        · next he => rintro e ⟨⟩; exact hword _ he
        · exact failsAsRequest_ok _
      · exact failsAsRequest_malformed

theorem takeHandler_fails (width : Nat) (b : List Byte) : FailsAsRequest (takeHandler width b) := by
  unfold takeHandler
  split
  · exact failsAsRequest_malformed
  · dsimp only
    split
    · exact failsAsRequest_ok _
    · exact failsAsRequest_malformed

/-- Every row of the table reads its operands one after the other. -/
theorem decodeOperands_fails (f : Formats) (op : Nat) (b : List Byte) : FailsAsRequest (decodeOperands f op b) := by
  unfold decodeOperands
  split
  case h_1 => exact (takeSeq_fails b).bind fun _ => failsAsRequest_pure _
  case h_2 => exact (takeKind_fails b).bind fun _ => (takeSeq_fails _).bind fun _ => failsAsRequest_pure _
  case h_3 => exact (takeSeq_fails b).bind fun _ => (takeKind_fails _).bind fun _ => failsAsRequest_pure _
  case h_4 =>
    exact (takeKind_fails b).bind fun _ => (takeSeq_fails _).bind fun _ => (takeLong_fails _).bind fun _ => failsAsRequest_pure _
  case h_5 =>
    exact (takeKind_fails b).bind fun _ => (takeWord_fails _).bind fun _ => (takeLong_fails _).bind fun _ => failsAsRequest_pure _
  case h_6 =>
    exact (takeWord_fails b).bind fun _ => (takeSeq_fails _).bind fun _ => (takeWord_fails _).bind fun _ => failsAsRequest_pure _
  case h_7 => exact (takeWord_fails b).bind fun _ => (takeWord_fails _).bind fun _ => failsAsRequest_pure _
  case h_8 =>
    exact (takeWord_fails b).bind fun _ => (takeSeq_fails _).bind fun _ => (takeWord_fails _).bind fun _ =>
      (takeWord_fails _).bind fun _ => (takeWord_fails _).bind fun _ => failsAsRequest_pure _
  case h_9 => exact failsAsRequest_ok _
  case h_10 => exact (takeWord_fails b).bind fun _ => failsAsRequest_pure _
  case h_11 => exact (takeSeq_fails b).bind fun _ => failsAsRequest_pure _
  case h_12 => exact (takeWord_fails b).bind fun _ => (takeHandler_fails _ _).bind fun _ => failsAsRequest_pure _
  case h_13 => exact (takeHandler_fails _ b).bind fun _ => failsAsRequest_pure _
  case h_14 => exact failsAsRequest_ok _
  case h_15 => rintro e ⟨⟩; exact Or.inl rfl

theorem decodeRequest_fails (f : Formats) (r : List Byte) : FailsAsRequest (decodeRequest f r) := by
  cases r with
  | nil => exact failsAsRequest_malformed
  | cons op b => exact decodeOperands_fails f _ b

end Sys2Proof

namespace Sys2Proof.Machine

/-! ### The ways a step may stop -/

/-- The faults that what a handler does can raise. -/
def Fault.ofHandler (f : Fault) : Prop := f = .handlerDoesNotReturn ∨ f = .bufOutOfRange ∨ f = .requestInProgress

/-- The outcome is a stop only where `atHandler` holds, and then one that a handler's doing raises; or, where `malformed` holds, the
refusal of a malformed request. -/
structure StopsOnly (malformed atHandler : Prop) (o : Out) : Prop where
  fault : ∀ f, o = .fault f → f.ofHandler ∧ atHandler
  refusal : ∀ r, o = .refused r → r = .malformedRequest ∧ (malformed ∨ atHandler)

section
variable {M A : Prop} {s : State}

theorem stopsOnly_next (t : State) : StopsOnly M A (.next t) := ⟨nofun, nofun⟩

theorem stopsOnly_fault {f : Fault} (hf : f.ofHandler) (hA : A) : StopsOnly M A (.fault f) :=
  ⟨by rintro _ ⟨⟩; exact ⟨hf, hA⟩, nofun⟩

theorem stopsOnly_malformed (h : M ∨ A) : StopsOnly M A (.refused .malformedRequest) :=
  ⟨nofun, by rintro _ ⟨⟩; exact ⟨rfl, h⟩⟩

/-- The gate stops only a request that comes while an operation is in progress, a registration only out of turn. -/
theorem gate_stops {i : Instr} {run : State → Out} (hturn : s.inProgress = true → s.handlerRunning = true ∧ A)
    (hrun : isBadOp s.params.role i = false → StopsOnly M A (run s)) : StopsOnly M A (gate i s run) := by
  unfold gate
  split
  · exact stopsOnly_next _
  · next hbad =>
    have hrun := hrun (Bool.eq_false_iff.mpr hbad)
    split
    · split
      · next hout =>
        obtain ⟨hp, hnot⟩ := Bool.and_eq_true_iff.mp hout
        rw [(hturn hp).1] at hnot
        cases hnot
      · exact hrun
    · split
      · next hp => exact stopsOnly_fault (Or.inr (Or.inr rfl)) (hturn hp).2
      · exact hrun

/-! ### A handler's run (R222, R263) -/

/-- A handler is invoked in S_HANDLER or S_DEFERRED (R27). -/
theorem State.Inv.handlerRunning (h : s.Inv) (hw : s.waiting = .handler) : s.handlerRunning = true := by
  have q := h.sequencer
  obtain ⟨hd, hj | hj⟩ := waiting_handler_job hw <;>
    simp only [sequencerLegal, hj, sequencerAt, Bool.and_eq_true, decide_eq_true_eq] at q <;>
    simp [State.handlerRunning, q]

theorem registerCallback_phase (id : Word) (hd : Handler) (s : State) : (registerCallback id hd s).phase = s.phase := by
  obtain ⟨-, -, -, hphase, -⟩ := registerEntry_sequencer id hd s
  exact hphase

/-- A handler stays where it was invoked while its requests are served (R261). -/
theorem handlerRequest_phase (r : List Byte) (s : State) : NextHas (fun t => t.phase = s.phase) (handlerRequest r s) := by
  unfold handlerRequest
  split
  · exact nextHas_next rfl
  · exact nextHas_next rfl
  · exact nextHas_refused
  · refine gate_has rfl fun _ _ _ => ?_
    split
    · exact nextHas_next (registerCallback_phase _ _ s)
    · exact nextHas_next rfl
    · exact nextHas_fault

theorem handlerRequest_stops (hr : s.handlerRunning = true) (hA : A) (r : List Byte) : StopsOnly M A (handlerRequest r s) := by
  unfold handlerRequest
  split
  · exact stopsOnly_next _
  · exact stopsOnly_next _
  · exact stopsOnly_malformed (Or.inr hA)
  · refine gate_stops (fun _ => ⟨hr, hA⟩) fun _ => ?_
    split
    · exact stopsOnly_next _
    · exact stopsOnly_next _
    · exact stopsOnly_fault (Or.inr (Or.inr rfl)) hA

theorem handlerRequests_stops (rs : List (List Byte)) {s : State} (hr : s.handlerRunning = true) (hA : A) :
    StopsOnly M A (handlerRequests rs s) := by
  induction rs generalizing s with
  | nil => exact stopsOnly_next _
  | cons r rs ih =>
    have hfirst : StopsOnly M A (handlerRequest r s) := handlerRequest_stops hr hA r
    unfold handlerRequests
    split
    · next s1 hs =>
      refine ih ?_
      rwa [State.handlerRunning, handlerRequest_phase r s s1 hs]
    · next f hs => exact hs ▸ hfirst
    · next x hs => exact hs ▸ hfirst

theorem handlerReturned_stops (hA : A) (code : Word) (s : State) : StopsOnly M A (handlerReturned code s) := by
  unfold handlerReturned
  split
  · split
    · exact stopsOnly_next _
    · split
      · exact stopsOnly_fault (Or.inr (Or.inl rfl)) hA
      · exact stopsOnly_next _
  · exact stopsOnly_next _
  · exact stopsOnly_next _

theorem onHandler_stops (hr : s.handlerRunning = true) (hA : A) (r : HandlerRun) : StopsOnly M A (onHandler r s) := by
  cases r with
  | hangs => exact stopsOnly_fault (Or.inl rfl) hA
  | returns requests stores code =>
    have hrequests : StopsOnly M A (handlerRequests requests s) := handlerRequests_stops requests hr hA
    unfold onHandler
    dsimp only
    split
    · next f hs => exact hs ▸ hrequests
    · next x hs => exact hs ▸ hrequests
    · split
      · exact stopsOnly_fault (Or.inr (Or.inl rfl)) hA
      · exact handlerReturned_stops hA _ _

/-! ### What arrives stops nothing -/

/-- A validated payload is its frame without marker and checksum (R152). -/
theorem decodePacket_length {p : Params} {kind : Kind} {frame payload : List Byte} (h : decodePacket p kind frame = .ok payload) :
    payload.length = frame.length - frameOverhead := by
  unfold decodePacket at h
  split at h
  · cases h
  · split at h
    · cases h
    · split at h <;> cases h
      simp [frameOverhead]
      omega

/-- A request is stored only inside `BUF_CAP` (R61). -/
theorem getSucceeded_answers {payload : List Byte}
    (hfit : ∀ id inLoop, s.job = .recvData id inLoop → payload.length ≤ s.params.bufCap) :
    ∃ t, getSucceeded payload s = .next t := by
  cases hj : s.job with
  | recvData id inLoop => simp [getSucceeded, hj, commandReceived, bufWrite, hfit id inLoop hj]
  | _ => simp [getSucceeded, hj]

/-- The command-data awaited is one that fits (R212). -/
theorem State.Inv.recvData_fits (h : s.Inv) {kind : Kind} {n : Word} {long : Option Word} {last : Status}
    (hx : s.exch = .get kind n long last) {id : Word} {inLoop : Bool} (hj : s.job = .recvData id inLoop) :
    n.toNat ≤ s.params.bufCap := by
  have q := h.sequencer
  simp only [sequencerLegal, hj, receiving, hx, Bool.and_eq_true, decide_eq_true_eq] at q
  obtain ⟨-, ⟨-, hn⟩, -⟩ := q
  exact hn

theorem onFrame_answers (h : s.Inv) {kind : Kind} {n : Word} {long : Option Word} {last : Status}
    (hx : s.exch = .get kind n long last) {frame : List Byte} (hlen : frame.length = frameLength n) :
    ∃ t, onFrame kind frame s = .next t := by
  unfold onFrame
  split
  · next payload hok =>
    refine getSucceeded_answers fun id inLoop hj => ?_
    have hn : payload.length = n.toNat := by rw [decodePacket_length hok, hlen, frameLength, Nat.add_sub_cancel]
    rw [hn]
    exact h.recvData_fits hx hj
  · exact ⟨_, rfl⟩

theorem onLink_answers (h : s.Inv) (e : LinkEvent) : ∃ t, onLink e s = .next t := by
  cases e with
  | arrive bytes =>
    show ∃ t, onArrive bytes s = .next t
    unfold onArrive
    split
    · next kind n long last hx =>
      split
      · next hle =>
        have hinv : State.Inv { s with rx := (s.rx ++ bytes).drop (frameLength n) } :=
          h.congr rfl rfl rfl rfl rfl rfl rfl rfl rfl rfl rfl rfl
        exact onFrame_answers hinv hx (List.length_take_of_le hle)
      · exact ⟨_, rfl⟩
    · exact ⟨_, rfl⟩
  | expire eaten => exact ⟨_, rfl⟩
  | lose count => exact ⟨_, rfl⟩

/-! ### Running on stops only at a handler -/

/-- While the operation runs on, only the listed run of an invoked handler can stop it: the sequencer takes none itself. -/
theorem runFor_stops (fuel : Nat) {s : State} (h : s.Inv) (hA : s.params.role = .slave → s.handlers ≠ [] → A) :
    StopsOnly M A (runFor fuel s) := by
  induction fuel generalizing s with
  | zero => exact stopsOnly_next _
  | succ fuel ih =>
    unfold runFor
    split
    · exact stopsOnly_next _
    · split
      · exact stopsOnly_next _
      · next d rest _ =>
        have hf := onClock_follows d { s with clock := rest }
        exact ih (inv_keptByParts.clock _ d (inv_keptByParts.inputs s _ _ _ _ _ _ h)) (by rw [hf.params, hf.handlers]; exact hA)
    · next hw =>
      split
      · exact stopsOnly_next _
      · next a rest _ =>
        have hf := onWrite_follows a { s with writes := rest }
        exact ih (inv_keptByParts.write _ a hw (inv_keptByParts.inputs s _ _ _ _ _ _ h)) (by rw [hf.params, hf.handlers]; exact hA)
    · split
      · exact stopsOnly_next _
      · next e rest _ =>
        have hinv : State.Inv { s with link := rest } := inv_keptByParts.inputs s _ _ _ _ _ _ h
        obtain ⟨t, ht⟩ := onLink_answers hinv e
        have hf := onLink_follows e _ t ht
        rw [ht]
        exact ih (onLink_inv hinv e t ht) (by rw [hf.params, hf.handlers]; exact hA)
    · next hw =>
      split
      · exact stopsOnly_next _
      · next r rest hruns =>
        have hAt : A := hA (waiting_handler_slave hw h.jobSuits) (by rw [hruns]; nofun)
        have hinv : State.Inv { s with handlers := rest } := inv_keptByParts.inputs s _ _ _ _ _ _ h
        have hrun : StopsOnly M A (onHandler r { s with handlers := rest }) := onHandler_stops (hinv.handlerRunning hw) hAt r
        split
        · next t ht => exact ih (onHandler_inv hinv r t ht) fun _ _ => hAt
        · next f hf => exact hf ▸ hrun
        · next x hx => exact hx ▸ hrun

theorem runOn_stops (h : s.Inv) (hA : s.params.role = .slave → s.handlers ≠ [] → A) : StopsOnly M A (runOn s) :=
  runFor_stops _ h hA

theorem runOn_onClock_stops (h : s.Inv) (hA : s.params.role = .slave → s.handlers ≠ [] → A) (d : Word) :
    StopsOnly M A (runOn (onClock d s)) := by
  have hf := onClock_follows d s
  exact runOn_stops (onClock_inv h d) (by rw [hf.params, hf.handlers]; exact hA)

theorem runOn_onWrite_stops (h : s.Inv) (hw : s.waiting = .write) (hA : s.params.role = .slave → s.handlers ≠ [] → A)
    (a : WriteAnswer) : StopsOnly M A (runOn (onWrite a s)) := by
  have hf := onWrite_follows a s
  exact runOn_stops (onWrite_inv h (waiting_write hw) a) (by rw [hf.params, hf.handlers]; exact hA)

theorem runOnFrom_onLink_stops (h : s.Inv) (hA : s.params.role = .slave → s.handlers ≠ [] → A) (e : LinkEvent) :
    StopsOnly M A (runOnFrom (onLink e s)) := by
  obtain ⟨t, ht⟩ := onLink_answers h e
  have hf := onLink_follows e s t ht
  rw [ht, runOnFrom_next]
  exact runOn_stops (onLink_inv h e t ht) (by rw [hf.params, hf.handlers]; exact hA)

theorem runOnFrom_onHandler_stops (h : s.Inv) (hw : s.waiting = .handler) (hA : A) (r : HandlerRun) :
    StopsOnly M A (runOnFrom (onHandler r s)) := by
  have hrun : StopsOnly M A (onHandler r s) := onHandler_stops (h.handlerRunning hw) hA r
  cases ho : onHandler r s with
  | next t => exact runOn_stops (onHandler_inv h r t ho) fun _ _ => hA
  | fault f => rw [ho] at hrun; exact hrun
  | refused x => rw [ho] at hrun; exact hrun

/-! ### Instructions -/

/-- A frame, or bytes that are none, take effect as what arrives. -/
theorem fetchLink_out (e : LinkEvent) (s : State) : ∃ e', (fetchLink e s).out = runOnFrom (onLink e' s) := by
  unfold fetchLink
  split
  · split
    · next i hd =>
      obtain ⟨bytes, hexec⟩ := exec_frame (decodeWire_frame hd) s
      exact ⟨.arrive bytes, hexec⟩
    · next bytes _ _ _ => exact ⟨.arrive bytes, rfl⟩
  · next eaten => exact ⟨.expire eaten, rfl⟩
  · next count => exact ⟨.lose count, rfl⟩

theorem fetchLink_stops (h : s.Inv) (hA : s.params.role = .slave → s.handlers ≠ [] → A) (e : LinkEvent) :
    StopsOnly M A (fetchLink e s).out := by
  obtain ⟨e', he⟩ := fetchLink_out e s
  rw [he]
  exact runOnFrom_onLink_stops h hA e'

/-- What an accepted request does first takes no handler's run. -/
theorem begun_inputs (i : Instr) (s : State) : (begun i s).params = s.params ∧ (begun i s).handlers = s.handlers := by
  cases i with
  | crc16 | encode | ch | cd | rh | rd | scheduleCallback => exact ⟨rfl, rfl⟩
  | decode frame kind => simp only [begun, decodeCompletion]; split <;> exact ⟨rfl, rfl⟩
  | findCallback id => simp only [begun, findCompletion]; split <;> exact ⟨rfl, rfl⟩
  | putPacket kind payload long =>
    have hf := putPacket_follows kind payload long { s with job := .putPacket }
    exact ⟨hf.params, hf.handlers⟩
  | getPacket kind n long =>
    have hf := getPacket_follows kind n long { s with job := .getPacket }
    exact ⟨hf.params, hf.handlers⟩
  | putCommand | call | getResult => exact ⟨rfl, rfl⟩
  | getCommand => exact ⟨(getCommand_follows false s).params, (getCommand_follows false s).handlers⟩
  | loop => exact ⟨(getCommand_follows true s).params, (getCommand_follows true s).handlers⟩
  | putResult data => exact ⟨(putResult_follows data false s).params, (putResult_follows data false s).handlers⟩
  | registerCallback id hd =>
    have hf := registerCallback_handlerFollows id hd s
    exact ⟨hf.params, hf.handlers⟩

/-- At rest a request of the host passes the gate or is refused with BadOp. -/
theorem exec_request_stops (h : s.Inv) (hrest : s.inProgress = false) (hA : s.params.role = .slave → s.handlers ≠ [] → A)
    {i : Instr} (hi : i.isRequest = true) (hw : i.wellFormed s.params.formats = true) : StopsOnly M A (exec i s) := by
  have hturn : s.inProgress = true → s.handlerRunning = true ∧ A := fun hp => by rw [hrest] at hp; cases hp
  have hbegun : isBadOp s.params.role i = false → (begun i s).Inv := fun hgood => by
    have hboth : roleAccepts s.params.role i = true ∧ lengthRepresentable i = true := by simpa [isBadOp] using hgood
    exact begun_inv hw ⟨hboth.1, fun _ => hrest⟩ h
  obtain ⟨hp, hh⟩ := begun_inputs i s
  rcases exec_request hi s with e | e <;> rw [e] <;> refine gate_stops hturn fun hgood => ?_
  · exact stopsOnly_next _
  · exact runOn_stops (hbegun hgood) (by rw [hp, hh]; exact hA)

/-! ### The step -/

/-- With no port primitive pending no operation is in progress. -/
theorem State.Inv.resting (h : s.Inv) (hw : s.waiting = .nobody) : s.inProgress = false := by
  have q := h.sequencer
  have hx : s.exch = .idle := by cases hx : s.exch <;> simp [State.waiting, hx] at hw ⊢
  cases hj : s.job with
  | idle => simpa [sequencerLegal, hj, sequencerResting, sequencerAt, hx, State.inProgress, and_comm] using q
  | commandStart | resultStart | handler | deferred => simp [State.waiting, hx, hj] at hw
  | _ => simp [sequencerLegal, hj, hx, sending, receiving, receivingForHost] at q

/-- The oldest request of the host at rest is refused for its bytes only when they are malformed (log 14). -/
theorem fetchRequest_stops (h : s.Inv) (hrest : s.inProgress = false) (hA : s.params.role = .slave → s.handlers ≠ [] → A)
    {r : List Byte} (hM : decodeRequest s.params.formats r = .error .malformed → M) : StopsOnly M A (fetchRequest r s).out := by
  have hfails := decodeRequest_fails s.params.formats r
  unfold fetchRequest
  split
  · next i hd =>
    cases hi : i.isRequest with
    | true => exact exec_request_stops h hrest hA hi (decodeRequest_wellFormed hd)
    | false =>
      obtain ⟨bytes, hexec⟩ := exec_frame hi s
      rw [Fetched.out, hexec]
      exact runOnFrom_onLink_stops h hA (.arrive bytes)
  · exact stopsOnly_next _
  · exact stopsOnly_next _
  · next e hop hkind hd =>
    rcases hfails e hd with rfl | rfl | rfl
    · exact (hop rfl).elim
    · exact (hkind rfl).elim
    · exact stopsOnly_malformed (Or.inl (hM hd))

end

/-- A handler's run is awaited, or one is at hand, on a slave. -/
def State.AtHandler (s : State) : Prop := s.params.role = .slave ∧ (s.waiting = .handler ∨ s.handlers ≠ [])

/-- At rest, and the oldest request at the host port is malformed. -/
def State.MalformedAtRest (s : State) : Prop :=
  s.inProgress = false ∧ ∃ req more, s.hostPort = req :: more ∧ decodeRequest s.params.formats req = .error .malformed

/-- Every answer an operation takes in a step is a listed one or a free value; of either only a handler's run can stop it. -/
theorem step_stops {s : State} (h : s.Inv) : StopsOnly s.MalformedAtRest s.AtHandler (step s) := by
  have hA : s.params.role = .slave → s.handlers ≠ [] → s.AtHandler := fun hslave hruns => ⟨hslave, Or.inr hruns⟩
  have inputs := inv_keptByParts.inputs s
  rw [step_eq_out]
  cases hw : s.waiting with
  | nobody =>
    have hrest := h.resting hw
    rw [fetch_nobody hw]
    unfold fetchAtRest
    split
    · next r more hport => 
      exact fetchRequest_stops (by exact inputs _ _ _ _ _ _ h) (by exact hrest) (by exact hA)
        (by exact fun hd => ⟨hrest, r, more, hport, hd⟩)
    · split
      · exact fetchLink_stops (by exact inputs _ _ _ _ _ _ h) (by exact hA) _
      · exact stopsOnly_next _
  | clock =>
    rw [fetch_clock hw]
    unfold fetchClock
    split <;> exact runOn_onClock_stops (by exact inputs _ _ _ _ _ _ h) (by exact hA) _
  | write =>
    rw [fetch_write hw]
    unfold fetchWrite
    split <;> exact runOn_onWrite_stops (by exact inputs _ _ _ _ _ _ h) (by exact hw) (by exact hA) _
  | read n =>
    rw [fetch_read hw]
    unfold fetchRead
    split <;> exact fetchLink_stops (by exact inputs _ _ _ _ _ _ h) (by exact hA) _
  | handler =>
    have hAt : s.AtHandler := ⟨waiting_handler_slave hw h.jobSuits, Or.inl hw⟩
    rw [fetch_handler hw]
    unfold fetchHandler
    split <;> exact runOnFrom_onHandler_stops (by exact inputs _ _ _ _ _ _ h) (by exact hw) hAt _

end Sys2Proof.Machine

namespace Sys2Proof.Claims

open Sys2Proof Sys2Proof.Machine

/-- Settles O54: the parts of a step that stop it are a handler's run and the bytes of a request at rest. -/
theorem onlyHandlersRaiseFaults : Obligations.OnlyHandlersRaiseFaults := by
  refine ⟨fun s f hinv hstep => ?_, fun s r hinv hstep => (step_stops hinv).refusal r hstep⟩
  obtain ⟨hf, hslave, hhandler⟩ := (step_stops hinv).fault f hstep
  exact ⟨hslave, hf, hhandler⟩

end Sys2Proof.Claims

/-! ## `60_exceptions.md` R270: a CALL over the ideal link -/

namespace Sys2Proof.Machine

open Sys2Proof.Claims

/-! ### The exchanges up to their first port primitive (R171, R172, R174) -/

section
variable {s : State} {kind : Kind} {n ms : Word} {payload : List Byte}

theorem putPacket_none :
    putPacket kind payload none s =
      issue { s with frame := encodePacket s.params kind payload, retryCnt := retryReset s.params.role, exch := .put none } := by
  rw [putPacket, attempt, if_neg (retryReset_ne_zero _)]

theorem putPacket_some :
    putPacket kind payload (some ms) s =
      { s with frame := encodePacket s.params kind payload, retryCnt := retryReset s.params.role, exch := .putCheck ms } :=
  attempt_put_some rfl (retryReset_ne_zero _)

theorem getPacket_none :
    getPacket kind n none s =
      issue { s with frame := [], retryCnt := retryReset s.params.role, exch := .get kind n none .timeout } :=
  attempt_get_none rfl (retryReset_ne_zero _)

theorem getPacket_some :
    getPacket kind n (some ms) s =
      { s with frame := [], retryCnt := retryReset s.params.role, exch := .getCheck kind n ms .timeout } :=
  attempt_get_some rfl (retryReset_ne_zero _)

end

/-! ### What a master's answers lead to (R190, R193, R196) -/

section
variable {s : State} {id cap timeout : Word} {data : List Byte} {call : Option CallRest}

/-- The time read is `T0`, and the command-header is next. -/
theorem onClock_commandStart (hj : s.job = .commandStart id data timeout call) (hx : s.exch = .idle) (d : Word) :
    onClock d s = sendCommand id data timeout call (sampleT0 d s) := by
  simp only [onClock, hx, hj]

/-- The time read is `T0`, and the result-header is next. -/
theorem onClock_resultStart (hj : s.job = .resultStart cap timeout) (hx : s.exch = .idle) (d : Word) :
    onClock d s = awaitResult cap timeout (sampleT0 d s) := by
  simp only [onClock, hx, hj]

/-- The command sent, CALL turns to AwaitingResult and GET_RESULT asks for the time. -/
theorem putSucceeded_commandData (hj : s.job = .commandData (some ⟨cap, timeout⟩)) :
    putSucceeded s = getResult cap timeout { s with state := .awaitingResult } := by
  simp only [putSucceeded, hj]

end

/-! ### One turn on the ideal link (R73, R270) -/

/-- A turn on the ideal link leads to `t` and puts these bytes on the link. -/
structure TakesTurn (s t : State) (sent : List Byte) : Prop where
  turn : instanceTurn .ideal false s = some (.next t)
  tx : t.tx = s.tx ++ sent

section
variable {s u : State} {sent : List Byte}

theorem runOn_noAnswers (h : answersAtHand s = 0) : runOn s = .next s := by
  rw [runOn, h, runFor]

@[simp] theorem withAnswers_inProgress (a : Answers) (s : State) : (s.withAnswers a).inProgress = s.inProgress := rfl
@[simp] theorem withAnswers_buf (a : Answers) (s : State) : (s.withAnswers a).buf = s.buf := rfl

/-- What the sequencer leads to from a state with nothing listed has nothing listed either, so it goes no further. -/
theorem Follows.runOn_eq (h : Follows (s.withAnswers {}) u) : runOn u = .next u :=
  runOn_noAnswers h.answers

/-- At rest the only request at the host port is run. -/
theorem takesTurn_request {r : List Byte} {i : Instr} (hrest : s.waiting = .nobody) (hport : s.hostPort = [r])
    (hdecode : decodeRequest s.params.formats r = .ok i)
    (hexec : exec i { s.withAnswers {} with hostPort := [] } = .next u) (htx : u.tx = s.tx ++ sent) :
    TakesTurn s (u.withAnswers s.answers) sent := by
  have hstep : step (s.withAnswers {}) = .next u := by
    rw [step_request (s := s.withAnswers {}) hrest hport, fetchRequest_ok (by exact hdecode), Fetched.out, hexec]
  refine ⟨?_, htx⟩
  simp only [instanceTurn, hrest, stepWith, hstep, Bool.false_eq_true, if_false]

/-- At a `Now()` the first reading listed is taken. -/
theorem takesTurn_clock {d : Word} {later : List Word} (hw : s.waiting = .clock) (hc : s.clock = d :: later)
    (hclock : onClock d (s.withAnswers {}) = u) (htx : u.tx = s.tx ++ sent) :
    TakesTurn s (u.withAnswers { s.answers with clock := later }) sent := by
  have hstep : step (s.withAnswers { clock := [d] }) = .next u := by
    rw [step_eq_out, fetch_clock (by exact hw)]
    show runOn (onClock d (s.withAnswers {})) = .next u
    rw [(onClock_follows d (s.withAnswers {})).runOn_eq, hclock]
  refine ⟨?_, htx⟩
  simp only [instanceTurn, hw, hc, State.answers, List.take_succ_cons, List.take_zero, List.tail_cons, stepWith, hstep,
    Bool.false_eq_true, if_false]

/-- FRAME is on the link, and no other answer is at hand. -/
def frameWritten (s : State) : State := { s with tx := s.tx ++ s.frame }.withAnswers {}

/-- This frame has been taken off the queue, which held no more, and no other answer is at hand. -/
def frameTaken (frame : List Byte) (s : State) : State := { s with frame := frame, rx := [] }.withAnswers {}

@[simp] theorem frameWritten_defValid (s : State) : (frameWritten s).defValid = s.defValid := rfl
@[simp] theorem frameTaken_exch (frame : List Byte) (s : State) : (frameTaken frame s).exch = s.exch := rfl

/-- At a `TWrite` the link accepts FRAME whole. -/
theorem takesTurn_write {long : Option Word} (hx : s.exch = .put long)
    (hsent : putSucceeded (frameWritten s) = u) (htx : u.tx = s.tx ++ s.frame) :
    TakesTurn s (u.withAnswers s.answers) s.frame := by
  have hw : s.waiting = .write := by simp only [State.waiting, hx]
  have hstep : step (s.withAnswers { writes := [⟨true, 0⟩] }) = .next u := by
    rw [step_eq_out, fetch_write (by exact hw)]
    show runOn (onWrite ⟨true, 0⟩ (s.withAnswers {})) = .next u
    rw [(onWrite_follows ⟨true, 0⟩ (s.withAnswers {})).runOn_eq, onWrite_accepted rfl]
    exact congrArg _ hsent
  refine ⟨?_, htx⟩
  simp only [instanceTurn, hw, LinkKind.writes, LinkKind.writesKept, State.answers, stepWith, hstep, Bool.false_eq_true, if_false]

/-- At a `TRead` whose bytes are in the queue they are handed over. -/
theorem takesTurn_read {n : Nat} (hw : s.waiting = .read n) (hlen : n ≤ s.rx.length)
    (hread : onArrive [] (s.withAnswers {}) = .next u) (htx : u.tx = s.tx ++ sent) :
    TakesTurn s (u.withAnswers s.answers) sent := by
  have hstep : step (s.withAnswers { link := [.arrive []] }) = .next u := by
    rw [step_eq_out, fetch_read (by exact hw), fetchRead_link rfl]
    show runOnFrom (onArrive [] (s.withAnswers {})) = .next u
    rw [hread]
    exact (onArrive_follows [] (s.withAnswers {}) u hread).runOn_eq
  refine ⟨?_, htx⟩
  simp only [instanceTurn, hw, LinkKind.reads, LinkKind.linkKept, if_pos hlen, State.answers, Option.map_some, stepWith, hstep,
    Bool.false_eq_true, if_false]

/-- At an `Invoke` the first run listed takes place. -/
theorem takesTurn_handler {r : HandlerRun} {more : List HandlerRun} (hw : s.waiting = .handler) (hruns : s.handlers = r :: more)
    (hrun : onHandler r (s.withAnswers {}) = .next u) (htx : u.tx = s.tx ++ sent) :
    TakesTurn s (u.withAnswers { s.answers with handlers := more }) sent := by
  have hstep : step (s.withAnswers { handlers := [r] }) = .next u := by
    rw [step_handler (by exact hw) rfl]
    show runOnFrom (onHandler r (s.withAnswers {})) = .next u
    rw [hrun]
    exact runOn_noAnswers (onHandler_follows r (s.withAnswers {}) u hrun).answers
  refine ⟨?_, htx⟩
  simp only [instanceTurn, hw, hruns, State.answers, List.take_succ_cons, List.take_zero, List.tail_cons, stepWith, hstep,
    Bool.false_eq_true, if_false]

end

/-! ### Turns of the system -/

/-- What the ideal link brings joins the stream. -/
def receive (bytes : List Byte) (s : State) : State := { s with rx := s.rx ++ bytes }

theorem receive_nil (s : State) : receive [] s = s := by
  simp [receive]

theorem carried_of_tx {s t : State} {sent : List Byte} (h : t.tx = s.tx ++ sent) : LinkKind.ideal.carried s t = sent := by
  rw [LinkKind.carried, h, List.drop_left]

theorem pairRun_append (l : LinkKind) (ts ts' : List Turn) (p : Pair) :
    pairRun l (ts ++ ts') p = (pairRun l ts p).bind (pairRun l ts') := by
  induction ts generalizing p with
  | nil => rfl
  | cons t ts ih =>
    rw [List.cons_append, pairRun, pairRun, Option.bind_assoc]
    exact congrArg _ (funext ih)

section
variable {m m' s s' : State} {sent : List Byte} {ts : List Turn} {p : Pair}

theorem pairRun_master (h : TakesTurn m m' sent) (hrun : pairRun .ideal ts ⟨m', receive sent s⟩ = some p) :
    pairRun .ideal (.master :: ts) ⟨m, s⟩ = some p := by
  simpa only [pairRun, pairStep, h.turn, masterMoved, carried_of_tx h.tx, Option.bind_some, receive] using hrun

theorem pairRun_slave (h : TakesTurn s s' sent) (hrun : pairRun .ideal ts ⟨receive sent m, s'⟩ = some p) :
    pairRun .ideal (.slave :: ts) ⟨m, s⟩ = some p := by
  simpa only [pairRun, pairStep, h.turn, slaveMoved, carried_of_tx h.tx, Option.bind_some, receive] using hrun

theorem pairRun_trans {l : LinkKind} {ts' : List Turn} {p p' p'' : Pair} (h : pairRun l ts p = some p')
    (h' : pairRun l ts' p' = some p'') : pairRun l (ts ++ ts') p = some p'' := by
  rw [pairRun_append, h]
  exact h'

/-- A turn that sends nothing leaves the other end as it was. -/
theorem pairRun_master_silent (h : TakesTurn m m' []) (hrun : pairRun .ideal ts ⟨m', s⟩ = some p) :
    pairRun .ideal (.master :: ts) ⟨m, s⟩ = some p :=
  pairRun_master h (by rwa [receive_nil])

theorem pairRun_slave_silent (h : TakesTurn s s' []) (hrun : pairRun .ideal ts ⟨m, s'⟩ = some p) :
    pairRun .ideal (.slave :: ts) ⟨m, s⟩ = some p :=
  pairRun_slave h (by rwa [receive_nil])

end

/-! ### Where one end of the pair is -/

/-- The operation in progress has reached this point, with this FRAME and this queue to read from. -/
structure Engaged (p : Params) (job : Job) (exch : Exchange) (frame rx : List Byte) (s : State) : Prop where
  params : s.params = p
  job : s.job = job
  exch : s.exch = exch
  frame : s.frame = frame
  rx : s.rx = rx

/-- On a master: the time that has passed since `T0`, and what will pass before each coming reading. -/
structure Timed (since : Word) (clock : List Word) (s : State) : Prop where
  since : s.now - s.t0 = since
  clock : s.clock = clock

/-- On a slave whose command's handler has not run: that handler is registered and its run listed, and the deferred slot is empty. -/
structure Listening (id : Word) (h : Handler) (run : HandlerRun) (s : State) : Prop where
  found : lookup id s = some h
  slot : s.defValid = false
  run : s.handlers = [run]
  bufWf : s.buf.wf = true

/-- On a slave whose command's handler has run: the command's identifier, and the response in `BUF`. -/
structure Answered (id : Word) (resp : List Byte) (s : State) : Prop where
  slot : s.defValid = false
  curRpcId : s.curRpcId = id
  bufLen : s.bufLen = lengthWord resp
  buf : readBytes s.buf 0 resp.length = resp

section
variable {s : State} {p : Params} {job : Job} {exch : Exchange} {frame rx : List Byte}

theorem Engaged.receive (h : Engaged p job exch frame rx s) (bytes : List Byte) :
    Engaged p job exch frame (rx ++ bytes) (receive bytes s) :=
  ⟨h.params, h.job, h.exch, h.frame, congrArg (· ++ bytes) h.rx⟩

theorem Timed.receive {since : Word} {clock : List Word} (h : Timed since clock s) (bytes : List Byte) :
    Timed since clock (receive bytes s) :=
  ⟨h.since, h.clock⟩

theorem Listening.receive {id : Word} {hd : Handler} {run : HandlerRun} (h : Listening id hd run s) (bytes : List Byte) :
    Listening id hd run (receive bytes s) :=
  ⟨h.found, h.slot, h.run, h.bufWf⟩

/-- A frame of the awaited kind and length in the queue is validated and taken off it (R68, R174). -/
theorem Engaged.takesTurn_frame {u : State} {kind : Kind} {n : Word} {long : Option Word} {last : Status} {payload sent : List Byte}
    (h : Engaged p job (.get kind n long last) frame (encodePacket p kind payload) s) (hn : payload.length = n.toNat)
    (hmin : minLen kind ≤ payload.length + 4)
    (hread : getSucceeded payload (frameTaken (encodePacket p kind payload) s) = .next u)
    (htx : u.tx = s.tx ++ sent) : TakesTurn s (u.withAnswers s.answers) sent := by
  obtain ⟨rfl, -, hx, -, hrx⟩ := h
  have hlen : (encodePacket s.params kind payload).length = frameLength n := by simp [hn, frameLength, frameOverhead]
  have hw : s.waiting = .read (frameLength n) := by simp only [State.waiting, hx]
  refine takesTurn_read hw (by rw [hrx, hlen]) ?_ htx
  rw [onArrive_enough (by exact hx) (by simp [hrx, hlen]), withAnswers_rx, hrx, List.append_nil, ← hlen, List.take_length,
    List.drop_length, onFrame_ok (by exact decodePacket_encodePacket hmin)]
  exact hread

end

/-! ### The turns of a master in CALL (R196) -/

section
variable {m : State} {p : Params} {id cap ts tr d since : Word} {req resp frame rx : List Byte} {call : Option CallRest}
  {later : List Word} {job : Job}

/-- The request at the host port is started, and asks for the time. -/
theorem call_takesTurn (hready : Ready .master m) (hfits : fitsLength req = true)
    (hport : m.hostPort = [encode m.params.formats (.call id req cap ts tr)]) (hrx : m.rx = []) :
    ∃ m', TakesTurn m m' [] ∧ Engaged m.params (.commandStart id req ts (some ⟨cap, tr⟩)) .idle m.frame [] m' ∧
      m'.clock = m.clock := by
  have ⟨hrole, hrest, hwf⟩ := hready
  obtain ⟨-, -, hjob, hexch⟩ := inProgress_false hrest
  have hnobody : m.waiting = .nobody := by simp only [State.waiting, hjob, hexch]
  have hdecode : decodeRequest m.params.formats (encode m.params.formats (.call id req cap ts tr)) =
      .ok (.call id req cap ts tr) := by
    simpa using decodeRequest_encode (f := m.params.formats) (i := .call id req cap ts tr) [] rfl hfits
  have hexec : exec (.call id req cap ts tr) { m.withAnswers {} with hostPort := [] } =
      .next (putCommand id req ts (some ⟨cap, tr⟩) { m.withAnswers {} with hostPort := [], respLen := cap }) := by
    rw [exec_call (by exact ⟨hrole, hrest, hwf⟩) hfits]
    exact runOn_noAnswers rfl
  exact ⟨_, takesTurn_request hnobody hport hdecode hexec (List.append_nil _).symm, ⟨rfl, rfl, hexch, rfl, hrx⟩, rfl⟩

/-- `T0` sampled, the command-header is next (R190). -/
theorem commandStart_takesTurn (h : Engaged p (.commandStart id req ts call) .idle frame rx m) (hc : m.clock = d :: later) :
    ∃ m', TakesTurn m m' [] ∧
      Engaged p (.commandHeader req call) (.putCheck ts) (encodePacket p .ch (chPayload p.header id (lengthWord req))) rx m' ∧
      Timed 0 later m' := by
  obtain ⟨rfl, hj, hx, -, rfl⟩ := h
  have hclock := onClock_commandStart (s := m.withAnswers {}) hj hx d
  rw [sendCommand, putPacket_some] at hclock
  exact ⟨_, takesTurn_clock (by simp only [State.waiting, hx, hj]) hc hclock (List.append_nil _).symm, ⟨rfl, rfl, rfl, rfl, rfl⟩,
    ⟨sub_self _, rfl⟩⟩

/-- The exchange at a deadline check, and the same exchange at the attempt that follows (R171). -/
inductive PassesCheck (ms : Word) : Exchange → Exchange → Prop
  | put : PassesCheck ms (.putCheck ms) (.put (some ms))
  | get (kind : Kind) (n : Word) (last : Status) : PassesCheck ms (.getCheck kind n ms last) (.get kind n (some ms) last)

/-- Within the deadline the attempt is made. -/
theorem check_takesTurn {ms : Word} {x x' : Exchange} (hpass : PassesCheck ms x x') (hrole : p.role = .master)
    (h : Engaged p job x frame rx m) (ht : Timed since (d :: later) m) (hin : since + d < ms) :
    ∃ m', TakesTurn m m' [] ∧ Engaged p job x' frame rx m' ∧ Timed (since + d) later m' := by
  obtain ⟨rfl, rfl, hx, rfl, rfl⟩ := h
  obtain ⟨rfl, hc⟩ := ht
  have hsince : m.now + d - m.t0 = m.now - m.t0 + d := add_sub_right_comm _ _ _
  have hclock : onClock d (m.withAnswers {}) = issue { tick d (m.withAnswers {}) with exch := x' } := by
    have hwithin : deadlinePassed ms { tick d (m.withAnswers {}) with exch := x' } = false :=
      deadlinePassed_master_false hrole (by rw [← hsince] at hin; exact hin)
    cases hpass <;> simp only [onClock, withAnswers_exch, hx, deadlineCheck_within hwithin]
  have hw : m.waiting = .clock := by cases hpass <;> simp only [State.waiting, hx]
  exact ⟨_, takesTurn_clock hw hc hclock (List.append_nil _).symm, ⟨rfl, rfl, rfl, rfl, rfl⟩, ⟨hsince, rfl⟩⟩

/-- The command-header on the link, the command-data is next with the same deadline (R190). -/
theorem commandHeader_takesTurn (h : Engaged p (.commandHeader req call) (.put (some ts)) frame rx m)
    (ht : Timed since later m) :
    ∃ m', TakesTurn m m' frame ∧ Engaged p (.commandData call) (.putCheck ts) (encodePacket p .cd req) rx m' ∧
      Timed since later m' := by
  obtain ⟨rfl, hj, hx, rfl, rfl⟩ := h
  have hsent := putSucceeded_commandHeader (s := frameWritten m) hj hx
  rw [putPacket_some] at hsent
  exact ⟨_, takesTurn_write hx hsent rfl, ⟨rfl, rfl, rfl, rfl, rfl⟩, ⟨ht.since, ht.clock⟩⟩

/-- The command-data on the link, CALL asks for the time that GET_RESULT samples (R196). -/
theorem commandData_takesTurn (h : Engaged p (.commandData (some ⟨cap, tr⟩)) (.put (some ts)) frame rx m)
    (hc : m.clock = later) :
    ∃ m', TakesTurn m m' frame ∧ Engaged p (.resultStart cap tr) .idle [] rx m' ∧ m'.clock = later := by
  obtain ⟨rfl, hj, hx, rfl, rfl⟩ := h
  have hsent := putSucceeded_commandData (s := frameWritten m) hj
  exact ⟨_, takesTurn_write hx hsent rfl, ⟨rfl, rfl, rfl, rfl, rfl⟩, hc⟩

/-- `T0` sampled, the result-header is awaited (R193). -/
theorem resultStart_takesTurn (h : Engaged p (.resultStart cap tr) .idle frame rx m) (hc : m.clock = d :: later) :
    ∃ m', TakesTurn m m' [] ∧ Engaged p (.resultHeader cap) (.getCheck .rh (rhPayloadLen p) tr .timeout) [] rx m' ∧
      Timed 0 later m' := by
  obtain ⟨rfl, hj, hx, -, rfl⟩ := h
  have hclock := onClock_resultStart (s := m.withAnswers {}) hj hx d
  rw [awaitResult, getPacket_some] at hclock
  exact ⟨_, takesTurn_clock (by simp only [State.waiting, hx, hj]) hc hclock (List.append_nil _).symm, ⟨rfl, rfl, rfl, rfl, rfl⟩,
    ⟨sub_self _, rfl⟩⟩

/-- The result-header of a response that fits taken, the result-data is awaited with the same deadline (R193). -/
theorem resultHeader_takesTurn {n : Word} (hwf : p.header.wf = true)
    (h : Engaged p (.resultHeader cap) (.get .rh (rhPayloadLen p) (some tr) .timeout) frame
      (encodePacket p .rh (rhPayload p.header n)) m)
    (ht : Timed since later m) (hn : n ≤ cap) :
    ∃ m', TakesTurn m m' [] ∧ Engaged p .resultData (.getCheck .rd n tr .timeout) [] [] m' ∧ Timed since later m' := by
  have ⟨hp, hj, hx, _, _⟩ := h
  have hread := getSucceeded_resultHeader
    (s := frameTaken (encodePacket p .rh (rhPayload p.header n)) m)
    (congrArg Params.header hp) hwf hj hn
  have hlong : exchangeLong (frameTaken (encodePacket p .rh (rhPayload p.header n)) m) = some tr := by
    rw [exchangeLong, frameTaken_exch, hx]
  rw [hlong, getPacket_some] at hread
  exact ⟨_, h.takesTurn_frame ((rhPayload_length hwf n).trans (rhPayloadLen_toNat hwf).symm) (minLen_rhPayload hwf n) hread
    (List.append_nil _).symm, ⟨hp, rfl, rfl, rfl, rfl⟩, ⟨ht.since, ht.clock⟩⟩

/-- The result-data taken, CALL returns the response (R194). -/
theorem resultData_takesTurn {n : Word} {long : Option Word} {last : Status}
    (h : Engaged p .resultData (.get .rd n long last) frame (encodePacket p .rd resp) m) (hn : resp.length = n.toNat) :
    ∃ m', TakesTurn m m' [] ∧ m'.status = .ok ∧ m'.result = .data resp (lengthWord resp) ∧ m'.inProgress = false ∧
      m'.rx = [] := by
  have hread := getSucceeded_resultData (s := frameTaken (encodePacket p .rd resp) m) h.job resp
  exact ⟨_, h.takesTurn_frame hn (minLen_data .rd (Or.inr rfl) _) hread (List.append_nil _).symm, rfl, rfl,
    by rw [withAnswers_inProgress, finish_not_inProgress], rfl⟩

end

/-! ### The turns of a slave in LOOP (R231) -/

section
variable {s : State} {q : Params} {id : Word} {h : Handler} {req resp frame rx : List Byte} {run : HandlerRun}

/-- The request at the host port is started, and reads. -/
theorem loop_takesTurn (hready : Ready .slave s) (hport : s.hostPort = [[0x25]]) (hrx : s.rx = [])
    (hl : Listening id h run s) :
    ∃ s', TakesTurn s s' [] ∧ Engaged s.params (.recvHeader true) (.get .ch (chPayloadLen s.params) none .timeout) [] [] s' ∧
      Listening id h run s' := by
  have ⟨hrole, hrest, hwf⟩ := hready
  obtain ⟨-, -, hjob, hexch⟩ := ready_slave_atRest hready
  have hnobody : s.waiting = .nobody := by simp only [State.waiting, hjob, hexch]
  have hexec : exec .loop { s.withAnswers {} with hostPort := [] } =
      .next (getCommand true { s.withAnswers {} with hostPort := [] }) := by
    rw [exec_loop (by exact ⟨hrole, hrest, hwf⟩)]
    exact runOn_noAnswers (getCommand_follows true _).answers
  rw [getCommand, getPacket_none] at hexec
  exact ⟨_, takesTurn_request hnobody hport rfl hexec (List.append_nil _).symm, ⟨rfl, rfl, rfl, rfl, hrx⟩,
    ⟨hl.found, hl.slot, hl.run, hl.bufWf⟩⟩

/-- The command-header of a request that fits taken, the command-data is awaited (R212). -/
theorem recvHeader_takesTurn {n : Word} {long : Option Word} {last : Status} (hwf : q.header.wf = true)
    (he : Engaged q (.recvHeader true) (.get .ch (chPayloadLen q) long last) frame (encodePacket q .ch (chPayload q.header id n)) s)
    (hl : Listening id h run s) (hn : n.toNat ≤ q.bufCap) :
    ∃ s', TakesTurn s s' [] ∧ Engaged q (.recvData id true) (.get .cd n none .timeout) [] [] s' ∧ Listening id h run s' := by
  have ⟨hp, hj, _, _, _⟩ := he
  have hread := getSucceeded_recvHeader (id := id)
    (s := frameTaken (encodePacket q .ch (chPayload q.header id n)) s)
    (congrArg Params.header hp) hwf hj (hn.trans (congrArg Params.bufCap hp).ge)
  rw [getPacket_none] at hread
  exact ⟨_, he.takesTurn_frame ((chPayload_length hwf id n).trans (chPayloadLen_toNat hwf).symm) (minLen_chPayload hwf id n)
    hread (List.append_nil _).symm, ⟨hp, rfl, rfl, rfl, rfl⟩, ⟨hl.found, hl.slot, hl.run, hl.bufWf⟩⟩

/-- The command-data taken, the request is stored and its handler invoked (R212, R231). -/
theorem recvData_takesTurn {n : Word} {long : Option Word} {last : Status}
    (he : Engaged q (.recvData id true) (.get .cd n long last) frame (encodePacket q .cd req) s)
    (hl : Listening id h run s) (hn : req.length = n.toNat) (hfit : req.length ≤ q.bufCap) :
    ∃ s', TakesTurn s s' [] ∧ Engaged q (.handler h) .idle [] [] s' ∧ Listening id h run s' ∧ s'.curRpcId = id := by
  have ⟨hp, hj, _, _, _⟩ := he
  have hread := getSucceeded_recvData_inLoop (s := frameTaken (encodePacket q .cd req) s) hj
    (hfit.trans (congrArg Params.bufCap hp).ge)
  rw [dispatch_found (by exact hl.found)] at hread
  exact ⟨_, he.takesTurn_frame hn (minLen_data .cd (Or.inl rfl) _) hread (List.append_nil _).symm, ⟨hp, rfl, rfl, rfl, rfl⟩,
    ⟨hl.found, hl.slot, hl.run, writeBytes_wf _ _ hl.bufWf⟩, rfl⟩

/-- Stores at consecutive offsets write their bytes there. -/
theorem writeCells_range' (m : Memory) (a : Nat) (v : List Byte) :
    writeCells m ((List.range' a v.length).zip v) = writeBytes m a v := by
  induction v generalizing m a with
  | nil => rfl
  | cons b v ih => exact ih _ _

/-- The run of a handler that leaves this response in `BUF` and returns its length (R223). -/
def leavesResponse (resp : List Byte) : HandlerRun := .returns [] ((List.range resp.length).zip resp) (lengthWord resp)

/-- The handler has left its response, and the result-header is at its `TWrite` (R219, R223). -/
theorem handler_takesTurn (he : Engaged q (.handler h) .idle frame rx s) (hl : Listening id h (leavesResponse resp) s)
    (hid : s.curRpcId = id) (hfits : fitsLength resp = true) (hcap : resp.length ≤ q.bufCap) :
    ∃ s', TakesTurn s s' [] ∧
      Engaged q (.replyHeader resp true) (.put none) (encodePacket q .rh (rhPayload q.header (lengthWord resp))) rx s' ∧
      Answered id resp s' := by
  obtain ⟨rfl, hj, hx, -, rfl⟩ := he
  have hw : s.waiting = .handler := by simp only [State.waiting, hx, hj]
  have hlen : (lengthWord resp).toNat = resp.length := lengthWord_toNat hfits
  have hstores : ∀ c ∈ (List.range resp.length).zip resp, c.1 < s.params.bufCap := fun c hc =>
    (List.mem_range.mp (List.of_mem_zip hc).1).trans_le hcap
  have hbuf : readBytes (writeCells s.buf ((List.range resp.length).zip resp)) 0 resp.length = resp := by
    rw [List.range_eq_range', writeCells_range', readBytes_writeBytes (Memory.wf_rising hl.bufWf)]
  have hrun := onHandler_returns (code := lengthWord resp) (handlerRequests_nil (s.withAnswers {})) hstores
  rw [handlerReturned_replies (by exact hj) (by rw [hlen]; exact hcap), hlen, putResult, putPacket_none] at hrun
  simp only [withAnswers_buf, hbuf] at hrun
  exact ⟨_, takesTurn_handler hw hl.run hrun (List.append_nil _).symm, ⟨rfl, rfl, rfl, rfl, rfl⟩, ⟨hl.slot, hid, rfl, hbuf⟩⟩

/-- The result-header on the link, the result-data is at its `TWrite` (R219). -/
theorem replyHeader_takesTurn (he : Engaged q (.replyHeader resp true) (.put none) frame rx s) (ha : Answered id resp s) :
    ∃ s', TakesTurn s s' frame ∧ Engaged q (.replyData true) (.put none) (encodePacket q .rd resp) rx s' ∧
      Answered id resp s' := by
  obtain ⟨rfl, hj, hx, rfl, rfl⟩ := he
  have hsent := putSucceeded_replyHeader (s := frameWritten s) hj
  rw [putPacket_none] at hsent
  exact ⟨_, takesTurn_write hx hsent rfl, ⟨rfl, rfl, rfl, rfl, rfl⟩, ⟨ha.slot, ha.curRpcId, ha.bufLen, ha.buf⟩⟩

/-- The result-data on the link and the slot empty, LOOP is over (R231, R233). -/
theorem replyData_takesTurn (he : Engaged q (.replyData true) (.put none) frame rx s) (ha : Answered id resp s) :
    ∃ s', TakesTurn s s' frame ∧ Answered id resp s' ∧ s'.status = .ok ∧ s'.inProgress = false ∧ s'.rx = rx := by
  obtain ⟨rfl, hj, hx, rfl, rfl⟩ := he
  have hsent := putSucceeded_reply (s := frameWritten s) hj
  rw [afterReply, if_neg (by simp [ha.slot])] at hsent
  exact ⟨_, takesTurn_write hx hsent rfl, ⟨rfl, ha.curRpcId, ha.bufLen, ha.buf⟩, rfl,
    by rw [withAnswers_inProgress, finish_not_inProgress], rfl⟩

end

/-! ### The four packets of a CALL cross the link (R270) -/

/-- What one end encodes the other decodes: the markers, the checksum and the layout of the headers are the same (R10). -/
structure SameCodec (p q : Params) : Prop where
  frame : encodePacket p = encodePacket q
  header : p.header = q.header

theorem sameCodec_of_eq {p q : Params} (hmarkers : p.markers = q.markers) (hheader : p.header = q.header)
    (hcrc : p.crc = q.crc) : SameCodec p q :=
  ⟨by funext kind payload; simp only [encodePacket, hmarkers, hcrc], hheader⟩

section
variable {m s : State} {p q : Params} {id cap ts tr d0 d1 d2 d3 d4 d5 : Word} {req resp : List Byte} {h : Handler}
  {run : HandlerRun} {later : List Word}

/-- From rest to the end of the first exchange: the command-header is received. -/
theorem commandHeader_crosses (hm : Ready .master m) (hs : Ready .slave s) (hcodec : SameCodec m.params s.params)
    (hreq : fitsLength req = true) (hfit : req.length ≤ s.params.bufCap)
    (hmport : m.hostPort = [encode m.params.formats (.call id req cap ts tr)]) (hmrx : m.rx = [])
    (hclock : m.clock = d0 :: d1 :: later) (h1 : d1 < ts) (hsport : s.hostPort = [[0x25]]) (hsrx : s.rx = [])
    (hl : Listening id h run s) :
    ∃ m' s', pairRun .ideal [.master, .slave, .master, .master, .master, .slave] ⟨m, s⟩ = some ⟨m', s'⟩ ∧
      Engaged m.params (.commandData (some ⟨cap, tr⟩)) (.putCheck ts) (encodePacket m.params .cd req) [] m' ∧
      Timed d1 later m' ∧
      Engaged s.params (.recvData id true) (.get .cd (lengthWord req) none .timeout) [] [] s' ∧ Listening id h run s' := by
  obtain ⟨m1, turn1, e1, hc1⟩ := call_takesTurn hm hreq hmport hmrx
  obtain ⟨s1, turn2, f1, l1⟩ := loop_takesTurn hs hsport hsrx hl
  obtain ⟨m2, turn3, e2, time2⟩ := commandStart_takesTurn e1 (hc1.trans hclock)
  obtain ⟨m3, turn4, e3, time3⟩ := check_takesTurn .put hm.1 e2 time2 (by rwa [zero_add])
  obtain ⟨m4, turn5, e4, time4⟩ := commandHeader_takesTurn e3 time3
  have received := f1.receive (encodePacket m.params .ch (chPayload m.params.header id (lengthWord req)))
  rw [List.nil_append, hcodec.frame, hcodec.header] at received
  obtain ⟨s2, turn6, f2, l2⟩ := recvHeader_takesTurn hs.2.2 received (l1.receive _) (by rwa [lengthWord_toNat hreq])
  rw [← hcodec.frame, ← hcodec.header] at turn6
  rw [zero_add] at time4
  exact ⟨m4, s2, pairRun_master_silent turn1 (pairRun_slave_silent turn2 (pairRun_master_silent turn3
    (pairRun_master_silent turn4 (pairRun_master turn5 (pairRun_slave_silent turn6 rfl))))), e4, time4, f2, l2⟩

/-- The command-data is received and the handler invoked, while the master turns to the result. -/
theorem commandData_crosses (hm : p.role = .master) (hcodec : SameCodec p q) (hreq : fitsLength req = true)
    (hfit : req.length ≤ q.bufCap)
    (he : Engaged p (.commandData (some ⟨cap, tr⟩)) (.putCheck ts) (encodePacket p .cd req) [] m)
    (ht : Timed d1 (d2 :: d3 :: later) m) (h2 : d1 + d2 < ts)
    (hf : Engaged q (.recvData id true) (.get .cd (lengthWord req) none .timeout) [] [] s) (hl : Listening id h run s) :
    ∃ m' s', pairRun .ideal [.master, .master, .master, .slave] ⟨m, s⟩ = some ⟨m', s'⟩ ∧
      Engaged p (.resultHeader cap) (.getCheck .rh (rhPayloadLen p) tr .timeout) [] [] m' ∧ Timed 0 later m' ∧
      Engaged q (.handler h) .idle [] [] s' ∧ Listening id h run s' ∧ s'.curRpcId = id := by
  obtain ⟨m1, turn7, e1, time1⟩ := check_takesTurn .put hm he ht h2
  obtain ⟨m2, turn8, e2, hc2⟩ := commandData_takesTurn e1 time1.clock
  obtain ⟨m3, turn9, e3, time3⟩ := resultStart_takesTurn e2 hc2
  have received := hf.receive (encodePacket p .cd req)
  rw [List.nil_append, hcodec.frame] at received
  obtain ⟨s1, turn10, f1, l1, hid⟩ := recvData_takesTurn received (hl.receive _) (lengthWord_toNat hreq).symm hfit
  rw [← hcodec.frame] at turn10
  exact ⟨m3, s1, pairRun_master_silent turn7 (pairRun_master turn8 (pairRun_master_silent turn9
    (pairRun_slave_silent turn10 rfl))), e3, time3, f1, l1, hid⟩

/-- The handler runs, and the result-header is received. -/
theorem resultHeader_crosses (hm : p.role = .master) (hcodec : SameCodec p q) (hwf : p.header.wf = true)
    (hresp : fitsLength resp = true) (hfit : resp.length ≤ q.bufCap) (hcap : resp.length ≤ cap.toNat)
    (he : Engaged p (.resultHeader cap) (.getCheck .rh (rhPayloadLen p) tr .timeout) [] [] m)
    (ht : Timed 0 (d4 :: later) m) (h4 : d4 < tr) (hf : Engaged q (.handler h) .idle [] [] s)
    (hl : Listening id h (leavesResponse resp) s) (hid : s.curRpcId = id) :
    ∃ m' s', pairRun .ideal [.master, .slave, .slave, .master] ⟨m, s⟩ = some ⟨m', s'⟩ ∧
      Engaged p .resultData (.getCheck .rd (lengthWord resp) tr .timeout) [] [] m' ∧ Timed d4 later m' ∧
      Engaged q (.replyData true) (.put none) (encodePacket q .rd resp) [] s' ∧ Answered id resp s' := by
  have hn : lengthWord resp ≤ cap := BitVec.le_def.mpr ((lengthWord_toNat hresp).le.trans hcap)
  obtain ⟨m1, turn11, e1, time1⟩ := check_takesTurn (.get _ _ _) hm he ht (by rwa [zero_add])
  obtain ⟨s1, turn12, f1, a1⟩ := handler_takesTurn hf hl hid hresp hfit
  obtain ⟨s2, turn13, f2, a2⟩ := replyHeader_takesTurn f1 a1
  have received := e1.receive (encodePacket q .rh (rhPayload q.header (lengthWord resp)))
  rw [List.nil_append, ← hcodec.frame, ← hcodec.header] at received
  obtain ⟨m2, turn14, e2, time2⟩ := resultHeader_takesTurn hwf received (time1.receive _) hn
  rw [hcodec.frame, hcodec.header] at turn14
  rw [zero_add] at time2
  exact ⟨m2, s2, pairRun_master_silent turn11 (pairRun_slave_silent turn12 (pairRun_slave turn13
    (pairRun_master_silent turn14 rfl))), e2, time2, f2, a2⟩

/-- The result-data is received, and both operations are over. -/
theorem resultData_crosses (hm : p.role = .master) (hcodec : SameCodec p q) (hresp : fitsLength resp = true)
    (he : Engaged p .resultData (.getCheck .rd (lengthWord resp) tr .timeout) [] [] m) (ht : Timed d4 (d5 :: later) m)
    (h5 : d4 + d5 < tr) (hf : Engaged q (.replyData true) (.put none) (encodePacket q .rd resp) [] s)
    (ha : Answered id resp s) :
    ∃ m' s', pairRun .ideal [.slave, .master, .master] ⟨m, s⟩ = some ⟨m', s'⟩ ∧
      (m'.status = .ok ∧ m'.result = .data resp (lengthWord resp) ∧ m'.inProgress = false ∧ m'.rx = []) ∧
      Answered id resp s' ∧ s'.status = .ok ∧ s'.inProgress = false ∧ s'.rx = [] := by
  obtain ⟨s1, turn15, hslave⟩ := replyData_takesTurn hf ha
  have received := he.receive (encodePacket q .rd resp)
  rw [List.nil_append] at received
  obtain ⟨m1, turn16, e1, -⟩ := check_takesTurn (.get _ _ _) hm received (ht.receive _) h5
  rw [← hcodec.frame] at e1
  obtain ⟨m2, turn17, hmaster⟩ := resultData_takesTurn e1 (lengthWord_toNat hresp).symm
  exact ⟨m2, s1, pairRun_slave turn15 (pairRun_master_silent turn16 (pairRun_master_silent turn17 rfl)), hmaster, hslave⟩

end

end Sys2Proof.Machine

namespace Sys2Proof.Claims

open Sys2Proof Sys2Proof.Machine

/-- Settles O60: the four packets cross the link one after the other, the handler's run standing between the second and the third. -/
theorem callOverTheIdealLinkReturnsTheHandlersBytes : Obligations.CallOverTheIdealLinkReturnsTheHandlersBytes := by
  intro m s id cap ts tr req resp h d0 d1 d2 d3 d4 d5 hm hs hmarkers hheader hcrc hbuf hreq hreqFit hresp hrespFit hcap hmport
    hmrx hclock h1 h2 h4 h5 hsport hsrx hslot hfound hruns
  have hcodec := sameCodec_of_eq hmarkers hheader hcrc
  obtain ⟨m1, s1, run1, e1, time1, f1, l1⟩ :=
    commandHeader_crosses hm hs hcodec hreq hreqFit hmport hmrx hclock h1 hsport hsrx ⟨hfound, hslot, hruns, hbuf⟩
  obtain ⟨m2, s2, run2, e2, time2, f2, l2, hid⟩ := commandData_crosses hm.1 hcodec hreq hreqFit e1 time1 h2 f1 l1
  obtain ⟨m3, s3, run3, e3, time3, f3, a3⟩ :=
    resultHeader_crosses hm.1 hcodec hm.2.2 hresp hrespFit hcap e2 time2 h4 f2 l2 hid
  obtain ⟨m4, s4, run4, ⟨hmstatus, hmresult, hmrest, hmrx'⟩, a4, hsstatus, hsrest, hsrx'⟩ :=
    resultData_crosses hm.1 hcodec hresp e3 time3 h5 f3 a3
  exact ⟨⟨m4, s4⟩, pairRun_trans run1 (pairRun_trans run2 (pairRun_trans run3 run4)), hmstatus, hmresult, hmrest, hsstatus,
    hsrest, a4.curRpcId, a4.bufLen, a4.buf, hmrx', hsrx'⟩

end Sys2Proof.Claims
